-- ==== Sys2Proof/Word.lean ====
section
/-! DEFINITION. The words of the block (30_encoding.md R70 to R72, R85). Indices, counts and widths are
natural numbers: R10 and R24 say that no value a rule computes is ever truncated (log entry 5). -/

namespace Sys2Proof

/-- SAMPLE (R71): one unsigned 8-bit brightness, 0 to 255. -/
abbrev Sample := BitVec 8

/-- RBYTE (R85): a result byte, bits 6 to 0 the data bits, bit 7 zero. -/
abbrev RByte := BitVec 8

/-- BIN (R72): one classified sample; `true` is the level 1. -/
abbrev Bin := Bool

end Sys2Proof
end

