-- ==== Sys2Proof/Syntax.lean ====
section
/-! DEFINITION. The operations of the block (30_encoding.md R88, opcode_table.json), the codes' types
(R74, R75, R80, R82), what selects an operation (R88) and the agents that take steps (00_scope.md R7). -/

namespace Sys2Proof

/-- The nine states of a lane's state register `pc` (R82); codes 9 to 15 cannot be written down (R92). -/
inductive LaneState
  | idle
  | start
  | normalized
  | runInFound
  | calibrated
  | sanityChecked
  | bytesAssembled
  | done
  | rejected
  deriving DecidableEq, Repr, Inhabited

/-- The nine cause codes (R80); codes 9 to 15 cannot be written down (R93). `none` is the code 0, no
rejection recorded. -/
inductive Cause
  | none
  | blankLine
  | runInNotFound
  | runInOutOfRange
  | sanityMismatch
  | outOfRange
  | parityMismatch
  | startEdgeNotFound
  | rowUnavailable
  deriving DecidableEq, Repr, Inhabited

/-- SVAL (R75): what SAMPLEBIT returns, a bit or the out-of-range value -1. -/
inductive SVal
  | zero
  | one
  | outOfRange
  deriving DecidableEq, Repr, Inhabited

/-- The thirteen lane registers by name, in the order of their numbers 0 to 12 (10_state.md R20). -/
inductive RegName
  | w
  | fidx
  | maxluma
  | startRunIn
  | stopRunIn
  | runInLength
  | bitWidth
  | riseIdx
  | bitStart
  | byte0
  | byte1
  | par
  | cause
  deriving DecidableEq, Repr

/-- The operations, one constructor for each row of opcode_table.json (COLLECT has two rows, one for each
selecting code). `lane` is the lane that performs a lane operation (R95 writes it as a prefix, `L1: NORM`). -/
inductive Instr
  /-- LOAD `i` (R191, R193): brings frame `i` into an idle lane; runs inside DISPATCH, which supplies `i`. -/
  | load (lane i : Nat)
  /-- NORM (R101). -/
  | norm (lane : Nat)
  /-- LOCATE (R120). -/
  | locate (lane : Nat)
  /-- CALIB (R140). -/
  | calib (lane : Nat)
  /-- SANITY (R171). -/
  | sanity (lane : Nat)
  /-- ASSEMBLE (R175). -/
  | assemble (lane : Nat)
  /-- VALIDATE (R179). -/
  | validate (lane : Nat)
  /-- COLLECT (R196), selecting code 0111. -/
  | collectDone (lane : Nat)
  /-- COLLECT (R196), selecting code 1000. -/
  | collectRejected (lane : Nat)
  /-- SAMPLEBIT `k` (R160), a sub-operation of SANITY and ASSEMBLE. -/
  | sampleBit (lane : Nat) (k : BitVec 5)
  /-- CSRW `n, v` (R211). -/
  | csrw (n : BitVec 3) (v : Nat)
  /-- CSRR `n` (R212). -/
  | csrr (n : BitVec 3)
  /-- FLW `i, h` (R210). -/
  | flw (i h : Nat)
  /-- NOP (R213, R86). -/
  | nop
  /-- BSTART (R213). -/
  | bstart
  /-- DISPATCH (R216) with its free choice of a lane. -/
  | dispatch (lane : Nat)
  /-- DRAIN (R220). -/
  | drain
  /-- BDONE (R222). -/
  | bdone
  deriving DecidableEq, Repr

/-- What selects an operation (R88): a code at one of the selecting places, with the operands that travel on
wires of their own (a lane number, a frame index, write data), or an enabling condition. -/
inductive Selection
  /-- The state register of a lane (format STATE), outside DISPATCH. -/
  | state (lane : Nat) (code : BitVec 4)
  /-- The state register of the lane that DISPATCH chose, with the frame index it supplies (R191): no turn presents
  it, because LOAD runs inside the one step of DISPATCH (R216, log entry 9). -/
  | load (lane : Nat) (code : BitVec 4) (i : Nat)
  /-- The operand of SAMPLEBIT (format BITIDX). -/
  | bitIdx (lane : Nat) (k : BitVec 5)
  /-- A request with `csr_we = 1` (format CSRNUM). -/
  | csrWrite (num : BitVec 3) (data : Nat)
  /-- A request with `csr_re = 1` (format CSRNUM). -/
  | csrRead (num : BitVec 3)
  /-- A request with `fl_we = 1`. -/
  | flWrite (index handle : Nat)
  /-- A command (format CMD). -/
  | cmd (op : BitVec 2)
  /-- The condition of DISPATCH, with the lane chosen. -/
  | dispatch (lane : Nat)
  /-- The condition of DRAIN. -/
  | drain
  /-- The condition of BDONE. -/
  | bdone
  deriving DecidableEq, Repr

/-- Why a selection selects no operation. -/
inductive DecodeError
  /-- `pc = 0000` outside DISPATCH: an idle lane has no operation of its own (R191). -/
  | idleOutsideDispatch
  /-- The lane that LOAD is for is not idle (R191). -/
  | laneNotIdle
  /-- A reserved STATE code, 9 to 15 (R92). -/
  | reservedState
  deriving DecidableEq, Repr

/-- The block's own agents (R7 c, d, e), and the command port, at which a BSTART may wait (R213, R282). -/
inductive Agent
  /-- A lane performs the operation its `pc` selects. -/
  | lane (l : Nat)
  /-- The dispatcher, with its free choice of a lane (R216). -/
  | dispatcher (l : Nat)
  /-- The concatenator, with the level of `out_ready` the host drives (R220, R284). -/
  | concatenator (outReady : Bool)
  /-- The command port accepts a waiting BSTART (R282). -/
  | commandPort
  deriving DecidableEq, Repr, Inhabited

/-- One turn: the agent that moves next, or what the outside world does next. -/
inductive Turn
  /-- A turn of one of the block's own agents. -/
  | own (a : Agent)
  /-- A host request with `csr_we = 1` (R42). -/
  | csrw (num : BitVec 3) (data : Nat)
  /-- A host request with `csr_re = 1` (R42). -/
  | csrr (num : BitVec 3)
  /-- A host request with `fl_we = 1` (R42). -/
  | flw (index handle : Nat)
  /-- A command offered by the host (R42, R86). -/
  | cmd (op : BitVec 2)
  /-- SAMPLEBIT alone on one lane, as SANITY and ASSEMBLE present it (log entry 9). -/
  | innerSample (l : Nat) (k : BitVec 5)
  /-- `rst = 1` at a clock edge (70_reset_and_hazards.md R270). -/
  | rst
  deriving DecidableEq, Repr

/-- The Row Sampler's answer (10_state.md R40): `Fail`, or a finite sequence of samples. -/
inductive ScanAnswer
  | fail
  | samples (row : List Sample)
  deriving DecidableEq, Repr, Inhabited

end Sys2Proof
end

