-- ==== Sys2Proof/Config.lean ====
section
/-! DEFINITION. What an implementation fixes (00_scope.md R8), the document's constants (R9), and the values
the spec leaves free: no body, so that nothing can be proved of them. -/

namespace Sys2Proof

/-- The open parameters of the block (R8). -/
structure Params where
  /-- `WMAX`, the largest row width. -/
  wmax : Nat
  /-- `P`, the number of lanes. -/
  p : Nat
  /-- `NMAX`, the largest number of frames in a batch. -/
  nmax : Nat
  /-- `HW`, the width of a frame handle. -/
  hw : Nat
  /-- `ROWW`, the width of the scanline index. -/
  roww : Nat
  deriving DecidableEq, Repr

/-- The constraint of R8 on every parameter. -/
abbrev Params.Ok (p : Params) : Prop :=
  1 ≤ p.wmax ∧ 1 ≤ p.p ∧ 1 ≤ p.nmax ∧ 1 ≤ p.hw ∧ 1 ≤ p.roww

namespace Config

/-- `WMAX - 1`; OPEN (R8, U17). -/
opaque wmaxLessOne : Nat
/-- `P - 1`; OPEN (R8, U17). -/
opaque pLessOne : Nat
/-- `NMAX - 1`; OPEN (R8, U17). -/
opaque nmaxLessOne : Nat
/-- `HW - 1`; OPEN (R8, U17). -/
opaque hwLessOne : Nat
/-- `ROWW - 1`; OPEN (R8, U17). -/
opaque rowwLessOne : Nat

/-- The parameters of the block that `State.reset` describes: any values the constraints of R8 allow. -/
def params : Params where
  wmax := wmaxLessOne + 1
  p := pLessOne + 1
  nmax := nmaxLessOne + 1
  hw := hwLessOne + 1
  roww := rowwLessOne + 1

/-- The Row Sampler (10_state.md R40), where State lists no answer: uninterpreted, and a function, so that it
is stable (R283). -/
opaque readScanline (handle row : Nat) : ScanAnswer

/-- The free schedule (R7, R290, U15): which of the block's own agents moves at a turn that no input fixes. -/
opaque schedule (turn : Nat) : Agent

/-- The bit pattern that a lane register whose reset value is NONE holds after reset: "real hardware will hold some bit
pattern there, a model must not depend on which" (70_reset_and_hazards.md R271). -/
opaque resetPattern (r : RegName) : Nat

/-- The bit pattern that ERR_INDEX holds after reset, where the spec gives NONE (R271). -/
opaque resetErrIndex : Nat

/-- The bit pattern that a lane register holds after LOAD wrote NONE into it (45_frame_decoder.md R191), by what it held
before. -/
opaque nonePattern (r : RegName) (old : Nat) : Nat

/-- What CSRR returns for ERR_INDEX while `row_error = 0` (U3), before the register's width is applied. -/
opaque freeErrIndex (use : Nat) : Nat

/-- A row whose maximum sample is below this is blank (R9). -/
abbrev BLANK_MIN : Nat := 32
/-- Lowest percentage inside the hysteresis band (R9). -/
abbrev HYST_LO : Nat := 45
/-- Highest percentage inside the hysteresis band (R9). -/
abbrev HYST_HI : Nat := 55
/-- Percentage split applied outside the band (R9). -/
abbrev SPLIT : Nat := 50
/-- startRunIn may be at most this percentage of the width (R9). -/
abbrev START_MAX_PCT : Nat := 5
/-- Transitions counted after startRunIn (R9). -/
abbrev RUNIN_TRANSITIONS : Nat := 13
/-- stopRunIn is at least this percentage of the width (R9). -/
abbrev STOP_MIN_PCT : Nat := 20
/-- stopRunIn is at most this percentage of the width (R9). -/
abbrev STOP_MAX_PCT : Nat := 30
/-- RUNIN_FRACTION in thousandths: 251/1000 (R9). -/
abbrev RUNIN_FRACTION_1000 : Nat := 251
/-- BIT_FRACTION in thousandths: 38/1000 (R9). -/
abbrev BIT_FRACTION_1000 : Nat := 38
/-- DEAD_BITS: the two dead-space Bit Indices, which must sample 0 (R9), as BITIDX codes. -/
abbrev DEAD_BITS : List (BitVec 5) := [0b11101#5, 0b11110#5]
/-- START_BIT: the Bit Index -1, which must sample 1 (R9), as a BITIDX code. -/
abbrev START_BIT : BitVec 5 := 0b11111#5
/-- GROUP_BASES: where the two byte groups begin (R9). -/
abbrev GROUP_BASES : List Nat := [0, 8]
/-- SENTINEL: the byte pair of every reject (R9). -/
abbrev SENTINEL : RByte × RByte := (0#8, 0#8)

end Config

end Sys2Proof
end

