-- ==== Sys2Proof/Decode.lean ====
section
/-! DEFINITION. The codes of 30_encoding.md (R74, R75, R80, R82, R86, R87), the derived widths (00_scope.md R8), the
decoder from what selects an operation to the operation (R88), and the encoder back. -/

namespace Sys2Proof

/-- `bitlength(n)`, the least `k` with `n < 2^k` (R8). -/
def bitLength (n : Nat) : Nat := if n = 0 then 0 else Nat.log2 n + 1

/-- `AW`, the width of a sample index register (R8). -/
def Params.aw (p : Params) : Nat := bitLength p.wmax

/-- `FW`, the width of a frame index (R8). -/
def Params.fw (p : Params) : Nat := bitLength p.nmax

/-- The width of `csr_wdata` and `csr_rdata`: that of the widest control register (10_state.md R31, R42). -/
def Params.csrPortWidth (p : Params) : Nat := max (max p.fw p.roww) (max (bitLength p.p) 3)

/-- The STATE code of a lane state (R82). -/
def LaneState.code : LaneState → BitVec 4
  | .idle => 0b0000#4
  | .start => 0b0001#4
  | .normalized => 0b0010#4
  | .runInFound => 0b0011#4
  | .calibrated => 0b0100#4
  | .sanityChecked => 0b0101#4
  | .bytesAssembled => 0b0110#4
  | .done => 0b0111#4
  | .rejected => 0b1000#4

/-- The lane state a STATE code stands for, none for the reserved codes (R82, R92). -/
def LaneState.ofCode (c : BitVec 4) : Option LaneState :=
  match c.toNat with
  | 0 => some .idle
  | 1 => some .start
  | 2 => some .normalized
  | 3 => some .runInFound
  | 4 => some .calibrated
  | 5 => some .sanityChecked
  | 6 => some .bytesAssembled
  | 7 => some .done
  | 8 => some .rejected
  | _ => none

/-- The CAUSE code of a cause (R80). -/
def Cause.code : Cause → BitVec 4
  | .none => 0#4
  | .blankLine => 1#4
  | .runInNotFound => 2#4
  | .runInOutOfRange => 3#4
  | .sanityMismatch => 4#4
  | .outOfRange => 5#4
  | .parityMismatch => 6#4
  | .startEdgeNotFound => 7#4
  | .rowUnavailable => 8#4

/-- The cause a CAUSE code stands for, none for the reserved codes (R80, R93). -/
def Cause.ofCode (c : BitVec 4) : Option Cause :=
  match c.toNat with
  | 0 => some .none
  | 1 => some .blankLine
  | 2 => some .runInNotFound
  | 3 => some .runInOutOfRange
  | 4 => some .sanityMismatch
  | 5 => some .outOfRange
  | 6 => some .parityMismatch
  | 7 => some .startEdgeNotFound
  | 8 => some .rowUnavailable
  | _ => Option.none

/-- The SVAL code of a sampled value, two's complement (R75). -/
def SVal.code : SVal → BitVec 2
  | .zero => 0b00#2
  | .one => 0b01#2
  | .outOfRange => 0b11#2

/-- The operation a selection selects (R88), total, rejecting by name. CMD codes 10 and 11 act as NOP (R93). -/
def decode : Selection → Except DecodeError Instr
  | .state lane code =>
    match code.toNat with
    | 0 => .error .idleOutsideDispatch
    | 1 => .ok (.norm lane)
    | 2 => .ok (.locate lane)
    | 3 => .ok (.calib lane)
    | 4 => .ok (.sanity lane)
    | 5 => .ok (.assemble lane)
    | 6 => .ok (.validate lane)
    | 7 => .ok (.collectDone lane)
    | 8 => .ok (.collectRejected lane)
    | _ => .error .reservedState
  | .load lane code i =>
    match code.toNat with
    | 0 => .ok (.load lane i)
    | n => if n ≤ 8 then .error .laneNotIdle else .error .reservedState
  | .bitIdx lane k => .ok (.sampleBit lane k)
  | .csrWrite num data => .ok (.csrw num data)
  | .csrRead num => .ok (.csrr num)
  | .flWrite index handle => .ok (.flw index handle)
  | .cmd op =>
    match op.toNat with
    | 1 => .ok .bstart
    | _ => .ok .nop
  | .dispatch lane => .ok (.dispatch lane)
  | .drain => .ok .drain
  | .bdone => .ok .bdone

/-- What selects an operation (R88, opcode_table.json). -/
def encode : Instr → Selection
  | .load lane i => .load lane 0b0000#4 i
  | .norm lane => .state lane 0b0001#4
  | .locate lane => .state lane 0b0010#4
  | .calib lane => .state lane 0b0011#4
  | .sanity lane => .state lane 0b0100#4
  | .assemble lane => .state lane 0b0101#4
  | .validate lane => .state lane 0b0110#4
  | .collectDone lane => .state lane 0b0111#4
  | .collectRejected lane => .state lane 0b1000#4
  | .sampleBit lane k => .bitIdx lane k
  | .csrw n v => .csrWrite n v
  | .csrr n => .csrRead n
  | .flw i h => .flWrite i h
  | .nop => .cmd 0b00#2
  | .bstart => .cmd 0b01#2
  | .dispatch lane => .dispatch lane
  | .drain => .drain
  | .bdone => .bdone

/-- The selecting place that a bare table word of `nbits` bits is read at, on lane 0 (log entry 13): the block's
codes stand in separate places (R88) and share their values, so the width tells the format, and a whole byte is
read as the format of most rows, STATE, its code in the low four bits; the STATE code 0000 is that of LOAD, with
the frame index 0. -/
def tableSelection (nbits w : Nat) : Selection :=
  match nbits with
  | 2 => .cmd (BitVec.ofNat 2 w)
  | 3 => .csrRead (BitVec.ofNat 3 w)
  | 5 => .bitIdx 0 (BitVec.ofNat 5 w)
  | _ => if w % 16 = 0 then .load 0 0b0000#4 0 else .state 0 (BitVec.ofNat 4 w)

/-- The instruction the decoder reads from a table word. -/
def decodeTableWord (nbits w : Nat) : Option Instr :=
  match decode (tableSelection nbits w) with
  | .ok i => some i
  | .error _ => none

end Sys2Proof
end

