-- ==== Sys2Proof/Machine/State.lean ====
section
/-! DEFINITION. The architectural state (10_state.md R20 to R48) as plain data, the reasons a step can stop, and
the machine right after reset (R46 to R48). The non-value NONE (00_scope.md R14) is, in a register, a mark beside the
bits that the register holds, and in a memory an index that is not listed. -/

namespace Sys2Proof.Machine

/-- A memory space indexed by element (20_memory.md R50): (index, element) pairs, the indices strictly rising; an
index that is not listed holds NONE. `Memory (BitVec 8)` is a list of `Host.Cell`. -/
structure Memory (α : Type) where
  cells : List (Nat × α)
  deriving DecidableEq, Repr

/-- The space with every element NONE. -/
def Memory.empty {α : Type} : Memory α := ⟨[]⟩

/-- The pairs' indices strictly rise and stay below the space's size. No pair can equal what an unlisted index
reads as, because NONE is no element. -/
def Memory.wfFrom {α : Type} (limit : Nat) : Nat → List (Nat × α) → Bool
  | _, [] => true
  | low, (i, _) :: rest => decide (low ≤ i) && decide (i < limit) && Memory.wfFrom limit (i + 1) rest

/-- The canonical form of a memory of `limit` elements. -/
def Memory.wf {α : Type} (limit : Nat) (m : Memory α) : Bool := Memory.wfFrom limit 0 m.cells

/-- A register. It always holds bits; NONE (00_scope.md R14) is the mark that no rule has given them a meaning:
"*unspecified*: real hardware will hold some bit pattern there" (70_reset_and_hazards.md R271). -/
inductive Reg (α : Type)
  /-- NONE, over the bits `held`. -/
  | none (held : α)
  /-- A value that a rule wrote. -/
  | val (a : α)
  deriving DecidableEq, Repr

/-- A number register of `width` bits that holds NONE over a pattern. -/
def Reg.unspecified (width pattern : Nat) : Reg Nat := .none (pattern % 2 ^ width)

/-- A bit-vector register that holds NONE over a pattern. -/
def Reg.unspecifiedBits (width pattern : Nat) : Reg (BitVec width) := .none (BitVec.ofNat width pattern)

/-- One lane: its register file (R20), its state register (R25), its flag (R29) and its two row buffers (R36, R37). -/
structure Lane where
  /-- `x[W]`, width of the loaded Sample Row. -/
  w : Reg Nat
  /-- `x[fidx]`, index of the frame this lane holds. -/
  fidx : Reg Nat
  /-- `x[maxluma]`, maximum sample of the row. -/
  maxluma : Reg (BitVec 8)
  /-- `x[startRunIn]`, index of the first 1 of BR. -/
  startRunIn : Reg Nat
  /-- `x[stopRunIn]`, index of the 13th transition. -/
  stopRunIn : Reg Nat
  /-- `x[runInLength]`. -/
  runInLength : Reg Nat
  /-- `x[bitWidth]`, samples per bit. -/
  bitWidth : Reg Nat
  /-- `x[riseIdx]`, index of the start bit's rising edge. -/
  riseIdx : Reg Nat
  /-- `x[bitStart]`, index where data bit 0 begins. -/
  bitStart : Reg Nat
  /-- `x[byte0]`, first result byte. -/
  byte0 : Reg RByte
  /-- `x[byte1]`, second result byte. -/
  byte1 : Reg RByte
  /-- `x[par]`, the two sampled parity bits. -/
  par : Reg (BitVec 2)
  /-- `x[cause]`, reject cause. -/
  cause : Cause
  /-- `flag.valid`. -/
  valid : Bool
  /-- `pc`, the state register. -/
  pc : LaneState
  /-- `SR`, the Sample Row buffer. -/
  sr : Memory Sample
  /-- `BR`, the Binary Row buffer. -/
  br : Memory Bin
  deriving DecidableEq, Repr

/-- SLOT (30_encoding.md R84): one element of RS. -/
structure Slot where
  full : Bool
  valid : Bool
  cause : Cause
  byte1 : RByte
  byte0 : RByte
  deriving DecidableEq, Repr

/-- One beat of the output stream (R39, R44): a byte with its tag and cause, and the two beat marks. -/
structure OutBeat where
  data : RByte
  tag : Bool
  cause : Cause
  first : Bool
  last : Bool
  deriving DecidableEq, Repr

/-- One listed answer of the Row Sampler (R40). -/
structure SamplerEntry where
  handle : Nat
  row : Nat
  answer : ScanAnswer
  deriving DecidableEq, Repr

/-- The whole machine. -/
structure State where
  /-- The open parameters (00_scope.md R8); no step changes them. -/
  cfg : Params
  /-- The `P` lanes, lane 0 first. -/
  lanes : List Lane
  /-- `FL`, the frame list (R38). -/
  fl : Memory Nat
  /-- `RS`, the result store (R39); an unlisted slot has `full = 0` and its other fields NONE (R48). -/
  rs : Memory Slot
  /-- `OUT`, what the concatenator has emitted since BSTART (R39). -/
  out : List OutBeat
  /-- `csr[BATCH_N]` (R32); `N` while a batch runs. -/
  batchN : Nat
  /-- `csr[ROW]` (R31). -/
  row : Nat
  /-- `csr[PAR_LIMIT]` (R33). -/
  parLimit : Nat
  /-- `flag.busy`, STATUS bit 0 (R29). -/
  busy : Bool
  /-- `flag.done`, STATUS bit 1 (R29). -/
  batchDone : Bool
  /-- `flag.row_error`, STATUS bit 2 (R29). -/
  rowError : Bool
  /-- `csr[ERR_INDEX]` (R34). -/
  errIndex : Reg Nat
  /-- `next`, the concatenator's pointer and `csr[NEXT]` (R28, R35). -/
  next : Nat
  /-- `disp`, the dispatcher's counter and `csr[DISP]` (R28, R35). -/
  disp : Nat
  /-- The port `csr_rdata` (R42): the value the last CSRR returned. -/
  csrRdata : Nat
  /-- The model's own: the value the last SAMPLEBIT run alone returned (log entry 8). -/
  sampleOut : SVal
  /-- BSTART requests held at the command port (R213, R282). -/
  cmdWaiting : Nat
  /-- The turns still to be taken (R7, R95). -/
  turns : List Turn
  /-- The Row Sampler's listed answers (R40). -/
  sampler : List SamplerEntry
  /-- The model's own: the counter that free values are applied to (log entry 11). -/
  free : Nat
  deriving DecidableEq, Repr

/-- Why the machine stops. The spec's own exception, the rejection of a frame, is a next state (60_exceptions.md
R250), and a register always holds bits (70_reset_and_hazards.md R271); these are the reads of memory elements that
hold NONE, "a model should make such a read a fault" (00_scope.md R14), and numbers of hardware that does not exist. -/
inductive Fault
  /-- An SR element holding NONE was read (R14; 93_implementation_defined.md U2, treatment `fault`); raised by NORM.
  Safe: real hardware goes on with some bit pattern. -/
  | readNoneSR
  /-- A BR element holding NONE was read (U2); raised by LOCATE, CALIB, SAMPLEBIT, SANITY, ASSEMBLE. Safe. -/
  | readNoneBR
  /-- An FL element that the host never wrote was read (U1, R273); raised by LOAD and DISPATCH. Safe. -/
  | readNoneFL
  /-- A lane number at or above `P`; raised by every lane operation and DISPATCH. No turn of the machine selects
  an operation of such a lane. Safe. -/
  | noSuchLane
  /-- A slot number at or above `NMAX` (R39); raised by COLLECT. Safe. -/
  | noSuchSlot
  deriving DecidableEq, Repr

/-- Why an operation is refused. -/
inductive Refusal
  /-- An instruction with no meaning in this model; raised by no arm. Safe. -/
  | notModelled (mnemonic : String)
  /-- A reserved STATE code was presented (93_implementation_defined.md U4: refuse); no lane ever holds one (R92).
  Raised by no reachable path of the step. Safe. -/
  | reservedStateCode
  deriving DecidableEq, Repr

/-- A lane of a block with parameters `p` after `rst` (R46): NONE is held over uninterpreted bits. -/
def Lane.reset (p : Params) : Lane where
  w := .unspecified p.aw (Config.resetPattern .w)
  fidx := .unspecified p.fw (Config.resetPattern .fidx)
  maxluma := .unspecifiedBits 8 (Config.resetPattern .maxluma)
  startRunIn := .unspecified p.aw (Config.resetPattern .startRunIn)
  stopRunIn := .unspecified p.aw (Config.resetPattern .stopRunIn)
  runInLength := .unspecified p.aw (Config.resetPattern .runInLength)
  bitWidth := .unspecified p.aw (Config.resetPattern .bitWidth)
  riseIdx := .unspecified p.aw (Config.resetPattern .riseIdx)
  bitStart := .unspecified (p.aw + 1) (Config.resetPattern .bitStart)
  byte0 := .unspecifiedBits 8 (Config.resetPattern .byte0)
  byte1 := .unspecifiedBits 8 (Config.resetPattern .byte1)
  par := .unspecifiedBits 2 (Config.resetPattern .par)
  cause := .none
  valid := false
  pc := .idle
  sr := Memory.empty
  br := Memory.empty

/-- The block with parameters `p` after `rst` (R46, R47, R48), with no input pending. -/
def State.resetWith (p : Params) : State where
  cfg := p
  lanes := List.replicate p.p (Lane.reset p)
  fl := Memory.empty
  rs := Memory.empty
  out := []
  batchN := 0
  row := 0
  parLimit := p.p
  busy := false
  batchDone := false
  rowError := false
  errIndex := .unspecified p.fw Config.resetErrIndex
  next := 0
  disp := 0
  csrRdata := 0
  sampleOut := .zero
  cmdWaiting := 0
  turns := []
  sampler := []
  free := 0

/-- The machine right after reset, whatever its parameters. -/
def State.reset : State := State.resetWith Config.params

end Sys2Proof.Machine
end

