-- ==== Sys2Proof/Machine/Ops.lean ====
section
/-! DEFINITION. The named operations over memories, lanes and the block's registers, the result of one unit of a
lane, and the REJECT ENTRY (60_exceptions.md R250), the block's only exception; there is no return from it (R253):
a lane leaves `S_REJECTED` only by COLLECT, which `State.storeSlot` serves. -/

namespace Sys2Proof.Machine

/-! ### Memories -/

/-- The element listed at an index. -/
def lookupCell {α : Type} (i : Nat) : List (Nat × α) → Option α
  | [] => none
  | (j, a) :: rest => if i = j then some a else lookupCell i rest

/-- `MemRead(S:i, 1)` (00_scope.md R12): none is NONE. -/
def Memory.read? {α : Type} (m : Memory α) (i : Nat) : Option α := lookupCell i m.cells

/-- Lists `a` at the index `i`, keeping the indices rising. -/
def insertCell {α : Type} (i : Nat) (a : α) : List (Nat × α) → List (Nat × α)
  | [] => [(i, a)]
  | (j, b) :: rest =>
    if i < j then (i, a) :: (j, b) :: rest
    else if i = j then (i, a) :: rest
    else (j, b) :: insertCell i a rest

/-- `MemWrite(S:i, 1, a)` (R12). -/
def Memory.write {α : Type} (m : Memory α) (i : Nat) (a : α) : Memory α := ⟨insertCell i a m.cells⟩

/-- The elements of a list at the indices from `i` on. -/
def cellsFrom {α : Type} : Nat → List α → List (Nat × α)
  | _, [] => []
  | i, a :: as => (i, a) :: cellsFrom (i + 1) as

/-- The loop `for j in 0 .. len-1: MemWrite(S:j, 1, as[j])` of LOAD (R191) and NORM (R101): the elements at
`len(as)` and above stay (20_memory.md R64). -/
def Memory.writePrefix {α : Type} (m : Memory α) (as : List α) : Memory α :=
  ⟨cellsFrom 0 as ++ m.cells.filter (fun c => decide (as.length ≤ c.1))⟩

/-! ### Registers -/

/-- `x[name]` read (00_scope.md R12): the bits the register holds, be they a value or what stands under NONE. -/
def Reg.read {α : Type} : Reg α → α
  | .none held => held
  | .val a => a

/-- The value a rule wrote; none for NONE (R14). No operation asks this: it is what statements speak of. -/
def Reg.value? {α : Type} : Reg α → Option α
  | .none _ => Option.none
  | .val a => some a

/-! ### One unit of a lane -/

/-- How a unit of a lane ends: it completes, it rejects the frame (00_scope.md R13), or it faults. -/
inductive Stage (α : Type)
  | ok (a : α)
  | reject (c : Cause)
  | fault (f : Fault)
  deriving DecidableEq, Repr

/-- Go on with the memory element that is there; NONE faults (R14). -/
def need {α β : Type} (o : Option α) (f : Fault) (k : α → Stage β) : Stage β :=
  match o with
  | none => .fault f
  | some a => k a

/-- One unit after another. -/
def Stage.bind {α β : Type} (x : Stage α) (k : α → Stage β) : Stage β :=
  match x with
  | .ok a => k a
  | .reject c => .reject c
  | .fault f => .fault f

/-- The reject entry (R250): exactly these five writes, and every other register and memory keeps its value. -/
def rejectEntry (c : Cause) (ln : Lane) : Lane :=
  { ln with cause := c, byte0 := .val 0#8, byte1 := .val 0#8, valid := false, pc := .rejected }

/-! ### The block -/

/-- Lane `l`, if the block has it. -/
def State.lane? (s : State) (l : Nat) : Option Lane := s.lanes[l]?

/-- The block with lane `l` replaced. -/
def State.setLane (s : State) (l : Nat) (ln : Lane) : State := { s with lanes := s.lanes.set l ln }

/-- The number of lanes that hold a frame (46_batch_array.md R216). -/
def State.nonIdle (s : State) : Nat := (s.lanes.filter (fun ln => decide (ln.pc ≠ .idle))).length

/-- Slot `i` has `full = 1` (30_encoding.md R84). -/
def State.slotFull (s : State) (i : Nat) : Bool :=
  match s.rs.read? i with
  | some slot => slot.full
  | none => false

/-- One lane performs the operation of the state `at_`: the unit's writes, or the reject entry, on that lane alone
(R252). In any other state the operation is not enabled and does not happen (30_encoding.md R88, log entry 2). -/
def laneOp (at_ : LaneState) (unit_ : Lane → Stage Lane) (l : Nat) (s : State) : Host.Outcome State Fault Refusal :=
  match s.lane? l with
  | none => .fault .noSuchLane
  | some ln =>
    if ln.pc = at_ then
      match unit_ ln with
      | .ok ln' => .next (s.setLane l ln')
      | .reject c => .next (s.setLane l (rejectEntry c ln))
      | .fault f => .fault f
    else .next s

/-- The Row Sampler's answer (10_state.md R40): the listed one, else the uninterpreted one. -/
def samplerAnswer (handle row : Nat) : List SamplerEntry → ScanAnswer
  | [] => Config.readScanline handle row
  | e :: rest => if e.handle = handle ∧ e.row = row then e.answer else samplerAnswer handle row rest

/-- `readScanline(h, csr[ROW])` in a state. -/
def State.readScanline (s : State) (h : Nat) : ScanAnswer := samplerAnswer h s.row s.sampler

/-- A COLLECT (45_frame_decoder.md R196): the slot of the lane's frame is written whole and the lane becomes idle. -/
def State.storeSlot (s : State) (l : Nat) (ln : Lane) : Host.Outcome State Fault Refusal :=
  if ln.fidx.read < s.cfg.nmax then
    .next { s.setLane l { ln with pc := .idle } with
      rs := s.rs.write ln.fidx.read
        { full := true, valid := ln.valid, cause := ln.cause, byte1 := ln.byte1.read, byte0 := ln.byte0.read } }
  else .fault .noSuchSlot

/-- COLLECT in the terminal state `at_`. -/
def collectAt (at_ : LaneState) (l : Nat) (s : State) : Host.Outcome State Fault Refusal :=
  match s.lane? l with
  | none => .fault .noSuchLane
  | some ln => if ln.pc = at_ then s.storeSlot l ln else .next s

/-- Every slot's `full` bit becomes 0 and its other fields stay (46_batch_array.md R213). -/
def Memory.clearFull (m : Memory Slot) : Memory Slot := ⟨m.cells.map (fun c => (c.1, { c.2 with full := false }))⟩

/-- `rst = 1` (70_reset_and_hazards.md R270, R274): the reset state. What stands outside the block stays: its
parameters, the Row Sampler, the turns to come, the requests the host holds at the command port. -/
def State.afterRst (s : State) : State :=
  { State.resetWith s.cfg with
    turns := s.turns, sampler := s.sampler, cmdWaiting := s.cmdWaiting, free := s.free }

end Sys2Proof.Machine
end

