-- ==== Sys2Proof/Machine/Operands.lean ====
section
/-! DEFINITION. Operand and value computations: the percentage comparisons (30_encoding.md R91), the bit width (R142),
the sampler's offset (R89, R161), bytes from sampled bits (R90, R176), the slot word (R84) and the legal values of the
control registers (10_state.md R32, R33). -/

namespace Sys2Proof.Machine

/-- The classified value of a sample (40_normalizer.md R101, R104): the band is tested first. -/
def classify (m s : Nat) (prev : Bin) : Bin :=
  let v := (100 * s) / m
  if Config.HYST_LO ≤ v ∧ v ≤ Config.HYST_HI then prev
  else if v > Config.SPLIT then true
  else false

/-- `startRunIn > 0.05*W` in its exact integer form (R91, R122). -/
abbrev startTooLate (w start : Nat) : Prop := 20 * start > w

/-- `0.20*W <= stopRunIn <= 0.30*W` in its exact integer form (R91, R125). -/
abbrev stopInBand (w stop : Nat) : Prop := w ≤ 5 * stop ∧ 10 * stop ≤ 3 * w

/-- `ceil((L / 0.251) * 0.038)` in its exact integer form (R91, R142). -/
def bitWidthOf (len : Nat) : Nat := (38 * len + 250) / 251

/-- The offset of a Bit Index, an exact integer (R89, R161, R164). -/
def sampleOffset (bitStart bitWidth : Nat) (k : BitVec 5) : Int :=
  (bitStart : Int) + k.toInt * (bitWidth : Int) + ((bitWidth / 2 : Nat) : Int)

/-- A bit as a sampled value (R75). -/
def sampledValue : Bin → SVal
  | false => .zero
  | true => .one

/-- A sampled value as a bit of a byte; the out-of-range value never reaches a byte (R177). -/
def svalBit : SVal → Nat
  | .zero => 0
  | .one => 1
  | .outOfRange => 0

/-- `s[0] + 2*s[1] + 4*s[2] + …`, the least significant bit first (R90, R176). -/
def weighBits : List SVal → Nat
  | [] => 0
  | s :: rest => svalBit s + 2 * weighBits rest

/-- The byte of the group at `base`: its seven data bits, zero-extended (R90, R176). -/
def groupByte (samples : List SVal) (base : Nat) : RByte := BitVec.ofNat 8 (weighBits ((samples.drop base).take 7))

/-- `{s[15], s[7]}`: bit 0 is the parity bit of group 0, bit 1 that of group 8 (R175). -/
def parityBits (samples : List SVal) : BitVec 2 :=
  BitVec.ofNat 2 (svalBit ((samples[7]?).getD .zero) + 2 * svalBit ((samples[15]?).getD .zero))

/-- A slot's 22-bit word: full, valid, cause, byte1, byte0 from the top (R84). -/
def Slot.toWord (slot : Slot) : BitVec 22 :=
  BitVec.ofBool slot.full ++ (BitVec.ofBool slot.valid ++ (slot.cause.code ++ (slot.byte1 ++ slot.byte0)))

/-- The slot a 22-bit word stands for, none for a reserved cause code. -/
def Slot.ofWord (word : BitVec 22) : Option Slot :=
  match Cause.ofCode (word.extractLsb' 16 4) with
  | none => none
  | some c =>
    some { full := word.getLsbD 21, valid := word.getLsbD 20, cause := c,
           byte1 := word.extractLsb' 8 8, byte0 := word.extractLsb' 0 8 }

/-- What a write of `v` stores in BATCH_N (R32): `min(v, NMAX)`. -/
def legalBatchN (p : Params) (v : Nat) : Nat := min v p.nmax

/-- What a write of `v` stores in ROW (R211): `v[ROWW-1:0]`. -/
def legalRow (p : Params) (v : Nat) : Nat := v % 2 ^ p.roww

/-- What a write of `v` stores in PAR_LIMIT (R33). -/
def legalParLimit (p : Params) (v : Nat) : Nat := if 1 ≤ v ∧ v ≤ p.p then v else p.p

/-- The handle as the FL port carries it, `fl_handle[HW-1:0]` (R42). -/
def portHandle (p : Params) (h : Nat) : Nat := h % 2 ^ p.hw

end Sys2Proof.Machine
end

