-- ==== Sys2Proof/Machine/Flags.lean ====
section
/-! DEFINITION. The flags (10_state.md R29, R30): odd parity, which decides `flag.valid` (44_byte_assembler.md R180),
the STATUS word (R31, R34), the row-error merge (R34, R193), and the flag writes of BSTART and BDONE. -/

namespace Sys2Proof.Machine

/-- `popcount(v)` of a byte (00_scope.md R11). -/
def popcount (v : RByte) : Nat := ((List.range 8).filter (fun i => v.getLsbD i)).length

/-- `(popcount(byte) + parityBit) mod 2 = 1` (R180). -/
def oddParity (byte : RByte) (parityBit : Bool) : Bool := decide ((popcount byte + parityBit.toNat) % 2 = 1)

/-- STATUS: bit 0 busy, bit 1 done, bit 2 row_error (R31). -/
def State.status (s : State) : BitVec 3 :=
  BitVec.ofBool s.rowError ++ (BitVec.ofBool s.batchDone ++ BitVec.ofBool s.busy)

/-- ERR_INDEX after the Row Sampler failed for frame `i` (R34, R193): `i`, or the least so far. -/
def mergedErrIndex (rowError : Bool) (errIndex : Reg Nat) (i : Nat) : Nat :=
  if rowError then min errIndex.read i else i

/-- BSTART (46_batch_array.md R213) on an idle block; its flag writes are `busy <- 1, done <- 0, row_error <- 0`. -/
def State.startBatch (s : State) : State :=
  { s with rs := s.rs.clearFull, out := [], next := 0, disp := 0, rowError := false, batchDone := false, busy := true }

/-- BDONE (R222): `busy <- 0, done <- 1`. -/
def State.finishBatch (s : State) : State := { s with busy := false, batchDone := true }

end Sys2Proof.Machine
end

