-- ==== Sys2Proof/Machine/BitSampler.lean ====
section
/-! DEFINITION. SAMPLEBIT, the Bit Sampler (43_bit_sampler.md). -/

namespace Sys2Proof.Machine

/-- SAMPLEBIT `k` on a lane (R160): the index is tested before the access (R162). -/
def sampleBitUnit (ln : Lane) (k : BitVec 5) : Stage SVal :=
  let offset := sampleOffset ln.bitStart.read ln.bitWidth.read k
  if offset < 0 ∨ offset ≥ (ln.w.read : Int) then .ok .outOfRange
  else need (ln.br.read? offset.toNat) .readNoneBR fun b => .ok (sampledValue b)

/-- SAMPLEBIT for each of a list of Bit Indices, in order. -/
def sampleAll (ln : Lane) : List (BitVec 5) → Stage (List SVal)
  | [] => .ok []
  | k :: ks => (sampleBitUnit ln k).bind fun s => (sampleAll ln ks).bind fun rest => .ok (s :: rest)

/-- SAMPLEBIT as a step of its own (R160): enabled in `S_CALIBRATED` and `S_SANITYCHECKED`; it writes nothing of the
spec's state, and the value it returns stands in `sampleOut` (log entry 8). -/
def execSampleBit (lane : Nat) (k : BitVec 5) (s : State) : Host.Outcome State Fault Refusal :=
  match s.lane? lane with
  | none => .fault .noSuchLane
  | some ln =>
    if ln.pc = .calibrated ∨ ln.pc = .sanityChecked then
      match sampleBitUnit ln k with
      | .ok v => .next { s with sampleOut := v }
      | .reject _ => .next s
      | .fault f => .fault f
    else .next s

end Sys2Proof.Machine
end

