-- ==== Sys2Proof/Machine/ByteAssembler.lean ====
section
/-! DEFINITION. SANITY, ASSEMBLE and VALIDATE, the Byte Assembler & Validator (44_byte_assembler.md). -/

namespace Sys2Proof.Machine

/-- SANITY's three samples and its two tests, the out-of-range one first (R171, R172, R173). -/
def sanityUnit (ln : Lane) : Stage Lane :=
  (sampleAll ln (Config.DEAD_BITS ++ [Config.START_BIT])).bind fun samples =>
  if .outOfRange ∈ samples then .reject .outOfRange
  else if samples = [.zero, .zero, .one] then .ok { ln with pc := .sanityChecked }
  else .reject .sanityMismatch

/-- SANITY (R171), in `S_CALIBRATED`. -/
def execSanity (lane : Nat) (s : State) : Host.Outcome State Fault Refusal := laneOp .calibrated sanityUnit lane s

/-- The sixteen Bit Indices of ASSEMBLE, 0 to 15. -/
def dataIndices : List (BitVec 5) := (List.range 16).map (BitVec.ofNat 5)

/-- ASSEMBLE's sixteen samples and what it makes of them (R175, R176, R177). -/
def assembleUnit (ln : Lane) : Stage Lane :=
  (sampleAll ln dataIndices).bind fun samples =>
  if .outOfRange ∈ samples then .reject .outOfRange
  else
    .ok { ln with
      byte0 := .val (groupByte samples 0)
      byte1 := .val (groupByte samples 8)
      par := .val (parityBits samples)
      pc := .bytesAssembled }

/-- ASSEMBLE (R175), in `S_SANITYCHECKED`. -/
def execAssemble (lane : Nat) (s : State) : Host.Outcome State Fault Refusal := laneOp .sanityChecked assembleUnit lane s

/-- The parity validator (R179, R180): both groups. -/
def validateUnit (ln : Lane) : Stage Lane :=
  if oddParity ln.byte0.read (ln.par.read.getLsbD 0) ∧ oddParity ln.byte1.read (ln.par.read.getLsbD 1) then
    .ok { ln with valid := true, pc := .done }
  else .reject .parityMismatch

/-- VALIDATE (R179), in `S_BYTESASSEMBLED`. -/
def execValidate (lane : Nat) (s : State) : Host.Outcome State Fault Refusal := laneOp .bytesAssembled validateUnit lane s

end Sys2Proof.Machine
end

