-- ==== Sys2Proof/Machine/Normalizer.lean ====
section
/-! DEFINITION. NORM, the Signal Normalizer (40_normalizer.md). -/

namespace Sys2Proof.Machine

/-- The first scan (R101, R102): the greatest of `n` elements from index `i`, starting from `m`; none where an
element is NONE. -/
def peakFrom (rd : Nat → Option Sample) : Nat → Nat → Nat → Option Nat
  | 0, _, m => some m
  | n + 1, i, m =>
    match rd i with
    | none => none
    | some s => peakFrom rd n (i + 1) (if s.toNat > m then s.toNat else m)

/-- The second scan (R101, R103, R104): the classified values of `n` elements from index `i` against the peak `m`,
with the carry `prev`. -/
def classifyFrom (rd : Nat → Option Sample) (m : Nat) : Nat → Nat → Bin → Option (List Bin)
  | 0, _, _ => some []
  | n + 1, i, prev =>
    match rd i with
    | none => none
    | some s => (classifyFrom rd m n (i + 1) (classify m s.toNat prev)).map (classify m s.toNat prev :: ·)

/-- The Signal Normalizer (R101). -/
def normUnit (ln : Lane) : Stage Lane :=
  need (peakFrom ln.sr.read? ln.w.read 0 0) .readNoneSR fun m =>
  if m < Config.BLANK_MIN then .reject .blankLine
  else
    need (classifyFrom ln.sr.read? m ln.w.read 0 false) .readNoneSR fun bits =>
    .ok { ln with br := ln.br.writePrefix bits, maxluma := .val (BitVec.ofNat 8 m), pc := .normalized }

/-- NORM (R101), in `S_START`. -/
def execNorm (lane : Nat) (s : State) : Host.Outcome State Fault Refusal := laneOp .start normUnit lane s

end Sys2Proof.Machine
end

