-- ==== Sys2Proof/Machine/RunInLocator.lean ====
section
/-! DEFINITION. LOCATE, the Run-In Locator (41_runin_locator.md), and the scan for a 1 it shares with CALIB. -/

namespace Sys2Proof.Machine

/-- The first index holding a 1 among `n` elements from `i` (R122, R143): outer none where the scan reads NONE, inner
none where there is no 1. The scan stops at the first 1. -/
def firstOneFrom (rd : Nat → Option Bin) : Nat → Nat → Option (Option Nat)
  | 0, _ => some none
  | n + 1, i =>
    match rd i with
    | none => none
    | some true => some (some i)
    | some false => firstOneFrom rd n (i + 1)

/-- The index of the 13th transition among `n` indices from `i`, `count` transitions having been seen (R120, R121,
R123); each index reads its own element and the one before it. -/
def transitionFrom (rd : Nat → Option Bin) : Nat → Nat → Nat → Option (Option Nat)
  | 0, _, _ => some none
  | n + 1, i, count =>
    match rd i, rd (i - 1) with
    | some new, some old =>
      if new = old then transitionFrom rd n (i + 1) count
      else if count + 1 = Config.RUNIN_TRANSITIONS then some (some i)
      else transitionFrom rd n (i + 1) (count + 1)
    | _, _ => none

/-- The Run-In Locator (R120), its tests in the order of R126. -/
def locateUnit (ln : Lane) : Stage Lane :=
  need (firstOneFrom ln.br.read? ln.w.read 0) .readNoneBR fun found =>
  match found with
  | none => .reject .runInNotFound
  | some start =>
    if startTooLate ln.w.read start then .reject .runInOutOfRange
    else
      need (transitionFrom ln.br.read? (ln.w.read - (start + 1)) (start + 1) 0) .readNoneBR fun end_ =>
      match end_ with
      | none => .reject .runInNotFound
      | some stop =>
        if stopInBand ln.w.read stop then
          .ok { ln with startRunIn := .val start, stopRunIn := .val stop, pc := .runInFound }
        else .reject .runInOutOfRange

/-- LOCATE (R120), in `S_NORMALIZED`. -/
def execLocate (lane : Nat) (s : State) : Host.Outcome State Fault Refusal := laneOp .normalized locateUnit lane s

end Sys2Proof.Machine
end

