-- ==== Sys2Proof/Machine/TimingCalibrator.lean ====
section
/-! DEFINITION. CALIB, the Timing Calibrator (42_timing_calibrator.md). -/

namespace Sys2Proof.Machine

/-- The Timing Calibrator (R140). `L = stopRunIn - startRunIn` is at least 13 wherever LOCATE wrote both (R141); the
natural-number difference is the model's for other register contents (log entry 17). -/
def calibUnit (ln : Lane) : Stage Lane :=
  let len := ln.stopRunIn.read - ln.startRunIn.read
  need (firstOneFrom ln.br.read? (ln.w.read - ln.stopRunIn.read) ln.stopRunIn.read) .readNoneBR fun found =>
  match found with
  | none => .reject .startEdgeNotFound
  | some rise =>
    .ok { ln with
      runInLength := .val len
      bitWidth := .val (bitWidthOf len)
      riseIdx := .val rise
      bitStart := .val (rise + bitWidthOf len)
      pc := .calibrated }

/-- CALIB (R140), in `S_RUNINFOUND`. -/
def execCalib (lane : Nat) (s : State) : Host.Outcome State Fault Refusal := laneOp .runInFound calibUnit lane s

end Sys2Proof.Machine
end

