-- ==== Sys2Proof/Machine/FrameDecoder.lean ====
section
/-! DEFINITION. LOAD and COLLECT (45_frame_decoder.md), and the sequencing of one lane (R194). -/

namespace Sys2Proof.Machine

/-- A lane into whose every register but `fidx` and `cause` LOAD writes NONE (R191, R193): the bits under NONE are
uninterpreted, of the register's width (70_reset_and_hazards.md R271). -/
def Lane.forget (p : Params) (ln : Lane) : Lane :=
  { ln with
    w := .unspecified p.aw (Config.nonePattern .w ln.w.read)
    maxluma := .unspecifiedBits 8 (Config.nonePattern .maxluma ln.maxluma.read.toNat)
    startRunIn := .unspecified p.aw (Config.nonePattern .startRunIn ln.startRunIn.read)
    stopRunIn := .unspecified p.aw (Config.nonePattern .stopRunIn ln.stopRunIn.read)
    runInLength := .unspecified p.aw (Config.nonePattern .runInLength ln.runInLength.read)
    bitWidth := .unspecified p.aw (Config.nonePattern .bitWidth ln.bitWidth.read)
    riseIdx := .unspecified p.aw (Config.nonePattern .riseIdx ln.riseIdx.read)
    bitStart := .unspecified (p.aw + 1) (Config.nonePattern .bitStart ln.bitStart.read)
    byte0 := .unspecifiedBits 8 (Config.nonePattern .byte0 ln.byte0.read.toNat)
    byte1 := .unspecifiedBits 8 (Config.nonePattern .byte1 ln.byte1.read.toNat)
    par := .unspecifiedBits 2 (Config.nonePattern .par ln.par.read.toNat) }

/-- A lane whose frame `i` has been loaded with `row` (R191): every register but `W`, `fidx` and `cause` becomes NONE,
and the elements of SR at `len(row)` and above stay. -/
def Lane.loaded (p : Params) (ln : Lane) (i : Nat) (row : List Sample) : Lane :=
  { ln.forget p with
    fidx := .val i, cause := .none, valid := false, w := .val row.length, sr := ln.sr.writePrefix row, pc := .start }

/-- A lane whose frame `i` has no row (R193): every register but `fidx`, `cause`, `byte0`, `byte1` becomes NONE. -/
def Lane.unavailable (p : Params) (ln : Lane) (i : Nat) : Lane :=
  { ln.forget p with
    fidx := .val i, cause := .rowUnavailable, byte0 := .val 0#8, byte1 := .val 0#8, valid := false, pc := .rejected }

/-- The row of a Row Sampler's answer that a lane can hold: none for `Fail` and for a row longer than WMAX (R191, R192). -/
def usableRow (p : Params) : ScanAnswer → Option (List Sample)
  | .fail => none
  | .samples row => if row.length > p.wmax then none else some row

/-- LOAD(i) on lane `l`, both paths (R191, R193), one indivisible step. -/
def State.loadFrame (s : State) (l : Nat) (ln : Lane) (i : Nat) : Host.Outcome State Fault Refusal :=
  match s.fl.read? i with
  | none => .fault .readNoneFL
  | some h =>
    match usableRow s.cfg (s.readScanline h) with
    | some row => .next (s.setLane l (ln.loaded s.cfg i row))
    | none =>
      .next { s.setLane l (ln.unavailable s.cfg i) with
        errIndex := .val (mergedErrIndex s.rowError s.errIndex i), rowError := true }

/-- LOAD (R191), in `S_IDLE`, with the frame index that DISPATCH supplies. -/
def execLoad (lane i : Nat) (s : State) : Host.Outcome State Fault Refusal :=
  match s.lane? lane with
  | none => .fault .noSuchLane
  | some ln => if ln.pc = .idle then s.loadFrame lane ln i else .next s

/-- COLLECT (R196), in `S_DONE`. -/
def execCollectDone (lane : Nat) (s : State) : Host.Outcome State Fault Refusal := collectAt .done lane s

/-- COLLECT (R196), in `S_REJECTED`. -/
def execCollectRejected (lane : Nat) (s : State) : Host.Outcome State Fault Refusal := collectAt .rejected lane s

/-- The lane after a unit: its writes, or the reject entry; none where it faults. -/
def Lane.settle (ln : Lane) : Stage Lane → Option Lane
  | .ok ln' => some ln'
  | .reject c => some (rejectEntry c ln)
  | .fault _ => none

/-- What a lane that holds an undecided frame does next, on itself (R26, R194): the unit its `pc` selects, a rejection
taken by the reject entry. A lane in a terminal state or idle stays. -/
def Lane.advance (ln : Lane) : Option Lane :=
  match ln.pc with
  | .idle => some ln
  | .start => ln.settle (normUnit ln)
  | .normalized => ln.settle (locateUnit ln)
  | .runInFound => ln.settle (calibUnit ln)
  | .calibrated => ln.settle (sanityUnit ln)
  | .sanityChecked => ln.settle (assembleUnit ln)
  | .bytesAssembled => ln.settle (validateUnit ln)
  | .done => some ln
  | .rejected => some ln

/-- `n` operations of a lane one after another. -/
def Lane.advanceN : Nat → Lane → Option Lane
  | 0, ln => some ln
  | n + 1, ln => ln.advance.bind (Lane.advanceN n)

/-- The pseudo-operation DECODEFRAME without its LOAD (30_encoding.md R95): at most six operations (R194). -/
def Lane.finish (ln : Lane) : Option Lane := ln.advanceN 6

end Sys2Proof.Machine
end

