-- ==== Sys2Proof/Machine/BatchArray.lean ====
section
/-! DEFINITION. The host's operations FLW, CSRW, CSRR, BSTART, NOP and the dispatcher's DISPATCH (46_batch_array.md). -/

namespace Sys2Proof.Machine

/-- FLW (R210): ignored while busy and for an index at or above NMAX. -/
def execFlw (i h : Nat) (s : State) : Host.Outcome State Fault Refusal :=
  if s.busy = false ∧ i < s.cfg.nmax then .next { s with fl := s.fl.write i (portHandle s.cfg h) } else .next s

/-- CSRW (R211): ignored while busy; numbers 3 to 6 are read-only and 7 is reserved. -/
def execCsrw (n : BitVec 3) (v : Nat) (s : State) : Host.Outcome State Fault Refusal :=
  if s.busy then .next s
  else
    match n.toNat with
    | 0 => .next { s with batchN := legalBatchN s.cfg v }
    | 1 => .next { s with row := legalRow s.cfg v }
    | 2 => .next { s with parLimit := legalParLimit s.cfg v }
    | _ => .next s

/-- CSRR (R212): the register's value on `csr_rdata`. ERR_INDEX while `row_error = 0` is a free value of the
register's width (93_implementation_defined.md U3, log entry 11). -/
def execCsrr (n : BitVec 3) (s : State) : Host.Outcome State Fault Refusal :=
  match n.toNat with
  | 0 => .next { s with csrRdata := s.batchN }
  | 1 => .next { s with csrRdata := s.row }
  | 2 => .next { s with csrRdata := s.parLimit }
  | 3 => .next { s with csrRdata := s.status.toNat }
  | 4 =>
    if s.rowError then .next { s with csrRdata := s.errIndex.read }
    else .next { s with csrRdata := Config.freeErrIndex s.free % 2 ^ s.cfg.fw, free := s.free + 1 }
  | 5 => .next { s with csrRdata := s.next }
  | 6 => .next { s with csrRdata := s.disp }
  | _ => .next { s with csrRdata := 0 }

/-- NOP (R213, R86): accepted, no effect. -/
def execNop (s : State) : Host.Outcome State Fault Refusal := .next s

/-- BSTART (R213): accepted when not busy; offered while busy it waits at the port and is not lost (R282). -/
def execBstart (s : State) : Host.Outcome State Fault Refusal :=
  if s.busy then .next { s with cmdWaiting := s.cmdWaiting + 1 } else .next s.startBatch

/-- The enabling condition of DISPATCH (R216) but for the choice of the lane. -/
abbrev State.dispatchEnabled (s : State) : Prop := s.busy = true ∧ s.disp < s.batchN ∧ s.nonIdle < s.parLimit

/-- DISPATCH (R216) with the choice of `lane`, which must be idle; it and its LOAD are one indivisible step. -/
def execDispatch (lane : Nat) (s : State) : Host.Outcome State Fault Refusal :=
  match s.lane? lane with
  | none => .fault .noSuchLane
  | some ln =>
    if s.dispatchEnabled ∧ ln.pc = .idle then { s with disp := s.disp + 1 }.loadFrame lane ln s.disp else .next s

end Sys2Proof.Machine
end

