-- ==== Sys2Proof/Machine/Concatenator.lean ====
section
/-! DEFINITION. The order-preserving concatenator: DRAIN and BDONE (46_batch_array.md). -/

namespace Sys2Proof.Machine

/-- The two beats of a slot (R220, 10_state.md R44); `last` says whether it is the batch's last frame. -/
def slotBeats (slot : Slot) (last : Bool) : List OutBeat :=
  [ { data := slot.byte0, tag := slot.valid, cause := slot.cause, first := true, last := false },
    { data := slot.byte1, tag := slot.valid, cause := slot.cause, first := false, last := last } ]

/-- DRAIN (R220): enabled while busy with `next < N` and the slot full. The host's acceptance of the two beats is part
of the concatenator's turn (log entry 15). -/
def execDrain (s : State) : Host.Outcome State Fault Refusal :=
  if s.busy = true ∧ s.next < s.batchN then
    match s.rs.read? s.next with
    | some slot =>
      if slot.full then
        .next { s with out := s.out ++ slotBeats slot (decide (s.next + 1 = s.batchN)), next := s.next + 1 }
      else .next s
    | none => .next s
  else .next s

/-- BDONE (R222): enabled while busy with `next = N`. -/
def execBdone (s : State) : Host.Outcome State Fault Refusal :=
  if s.busy = true ∧ s.next = s.batchN then .next s.finishBatch else .next s

end Sys2Proof.Machine
end

