-- ==== Sys2Proof/Machine/Dispatch.lean ====
section
/-! DEFINITION. The meaning of every operation, one arm per row of opcode_table.json. -/

namespace Sys2Proof.Machine

open Sys2Proof

def exec (i : Instr) (s : State) : Host.Outcome State Fault Refusal :=
  match i with
  | .load lane idx => Sys2Proof.Machine.execLoad lane idx s
  | .norm lane => Sys2Proof.Machine.execNorm lane s
  | .locate lane => Sys2Proof.Machine.execLocate lane s
  | .calib lane => Sys2Proof.Machine.execCalib lane s
  | .sanity lane => Sys2Proof.Machine.execSanity lane s
  | .assemble lane => Sys2Proof.Machine.execAssemble lane s
  | .validate lane => Sys2Proof.Machine.execValidate lane s
  | .collectDone lane => Sys2Proof.Machine.execCollectDone lane s
  | .collectRejected lane => Sys2Proof.Machine.execCollectRejected lane s
  | .sampleBit lane k => Sys2Proof.Machine.execSampleBit lane k s
  | .csrw n v => Sys2Proof.Machine.execCsrw n v s
  | .csrr n => Sys2Proof.Machine.execCsrr n s
  | .flw idx h => Sys2Proof.Machine.execFlw idx h s
  | .nop => Sys2Proof.Machine.execNop s
  | .bstart => Sys2Proof.Machine.execBstart s
  | .dispatch lane => Sys2Proof.Machine.execDispatch lane s
  | .drain => Sys2Proof.Machine.execDrain s
  | .bdone => Sys2Proof.Machine.execBdone s

end Sys2Proof.Machine
end

