-- ==== Sys2Proof/Machine/Fetch.lean ====
section
/-! DEFINITION. Whose turn it is and what it selects (00_scope.md R7, 30_encoding.md R88). The block fetches no
instructions (20_memory.md R63): a lane's `pc` IS the selection (10_state.md R25), a port request carries its code, and
the other operations are selected by their conditions. -/

namespace Sys2Proof.Machine

/-- What a turn comes to. -/
inductive Fetched
  /-- `rst` is asserted. -/
  | rst (s : State)
  /-- The agent has no enabled operation, or the agent does not exist. -/
  | idle (s : State)
  /-- The selection presented, and the state its operation runs on. -/
  | selected (sel : Selection) (s : State)
  deriving DecidableEq, Repr

/-- The turn that is next: the first of those still to be taken, else one of the free schedule (log entry 1). -/
def State.takeTurn (s : State) : Turn × State :=
  match s.turns with
  | t :: rest => (t, { s with turns := rest })
  | [] => (.own (Config.schedule s.free), { s with free := s.free + 1 })

/-- What one of the block's own agents selects at its turn. -/
def State.agentSelects (s : State) : Agent → Fetched
  | .lane l =>
    match s.lane? l with
    | some ln => .selected (.state l ln.pc.code) s
    | none => .idle s
  | .dispatcher l => if l < s.cfg.p then .selected (.dispatch l) s else .idle s
  | .concatenator outReady =>
    if s.next = s.batchN then .selected .bdone s
    else if outReady then .selected .drain s
    else .idle s
  | .commandPort =>
    if 0 < s.cmdWaiting ∧ s.busy = false then .selected (.cmd 0b01#2) { s with cmdWaiting := s.cmdWaiting - 1 }
    else .idle s

/-- What a turn selects. -/
def State.turnSelects (s : State) : Turn → Fetched
  | .own a => s.agentSelects a
  | .csrw num data => .selected (.csrWrite num data) s
  | .csrr num => .selected (.csrRead num) s
  | .flw index handle => .selected (.flWrite index handle) s
  | .cmd op => .selected (.cmd op) s
  | .innerSample l k => if l < s.cfg.p then .selected (.bitIdx l k) s else .idle s
  | .rst => .rst s

/-- The next turn and what it selects. -/
def State.fetch (s : State) : Fetched := s.takeTurn.2.turnSelects s.takeTurn.1

/-- A selection that selects no operation: an idle lane waits for DISPATCH, and LOAD for an idle lane (45_frame_decoder.md
R191); a reserved STATE code is refused (93_implementation_defined.md U4). -/
def unselected (e : DecodeError) (s : State) : Host.Outcome State Fault Refusal :=
  match e with
  | .idleOutsideDispatch => .next s
  | .laneNotIdle => .next s
  | .reservedState => .refused .reservedStateCode

/-- The state with lane `l` in the lane state `st`, everything else as it was. -/
def State.withLaneState (s : State) (l : Nat) (st : LaneState) : State :=
  match s.lane? l with
  | some ln => s.setLane l { ln with pc := st }
  | none => s

/-- The state in which the next turn presents a selection (log entry 14): the turn stands first, and the lane's
state register holds the code, or a code in which the sub-operation is enabled. LOAD runs only inside DISPATCH (R191), so it
is presented as the turn of a dispatcher in a batch whose next frame is the one to load (log entry 9). -/
def State.present (s : State) : Selection → State
  | .state l code =>
    match LaneState.ofCode code with
    | some st => { s.withLaneState l st with turns := .own (.lane l) :: s.turns }
    | none => s
  | .load l _ i =>
    { s.withLaneState l .idle with busy := true, batchN := i + 1, disp := i, turns := .own (.dispatcher l) :: s.turns }
  | .bitIdx l k => { s.withLaneState l .calibrated with turns := .innerSample l k :: s.turns }
  | .csrWrite num data => { s with turns := .csrw num data :: s.turns }
  | .csrRead num => { s with turns := .csrr num :: s.turns }
  | .flWrite index handle => { s with turns := .flw index handle :: s.turns }
  | .cmd op => { s with turns := .cmd op :: s.turns }
  | .dispatch l => { s with turns := .own (.dispatcher l) :: s.turns }
  | .drain => { s with turns := .own (.concatenator true) :: s.turns }
  | .bdone => { s with turns := .own (.concatenator true) :: s.turns }

/-- The state in which the next turn presents a bare table word, on lane 0 (log entry 13). -/
def State.presentTableWord (s : State) (nbits w : Nat) : State := s.present (tableSelection nbits w)

end Sys2Proof.Machine
end

