-- ==== Sys2Proof/Machine/Step.lean ====
section
/-! DEFINITION. One step of the machine: one turn of one agent (00_scope.md R6, R7). -/

namespace Sys2Proof.Machine

/-- The next turn is taken; what it selects is decoded and performed. -/
def step (s : State) : Host.Outcome State Fault Refusal :=
  match s.fetch with
  | .rst s' => .next s'.afterRst
  | .idle s' => .next s'
  | .selected sel s' =>
    match decode sel with
    | .ok i => exec i s'
    | .error e => unselected e s'

/-- The state whose next step runs the operation of a table word (log entries 13 and 14). -/
def State.withFetchWord (s : State) (nbits w : Nat) : State := s.presentTableWord nbits w

end Sys2Proof.Machine
end

