-- ==== Sys2Proof/Machine/DecodeFrame.lean ====
section
/-! DEFINITION. `decodeFrame`, the function a lane computes (45_frame_decoder.md R197), as a composition of functions
of a whole row. It is what the lanes are held against; no step calls it. -/

namespace Sys2Proof.Machine

/-- The value of `decodeFrame` (R190, R197). -/
structure FrameResult where
  byte0 : RByte
  byte1 : RByte
  valid : Bool
  cause : Cause
  deriving DecidableEq, Repr

/-- The sentinel result with its cause. -/
def rejectedResult (c : Cause) : FrameResult := { byte0 := 0#8, byte1 := 0#8, valid := false, cause := c }

/-- The greatest sample of a row, 0 for the empty row (40_normalizer.md R102). -/
def peak (row : List Sample) : Nat := row.foldl (fun m s => max m s.toNat) 0

/-- The classified values of a row against the peak `m`, with the carry (R103). -/
def binarise (m : Nat) : Bin → List Sample → List Bin
  | _, [] => []
  | prev, s :: rest => classify m s.toNat prev :: binarise m (classify m s.toNat prev) rest

/-- NORM as a function of the row (R101). -/
def normalize (row : List Sample) : Except Cause (List Bin) :=
  if peak row < Config.BLANK_MIN then .error .blankLine else .ok (binarise (peak row) false row)

/-- The bit of a Binary Row at an index, 0 beyond its end. -/
def bitAt (br : List Bin) (i : Nat) : Bin := br.getD i false

/-- The first index at or above `low` that holds a 1 (41_runin_locator.md R122, 42_timing_calibrator.md R143). -/
def firstOne (br : List Bin) (low : Nat) : Option Nat :=
  (List.range br.length).find? (fun i => decide (low ≤ i) && bitAt br i)

/-- The indices of the transitions after `start`, in rising order (R121, R123). -/
def transitionsAfter (br : List Bin) (start : Nat) : List Nat :=
  (List.range br.length).filter (fun i => decide (start < i) && (bitAt br i != bitAt br (i - 1)))

/-- LOCATE as a function of the Binary Row (R120): startRunIn and stopRunIn. -/
def locate (br : List Bin) : Except Cause (Nat × Nat) :=
  match firstOne br 0 with
  | none => .error .runInNotFound
  | some start =>
    if startTooLate br.length start then .error .runInOutOfRange
    else
      match (transitionsAfter br start)[Config.RUNIN_TRANSITIONS - 1]? with
      | none => .error .runInNotFound
      | some stop => if stopInBand br.length stop then .ok (start, stop) else .error .runInOutOfRange

/-- CALIB as a function (R140): bitWidth and bitStart. -/
def calibrate (br : List Bin) (start stop : Nat) : Except Cause (Nat × Nat) :=
  match firstOne br stop with
  | none => .error .startEdgeNotFound
  | some rise => .ok (bitWidthOf (stop - start), rise + bitWidthOf (stop - start))

/-- SAMPLEBIT as a function of `(k, bitStart, bitWidth, W, BR)` (43_bit_sampler.md R160, R167). -/
def sampleRow (br : List Bin) (bitStart bitWidth : Nat) (k : Int) : SVal :=
  let offset : Int := (bitStart : Int) + k * (bitWidth : Int) + ((bitWidth / 2 : Nat) : Int)
  if offset < 0 ∨ offset ≥ (br.length : Int) then .outOfRange else sampledValue (bitAt br offset.toNat)

/-- SANITY as a function (44_byte_assembler.md R171). -/
def sanity (br : List Bin) (bitStart bitWidth : Nat) : Except Cause Unit :=
  let samples := [-3, -2, -1].map (sampleRow br bitStart bitWidth)
  if .outOfRange ∈ samples then .error .outOfRange
  else if samples = [.zero, .zero, .one] then .ok ()
  else .error .sanityMismatch

/-- ASSEMBLE as a function (R175): the two bytes and the two parity bits. -/
def assemble (br : List Bin) (bitStart bitWidth : Nat) : Except Cause (RByte × RByte × BitVec 2) :=
  let samples := (List.range 16).map (fun k : Nat => sampleRow br bitStart bitWidth (k : Int))
  if .outOfRange ∈ samples then .error .outOfRange
  else .ok (groupByte samples 0, groupByte samples 8, parityBits samples)

/-- VALIDATE as a function (R179). -/
def validate (b0 b1 : RByte) (par : BitVec 2) : Except Cause Unit :=
  if oddParity b0 (par.getLsbD 0) ∧ oddParity b1 (par.getLsbD 1) then .ok () else .error .parityMismatch

/-- `decodeFrame(row)` (R197). -/
def decodeFrame (row : List Sample) : FrameResult :=
  match normalize row with
  | .error c => rejectedResult c
  | .ok br =>
  match locate br with
  | .error c => rejectedResult c
  | .ok (start, stop) =>
  match calibrate br start stop with
  | .error c => rejectedResult c
  | .ok (bw, bs) =>
  match sanity br bs bw with
  | .error c => rejectedResult c
  | .ok () =>
  match assemble br bs bw with
  | .error c => rejectedResult c
  | .ok (b0, b1, par) =>
  match validate b0 b1 par with
  | .error c => rejectedResult c
  | .ok () => { byte0 := b0, byte1 := b1, valid := true, cause := .none }

/-- The Decode Result of one frame of a batch, by the Row Sampler's answer (46_batch_array.md R225). -/
def answerResult (p : Params) (ans : ScanAnswer) : FrameResult :=
  match usableRow p ans with
  | none => rejectedResult .rowUnavailable
  | some row => decodeFrame row

/-- The Decode Result that frame `i` of the batch has, by its handle; none where the handle was never written. -/
def State.frameResult (s : State) (i : Nat) : Option FrameResult :=
  (s.fl.read? i).map (fun h => answerResult s.cfg (s.readScanline h))

/-- The Row Sampler fails for frame `i`, or its row does not fit (R192, R193). -/
def State.frameUnavailable (s : State) (i : Nat) : Bool :=
  match s.fl.read? i with
  | some h => (usableRow s.cfg (s.readScanline h)).isNone
  | none => false

/-- A slot that holds a frame's Decode Result (30_encoding.md R84). -/
def FrameResult.slot (r : FrameResult) : Slot :=
  { full := true, valid := r.valid, cause := r.cause, byte1 := r.byte1, byte0 := r.byte0 }

end Sys2Proof.Machine
end

