-- ==== Sys2Proof/WellFormed.lean ====
section
/-! DEFINITION. Which instructions can be written down on a block with given parameters: a lane that exists, a
frame index the dispatcher's counter holds, and operands that fit the ports they travel on (10_state.md R28, R42). -/

namespace Sys2Proof

/-- The operands of an instruction fit the block. Every Bit Index is allowed (93_implementation_defined.md U6),
and every register number (U9). -/
def Instr.wellFormed (p : Params) : Instr → Bool
  | .load lane i => decide (lane < p.p) && decide (i < 2 ^ p.fw)
  | .norm lane => decide (lane < p.p)
  | .locate lane => decide (lane < p.p)
  | .calib lane => decide (lane < p.p)
  | .sanity lane => decide (lane < p.p)
  | .assemble lane => decide (lane < p.p)
  | .validate lane => decide (lane < p.p)
  | .collectDone lane => decide (lane < p.p)
  | .collectRejected lane => decide (lane < p.p)
  | .sampleBit lane _ => decide (lane < p.p)
  | .csrw _ v => decide (v < 2 ^ p.csrPortWidth)
  | .csrr _ => true
  | .flw i h => decide (i < 2 ^ p.fw) && decide (h < 2 ^ p.hw)
  | .nop => true
  | .bstart => true
  | .dispatch lane => decide (lane < p.p)
  | .drain => true
  | .bdone => true

end Sys2Proof
end

