-- ==== Sys2Proof/Safety.lean ====
section
/-! DEFINITION. What counts as a safe state, in the terms the statements use: the ranges of the registers (10_state.md
R20, R21), what a lane holds in each state (R23, R26, R29), the bookkeeping of a batch (46_batch_array.md R217, R218) and
what a batch's results are (R225). -/

namespace Sys2Proof.Machine

/-- Every element below `n` holds a value. -/
def Memory.definedBelow {α : Type} (m : Memory α) (n : Nat) : Prop := ∀ j, j < n → (m.read? j).isSome = true

/-- The range column of R20, and what R21 derives: each register that holds a value holds one in its range. -/
structure LaneRanges (p : Params) (ln : Lane) : Prop where
  w_le : ∀ w, ln.w.value? = some w → w ≤ p.wmax
  maxluma_ge : ∀ m, ln.maxluma.value? = some m → 32 ≤ m.toNat
  start_le : ∀ a, ln.startRunIn.value? = some a → ∃ w, ln.w.value? = some w ∧ 20 * a ≤ w
  stop_range : ∀ b, ln.stopRunIn.value? = some b →
    ∃ w a, ln.w.value? = some w ∧ ln.startRunIn.value? = some a ∧ a + 13 ≤ b ∧ stopInBand w b
  length_eq : ∀ len, ln.runInLength.value? = some len →
    ∃ a b, ln.startRunIn.value? = some a ∧ ln.stopRunIn.value? = some b ∧ len = b - a
  width_eq : ∀ bw, ln.bitWidth.value? = some bw → ∃ len, ln.runInLength.value? = some len ∧ bw = bitWidthOf len
  rise_range : ∀ r, ln.riseIdx.value? = some r →
    ∃ b w, ln.stopRunIn.value? = some b ∧ ln.w.value? = some w ∧ b < r ∧ r < w
  bitStart_eq : ∀ t, ln.bitStart.value? = some t →
    ∃ r bw, ln.riseIdx.value? = some r ∧ ln.bitWidth.value? = some bw ∧ t = r + bw
  byte0_le : ∀ v, ln.byte0.value? = some v → v.toNat ≤ 127
  byte1_le : ∀ v, ln.byte1.value? = some v → v.toNat ≤ 127

/-- What a lane holds in each state, so that the operation its `pc` selects reads no NONE (R23). -/
def LaneReady (ln : Lane) : Prop :=
  match ln.pc with
  | .idle => True
  | .start => ∃ w, ln.w.value? = some w ∧ ln.sr.definedBelow w
  | .normalized => ∃ w, ln.w.value? = some w ∧ ln.br.definedBelow w
  | .runInFound => ∃ w a b, ln.w.value? = some w ∧ ln.startRunIn.value? = some a ∧ ln.stopRunIn.value? = some b ∧
      ln.br.definedBelow w ∧ ln.br.read? b = some false
  | .calibrated => ∃ w bw t, ln.w.value? = some w ∧ ln.bitWidth.value? = some bw ∧
      ln.bitStart.value? = some t ∧ ln.br.definedBelow w
  | .sanityChecked => ∃ w bw t, ln.w.value? = some w ∧ ln.bitWidth.value? = some bw ∧
      ln.bitStart.value? = some t ∧ ln.br.definedBelow w
  | .bytesAssembled => ∃ b0 b1 par, ln.byte0.value? = some b0 ∧ ln.byte1.value? = some b1 ∧ ln.par.value? = some par
  | .done => ∃ b0 b1, ln.byte0.value? = some b0 ∧ ln.byte1.value? = some b1
  | .rejected => ln.byte0.value? = some 0#8 ∧ ln.byte1.value? = some 0#8

/-- The registers that no operation has written since LOAD hold NONE (45_frame_decoder.md R191; R23). -/
def LaneUnwritten (ln : Lane) : Prop :=
  (ln.pc = .start → ln.maxluma.value? = none) ∧
  (ln.pc = .start ∨ ln.pc = .normalized → ln.startRunIn.value? = none ∧ ln.stopRunIn.value? = none) ∧
  (ln.pc = .start ∨ ln.pc = .normalized ∨ ln.pc = .runInFound →
    ln.runInLength.value? = none ∧ ln.bitWidth.value? = none ∧ ln.riseIdx.value? = none ∧ ln.bitStart.value? = none) ∧
  (ln.pc = .start ∨ ln.pc = .normalized ∨ ln.pc = .runInFound ∨ ln.pc = .calibrated ∨ ln.pc = .sanityChecked →
    ln.byte0.value? = none ∧ ln.byte1.value? = none ∧ ln.par.value? = none)

/-- A lane that holds a frame: which frame, and when its flag and its cause are set (R29, 30_encoding.md R82). -/
def LaneFlags (ln : Lane) : Prop :=
  ln.pc ≠ .idle →
    (∃ i, ln.fidx.value? = some i) ∧ (ln.valid = true ↔ ln.pc = .done) ∧ (ln.cause ≠ .none ↔ ln.pc = .rejected)

/-- The invariant of one lane. -/
structure LaneInv (p : Params) (ln : Lane) : Prop where
  ranges : LaneRanges p ln
  ready : LaneReady ln
  unwritten : LaneUnwritten ln
  flags : LaneFlags ln
  sr_wf : ln.sr.wf p.wmax = true
  br_wf : ln.br.wf p.wmax = true

/-- A written slot (30_encoding.md R84). -/
def SlotOk (slot : Slot) : Prop :=
  (slot.valid = false → slot.byte0 = 0#8 ∧ slot.byte1 = 0#8 ∧ slot.cause ≠ .none) ∧
  (slot.valid = true → slot.cause = .none ∧ slot.byte0.toNat ≤ 127 ∧ slot.byte1.toNat ≤ 127)

/-- Lane `l` holds frame `i`. -/
def State.holds (s : State) (l i : Nat) : Prop := ∃ ln, s.lane? l = some ln ∧ ln.pc ≠ .idle ∧ ln.fidx.value? = some i

/-- The invariant of the machine. -/
structure Inv (s : State) : Prop where
  cfg_ok : s.cfg.Ok
  lanes_length : s.lanes.length = s.cfg.p
  lane_inv : ∀ l ln, s.lane? l = some ln → LaneInv s.cfg ln
  fl_wf : s.fl.wf s.cfg.nmax = true
  fl_handle : ∀ i h, s.fl.read? i = some h → h < 2 ^ s.cfg.hw
  rs_wf : s.rs.wf s.cfg.nmax = true
  slots_ok : ∀ i slot, s.rs.read? i = some slot → SlotOk slot
  batchN_le : s.batchN ≤ s.cfg.nmax
  row_lt : s.row < 2 ^ s.cfg.roww
  parLimit_range : 1 ≤ s.parLimit ∧ s.parLimit ≤ s.cfg.p
  not_busy_and_done : ¬(s.busy = true ∧ s.batchDone = true)
  errIndex_set : s.rowError = true → ∃ e, s.errIndex.value? = some e
  out_length : s.out.length = 2 * s.next
  idle_unless_busy : s.busy = false → ∀ l ln, s.lane? l = some ln → ln.pc = .idle
  counters : s.busy = true → s.next ≤ s.disp ∧ s.disp ≤ s.batchN
  emitted_full : s.busy = true → ∀ i, i < s.next → s.slotFull i = true
  undispatched_empty : s.busy = true → ∀ i, s.disp ≤ i → s.slotFull i = false
  held_pending : s.busy = true → ∀ l i, s.holds l i → i < s.disp ∧ s.slotFull i = false
  held_once : ∀ l l' i, s.holds l i → s.holds l' i → l = l'
  dispatched_accounted : s.busy = true → ∀ i, i < s.disp → s.slotFull i = true ∨ ∃ l, s.holds l i
  limit : s.nonIdle ≤ s.parLimit

/-- The four values a lane hands on (45_frame_decoder.md R190) are a given Decode Result. -/
def Lane.hasResult (ln : Lane) (r : FrameResult) : Prop :=
  ln.byte0.value? = some r.byte0 ∧ ln.byte1.value? = some r.byte1 ∧ ln.valid = r.valid ∧ ln.cause = r.cause

/-- The beats of the first `n` frames of the batch, in index order, two for each (46_batch_array.md R221, R225). -/
def State.expectedStream (s : State) (n : Nat) : List OutBeat :=
  (List.range n).flatMap fun i =>
    match s.frameResult i with
    | some r => slotBeats r.slot (decide (i + 1 = s.batchN))
    | none => []

/-- While a batch runs, every lane is on its way to its frame's Decode Result, every full slot holds its frame's, the
stream is that of the frames drained, and the row-error cells are those of the frames dispatched (R225). -/
structure BatchContent (s : State) : Prop where
  lanes : ∀ l ln i, s.lane? l = some ln → ln.pc ≠ .idle → ln.fidx.value? = some i →
    ∃ ln' r, ln.finish = some ln' ∧ s.frameResult i = some r ∧ ln'.hasResult r
  slots : ∀ i slot, s.rs.read? i = some slot → slot.full = true → ∃ r, s.frameResult i = some r ∧ slot = r.slot
  stream : s.out = s.expectedStream s.next
  rowError : s.rowError = true ↔ ∃ i, i < s.disp ∧ s.frameUnavailable i = true
  errIndex : s.rowError = true → ∃ e, s.errIndex.value? = some e ∧ e < s.disp ∧ s.frameUnavailable e = true ∧
    ∀ i, i < s.disp → s.frameUnavailable i = true → e ≤ i

/-- The invariant with the batch's content. -/
def BatchInv (s : State) : Prop := Inv s ∧ (s.busy = true → BatchContent s)

/-- How many operations a lane still has to do before it is idle (R194, R196). -/
def opsLeft : LaneState → Nat
  | .idle => 0
  | .start => 7
  | .normalized => 6
  | .runInFound => 5
  | .calibrated => 4
  | .sanityChecked => 3
  | .bytesAssembled => 2
  | .done => 1
  | .rejected => 1

/-- How much of the running batch is still to be done (R226): it bounds the steps the block's agents can still take. -/
def State.work (s : State) : Nat :=
  8 * (s.batchN - s.disp) + (s.lanes.map (fun ln => opsLeft ln.pc)).sum + (s.batchN - s.next) + s.busy.toNat

/-- The state in which agent `a` moves next. -/
def State.withAgent (s : State) (a : Agent) : State := { s with turns := .own a :: s.turns }

/-- A lane whose row width is `bits.length` reads as `bits`. -/
def Lane.binaryRow (ln : Lane) (bits : List Bin) : Prop :=
  ln.w.read = bits.length ∧ ∀ j, j < bits.length → ln.br.read? j = bits[j]?

/-- A lane whose Sample Row is `row`. -/
def Lane.sampleRowIs (ln : Lane) (row : List Sample) : Prop :=
  ln.w.read = row.length ∧ ∀ j, j < row.length → ln.sr.read? j = row[j]?

/-- The first 1 of a Binary Row at or above `low` stands at `i` (41_runin_locator.md R122, 42_timing_calibrator.md R143). -/
def FirstOneAt (bits : List Bin) (low i : Nat) : Prop :=
  low ≤ i ∧ i < bits.length ∧ bitAt bits i = true ∧ ∀ j, low ≤ j → j < i → bitAt bits j = false

/-- How many transitions stand strictly between `start` and `stop` (R121). -/
def transitionsBetween (bits : List Bin) (start stop : Nat) : Nat :=
  ((List.range stop).filter (fun i => decide (start < i) && (bitAt bits i != bitAt bits (i - 1)))).length

/-- The 13th transition after `start` stands at `stop` (R123). -/
def ThirteenthAt (bits : List Bin) (start stop : Nat) : Prop :=
  start < stop ∧ stop < bits.length ∧ bitAt bits stop ≠ bitAt bits (stop - 1) ∧ transitionsBetween bits start stop = 12

/-- Every register of a lane but those named keeps its value. -/
def SameRegsExcept (changed : List RegName) (a b : Lane) : Prop :=
  (.w ∉ changed → b.w = a.w) ∧ (.fidx ∉ changed → b.fidx = a.fidx) ∧ (.maxluma ∉ changed → b.maxluma = a.maxluma) ∧
  (.startRunIn ∉ changed → b.startRunIn = a.startRunIn) ∧ (.stopRunIn ∉ changed → b.stopRunIn = a.stopRunIn) ∧
  (.runInLength ∉ changed → b.runInLength = a.runInLength) ∧ (.bitWidth ∉ changed → b.bitWidth = a.bitWidth) ∧
  (.riseIdx ∉ changed → b.riseIdx = a.riseIdx) ∧ (.bitStart ∉ changed → b.bitStart = a.bitStart) ∧
  (.byte0 ∉ changed → b.byte0 = a.byte0) ∧ (.byte1 ∉ changed → b.byte1 = a.byte1) ∧ (.par ∉ changed → b.par = a.par) ∧
  (.cause ∉ changed → b.cause = a.cause)

/-- Nothing but lane `l` changes (60_exceptions.md R252): every other lane and all the block's own state stay. -/
def OnlyLane (l : Nat) (s t : State) : Prop :=
  t = { s with lanes := t.lanes } ∧ t.lanes.length = s.lanes.length ∧ ∀ m, m ≠ l → t.lane? m = s.lane? m

end Sys2Proof.Machine
end

