-- ==== Sys2Proof/Certificates/Slice0/Obligations.lean ====
section
/-! DEFINITION. The statements for the provers. Each docstring says which rule of spec/ it formalises. -/

open Sys2Proof Sys2Proof.Machine

/-! ### Reset -/

/-- 10_state.md R46, R47: what reset leaves in every lane and in the control registers, for every choice of the open
parameters; `State.reset` is the block with the parameters of Config. -/
def Obligations.ResetLeavesLanesAndRegisters : Prop :=
  State.reset = State.resetWith Config.params ∧ Config.params.Ok ∧
  ∀ p : Params,
    (∀ l, l < p.p → ∃ ln, (State.resetWith p).lane? l = some ln ∧
      ln.pc = .idle ∧ ln.valid = false ∧ ln.cause = .none ∧
      ln.w.value? = none ∧ ln.fidx.value? = none ∧ ln.maxluma.value? = none ∧ ln.startRunIn.value? = none ∧
      ln.stopRunIn.value? = none ∧ ln.runInLength.value? = none ∧ ln.bitWidth.value? = none ∧
      ln.riseIdx.value? = none ∧ ln.bitStart.value? = none ∧ ln.byte0.value? = none ∧ ln.byte1.value? = none ∧
      ln.par.value? = none ∧ (∀ i, ln.sr.read? i = none) ∧ (∀ i, ln.br.read? i = none)) ∧
    (State.resetWith p).batchN = 0 ∧ (State.resetWith p).row = 0 ∧ (State.resetWith p).parLimit = p.p ∧
    (State.resetWith p).status = 0b000#3 ∧ (State.resetWith p).errIndex.value? = none ∧ (State.resetWith p).next = 0 ∧
    (State.resetWith p).disp = 0

/-- 10_state.md R48 and 70_reset_and_hazards.md R271: the memories after reset, and that no agent of the block has an
enabled operation: whichever of them moves, the reset state stays. -/
def Obligations.ResetLeavesMemoriesAndIdleBlock : Prop :=
  ∀ p : Params,
    (∀ i, (State.resetWith p).fl.read? i = none) ∧
    (∀ i, (State.resetWith p).slotFull i = false ∧ (State.resetWith p).rs.read? i = none) ∧
    (State.resetWith p).out = [] ∧
    ∀ a : Agent, step ((State.resetWith p).withAgent a) = .next (State.resetWith p)

/-- The invariant and the batch's content hold after reset, for all parameters the constraints of R8 allow. -/
def Obligations.ResetMeetsBatchInvariant : Prop :=
  (∀ p : Params, p.Ok → BatchInv (State.resetWith p)) ∧ BatchInv State.reset

/-! ### Selection, decoding, one step -/

/-- A step takes the first turn and runs the operation that the turn selects (30_encoding.md R88): a lane's operation
by its `pc`, a port request by its code, the others by their conditions; an agent with nothing selected passes. Where
no turn is listed, the free schedule's agent moves (log entry 1). -/
def Obligations.StepRunsSelectedOperation : Prop :=
  (∀ (s s' : State) (sel : Selection) (i : Instr), s.fetch = .selected sel s' → decode sel = .ok i → step s = exec i s') ∧
  (∀ (s : State) (l : Nat) (ln : Lane) (rest : List Turn), s.turns = .own (.lane l) :: rest → s.lane? l = some ln →
    (∀ i, decode (.state l ln.pc.code) = .ok i → step s = exec i { s with turns := rest }) ∧
    (ln.pc = .idle → step s = .next { s with turns := rest })) ∧
  (∀ (s : State) (l : Nat) (rest : List Turn), s.turns = .own (.dispatcher l) :: rest → l < s.cfg.p →
    step s = exec (.dispatch l) { s with turns := rest }) ∧
  (∀ (s : State) (ready : Bool) (rest : List Turn), s.turns = .own (.concatenator ready) :: rest →
    step s = if s.next = s.batchN then exec .bdone { s with turns := rest }
      else if ready then exec .drain { s with turns := rest } else .next { s with turns := rest }) ∧
  (∀ (s : State) (n : BitVec 3) (v : Nat) (rest : List Turn), s.turns = .csrw n v :: rest →
    step s = exec (.csrw n v) { s with turns := rest }) ∧
  (∀ (s : State) (n : BitVec 3) (rest : List Turn), s.turns = .csrr n :: rest →
    step s = exec (.csrr n) { s with turns := rest }) ∧
  (∀ (s : State) (i h : Nat) (rest : List Turn), s.turns = .flw i h :: rest →
    step s = exec (.flw i h) { s with turns := rest }) ∧
  (∀ (s : State) (op : BitVec 2) (rest : List Turn), s.turns = .cmd op :: rest →
    step s = exec (if op = 0b01#2 then .bstart else .nop) { s with turns := rest }) ∧
  (∀ s : State, s.turns = [] →
    step s = step { s with turns := [.own (Config.schedule s.free)], free := s.free + 1 })

/-- Codes written out from the spec's encodings (30_encoding.md R82, R74, R86, R87) decode to their operations. -/
def Obligations.SelectingCodesDecode : Prop :=
  decode (.state 3 0b0001#4) = .ok (.norm 3) ∧ decode (.state 0 0b0110#4) = .ok (.validate 0) ∧
  decode (.state 2 0b0111#4) = .ok (.collectDone 2) ∧ decode (.state 2 0b1000#4) = .ok (.collectRejected 2) ∧
  decode (.load 1 0b0000#4 5) = .ok (.load 1 5) ∧ decode (.bitIdx 0 0b11101#5) = .ok (.sampleBit 0 0b11101#5) ∧
  decode (.cmd 0b01#2) = .ok .bstart ∧ decode (.cmd 0b10#2) = .ok .nop ∧
  decode (.csrWrite 0b010#3 4) = .ok (.csrw 0b010#3 4) ∧ decode (.state 0 0b1001#4) = .error .reservedState

/-- The encoder's selection of every operation, with every operand, decodes to it; and what the decoder accepts, the
encoder writes back, but for the reserved commands, which act as NOP (R93): no code is read as a second spelling of
another. -/
def Obligations.DecodedSelectionReencodes : Prop :=
  (∀ i : Instr, decode (encode i) = .ok i) ∧
  ∀ (sel : Selection) (i : Instr), decode sel = .ok i →
    encode i = sel ∨ (i = .nop ∧ (sel = .cmd 0b10#2 ∨ sel = .cmd 0b11#2))

/-- 30_encoding.md R84: the 22-bit slot word holds its five fields in their places, and is read back. -/
def Obligations.SlotWordRoundTrip : Prop :=
  (∀ slot : Slot, slot.toWord.getLsbD 21 = slot.full ∧ slot.toWord.getLsbD 20 = slot.valid ∧
    slot.toWord.extractLsb' 16 4 = slot.cause.code ∧ slot.toWord.extractLsb' 8 8 = slot.byte1 ∧
    slot.toWord.extractLsb' 0 8 = slot.byte0 ∧ Slot.ofWord slot.toWord = some slot) ∧
  ∀ (word : BitVec 22) (slot : Slot), Slot.ofWord word = some slot → slot.toWord = word

/-- 30_encoding.md R92: no lane is ever in a reserved state, so a step refuses nothing, in any state. -/
def Obligations.StepNeverRefuses : Prop := ∀ (s : State) (r : Refusal), step s ≠ .refused r

/-! ### LOAD and COLLECT -/

/-- 45_frame_decoder.md R191, R192: LOAD of an idle lane, where the Row Sampler gives a row that fits. -/
def Obligations.LoadPlacesRow : Prop :=
  ∀ (s : State) (l i h : Nat) (ln : Lane) (row : List Sample),
    s.lane? l = some ln → ln.pc = .idle → s.fl.read? i = some h → s.readScanline h = .samples row →
    row.length ≤ s.cfg.wmax →
    ∃ t ln', exec (.load l i) s = .next t ∧ t.lane? l = some ln' ∧ OnlyLane l s t ∧
      ln'.fidx = .val i ∧ ln'.cause = .none ∧ ln'.valid = false ∧ ln'.w = .val row.length ∧ ln'.pc = .start ∧
      ln'.maxluma.value? = none ∧ ln'.startRunIn.value? = none ∧ ln'.stopRunIn.value? = none ∧
      ln'.runInLength.value? = none ∧ ln'.bitWidth.value? = none ∧ ln'.riseIdx.value? = none ∧
      ln'.bitStart.value? = none ∧ ln'.byte0.value? = none ∧ ln'.byte1.value? = none ∧ ln'.par.value? = none ∧
      (∀ j, j < row.length → ln'.sr.read? j = row[j]?) ∧
      (∀ j, row.length ≤ j → ln'.sr.read? j = ln.sr.read? j) ∧ (∀ j, ln'.br.read? j = ln.br.read? j)

/-- 45_frame_decoder.md R193, R192 and 10_state.md R34: LOAD where the Row Sampler fails or the row is longer than WMAX. -/
def Obligations.LoadWithoutRowRejects : Prop :=
  ∀ (s : State) (l i h : Nat) (ln : Lane),
    s.lane? l = some ln → ln.pc = .idle → s.fl.read? i = some h →
    (s.readScanline h = .fail ∨ ∃ row, s.readScanline h = .samples row ∧ s.cfg.wmax < row.length) →
    ∃ t ln', exec (.load l i) s = .next t ∧ t.lane? l = some ln' ∧
      OnlyLane l s { t with errIndex := s.errIndex, rowError := s.rowError } ∧ t.rowError = true ∧
      (s.rowError = false → t.errIndex = .val i) ∧
      (s.rowError = true → t.errIndex = .val (min s.errIndex.read i)) ∧
      ln'.fidx = .val i ∧ ln'.cause = .rowUnavailable ∧ ln'.byte0 = .val 0#8 ∧ ln'.byte1 = .val 0#8 ∧
      ln'.valid = false ∧ ln'.pc = .rejected ∧ ln'.w.value? = none ∧ ln'.maxluma.value? = none ∧
      ln'.startRunIn.value? = none ∧ ln'.stopRunIn.value? = none ∧ ln'.runInLength.value? = none ∧
      ln'.bitWidth.value? = none ∧ ln'.riseIdx.value? = none ∧ ln'.bitStart.value? = none ∧ ln'.par.value? = none ∧
      (∀ j, ln'.sr.read? j = ln.sr.read? j) ∧
      (∀ j, ln'.br.read? j = ln.br.read? j)

/-- 45_frame_decoder.md R196: COLLECT in either terminal state writes the whole slot of the lane's frame and makes the
lane idle; every other slot reads as before, and nothing else changes. -/
def Obligations.CollectStoresSlot : Prop :=
  ∀ (s : State) (l i : Nat) (ln : Lane) (b0 b1 : RByte) (op : Instr),
    s.lane? l = some ln → ln.fidx.read = i → ln.byte0.read = b0 → ln.byte1.read = b1 → i < s.cfg.nmax →
    (ln.pc = .done ∧ op = .collectDone l ∨ ln.pc = .rejected ∧ op = .collectRejected l) →
    ∃ t, exec op s = .next t ∧ t.lane? l = some { ln with pc := .idle } ∧ OnlyLane l s { t with rs := s.rs } ∧
      t.rs.read? i = some { full := true, valid := ln.valid, cause := ln.cause, byte1 := b1, byte0 := b0 } ∧
      ∀ j, j ≠ i → t.rs.read? j = s.rs.read? j

/-! ### The units of a lane -/

/-- 40_normalizer.md R101, R102, R106: NORM of a loaded row, blank or not. -/
def Obligations.NormClassifiesRow : Prop :=
  ∀ (s : State) (l : Nat) (ln : Lane) (row : List Sample),
    s.lane? l = some ln → ln.pc = .start → ln.sampleRowIs row →
    (peak row < 32 → exec (.norm l) s = .next (s.setLane l (rejectEntry .blankLine ln))) ∧
    (32 ≤ peak row → ∃ ln', exec (.norm l) s = .next (s.setLane l ln') ∧
      SameRegsExcept [.maxluma] ln ln' ∧ ln'.maxluma = .val (BitVec.ofNat 8 (peak row)) ∧ ln'.valid = ln.valid ∧
      ln'.pc = .normalized ∧ ln'.sr = ln.sr ∧
      (∀ j, j < row.length → ln'.br.read? j = (binarise (peak row) false row)[j]?) ∧
      (∀ j, row.length ≤ j → ln'.br.read? j = ln.br.read? j))

/-- 40_normalizer.md R102, R103, R104: the peak is the greatest sample (0 for an empty row), and the classified value of
each sample is that of its percentage of the peak, the band of 45 to 55 carrying the value before it, 0 at first. -/
def Obligations.BinaryRowFollowsHysteresis : Prop :=
  ∀ row : List Sample,
    (∀ s ∈ row, s.toNat ≤ peak row) ∧ (row = [] → peak row = 0) ∧ (row ≠ [] → ∃ s ∈ row, s.toNat = peak row) ∧
    ∀ (m j : Nat) (s : Sample), row[j]? = some s →
      (100 * s.toNat / m ≤ 44 → bitAt (binarise m false row) j = false) ∧
      (56 ≤ 100 * s.toNat / m → bitAt (binarise m false row) j = true) ∧
      (45 ≤ 100 * s.toNat / m → 100 * s.toNat / m ≤ 55 →
        bitAt (binarise m false row) j = if j = 0 then false else bitAt (binarise m false row) (j - 1))

/-- 40_normalizer.md R105, 30_encoding.md R91: the division-free form of the classification. -/
def Obligations.ClassificationNeedsNoDivision : Prop :=
  ∀ (m s : Nat) (prev : Bin), 0 < m →
    classify m s prev = if 100 * s < 45 * m then false else if 56 * m ≤ 100 * s then true else prev

/-- 40_normalizer.md R107 (c), (d): after a NORM that succeeds, BR holds a 1, and the first is the first sample that
reaches 56 hundredths of the peak. -/
def Obligations.NormalizedRowHoldsOne : Prop :=
  ∀ row : List Sample, 32 ≤ peak row →
    ∃ i, FirstOneAt (binarise (peak row) false row) 0 i ∧
      (∃ s, row[i]? = some s ∧ 56 * peak row ≤ 100 * s.toNat) ∧
      ∀ j s, j < i → row[j]? = some s → 100 * s.toNat < 56 * peak row

/-- 41_runin_locator.md R120, R122, R123, R125: LOCATE where the run-in is found in its place. -/
def Obligations.LocateFindsRunIn : Prop :=
  ∀ (s : State) (l : Nat) (ln : Lane) (bits : List Bin) (start stop : Nat),
    s.lane? l = some ln → ln.pc = .normalized → ln.binaryRow bits → FirstOneAt bits 0 start →
    20 * start ≤ bits.length → ThirteenthAt bits start stop →
    bits.length ≤ 5 * stop → 10 * stop ≤ 3 * bits.length →
    exec (.locate l) s =
      .next (s.setLane l { ln with startRunIn := .val start, stopRunIn := .val stop, pc := .runInFound })

/-- 41_runin_locator.md R126, 60_exceptions.md R241 rows 4 to 7: what LOCATE rejects, with which cause, in which order. -/
def Obligations.LocateRejectsInOrder : Prop :=
  ∀ (s : State) (l : Nat) (ln : Lane) (bits : List Bin),
    s.lane? l = some ln → ln.pc = .normalized → ln.binaryRow bits →
    ((∀ j, j < bits.length → bitAt bits j = false) →
      exec (.locate l) s = .next (s.setLane l (rejectEntry .runInNotFound ln))) ∧
    ∀ start, FirstOneAt bits 0 start →
      (bits.length < 20 * start → exec (.locate l) s = .next (s.setLane l (rejectEntry .runInOutOfRange ln))) ∧
      (20 * start ≤ bits.length → transitionsBetween bits start bits.length < 13 →
        exec (.locate l) s = .next (s.setLane l (rejectEntry .runInNotFound ln))) ∧
      (∀ stop, 20 * start ≤ bits.length → ThirteenthAt bits start stop →
        (5 * stop < bits.length ∨ 3 * bits.length < 10 * stop) →
        exec (.locate l) s = .next (s.setLane l (rejectEntry .runInOutOfRange ln)))

/-- 41_runin_locator.md R124, R127: what LOCATE guarantees when it succeeds, on any register contents. -/
def Obligations.LocatedRunInShape : Prop :=
  ∀ ln ln' : Lane, locateUnit ln = .ok ln' →
    ∃ start stop, ln'.startRunIn = .val start ∧ ln'.stopRunIn = .val stop ∧
      ln.br.read? start = some true ∧ ln.br.read? stop = some false ∧ start + 13 ≤ stop ∧ 44 ≤ ln.w.read

/-- 42_timing_calibrator.md R140, R143, R144, R145: CALIB with a rising edge at or after stopRunIn, and without. -/
def Obligations.CalibDerivesTiming : Prop :=
  ∀ (s : State) (l : Nat) (ln : Lane) (bits : List Bin) (start stop : Nat),
    s.lane? l = some ln → ln.pc = .runInFound → ln.w.read = bits.length → ln.startRunIn.read = start →
    ln.stopRunIn.read = stop → start ≤ stop →
    (∀ j, stop ≤ j → j < bits.length → ln.br.read? j = bits[j]?) →
    (∀ rise, FirstOneAt bits stop rise →
      exec (.calib l) s = .next (s.setLane l { ln with
        runInLength := .val (stop - start)
        bitWidth := .val ((38 * (stop - start) + 250) / 251)
        riseIdx := .val rise
        bitStart := .val (rise + (38 * (stop - start) + 250) / 251)
        pc := .calibrated })) ∧
    ((∀ j, stop ≤ j → j < bits.length → bitAt bits j = false) →
      exec (.calib l) s = .next (s.setLane l (rejectEntry .startEdgeNotFound ln)))

/-- 42_timing_calibrator.md R142, 00_scope.md R9, R10: the bit width is `ceil((L / 0.251) * 0.038)` over the rationals; its
bounds, when it is exact, and the rule's sample values. -/
def Obligations.BitWidthIsExactCeiling : Prop :=
  (∀ len : Nat, (bitWidthOf len : ℤ) = ⌈((len : ℚ) / (251 / 1000)) * (38 / 1000)⌉ ∧
    (len : ℚ) / (251 / 1000) = 1000 * len / 251 ∧ bitWidthOf len = (38 * len + 250) / 251 ∧
    (13 ≤ len → 2 ≤ bitWidthOf len) ∧ 38 * len ≤ 251 * bitWidthOf len ∧ 251 * bitWidthOf len < 38 * len + 251 ∧
    (251 * bitWidthOf len = 38 * len ↔ 251 ∣ len)) ∧
  [13, 14, 26, 27, 50, 91, 98, 100, 130, 180, 216, 251, 252, 502].map bitWidthOf =
    [2, 3, 4, 5, 8, 14, 15, 16, 20, 28, 33, 38, 39, 76]

/-- 43_bit_sampler.md R160, R161, R162: SAMPLEBIT reads the midpoint of its slot, and answers -1 outside the row; it
changes nothing but the value it returns (which the model holds in `sampleOut`, log entry 8). -/
def Obligations.SampleBitReadsMidpoint : Prop :=
  ∀ (s : State) (l : Nat) (ln : Lane) (bits : List Bin) (bs bw : Nat) (k : BitVec 5),
    s.lane? l = some ln → (ln.pc = .calibrated ∨ ln.pc = .sanityChecked) → ln.binaryRow bits →
    ln.bitStart.read = bs → ln.bitWidth.read = bw →
    (∀ o : Nat, o < bits.length → (o : Int) = bs + k.toInt * bw + bw / 2 →
      exec (.sampleBit l k) s = .next { s with sampleOut := if bitAt bits o then .one else .zero }) ∧
    ((bs + k.toInt * bw + bw / 2 < 0 ∨ (bits.length : Int) ≤ bs + k.toInt * bw + bw / 2) →
      exec (.sampleBit l k) s = .next { s with sampleOut := .outOfRange })

/-- 44_byte_assembler.md R171, R172, R173: SANITY by its three samples. -/
def Obligations.SanityRequiresPattern : Prop :=
  ∀ (s : State) (l : Nat) (ln : Lane) (bits : List Bin) (bs bw : Nat),
    s.lane? l = some ln → ln.pc = .calibrated → ln.binaryRow bits → ln.bitStart.read = bs → ln.bitWidth.read = bw →
    exec (.sanity l) s =
      if sampleRow bits bs bw (-3) = .outOfRange ∨ sampleRow bits bs bw (-2) = .outOfRange ∨
          sampleRow bits bs bw (-1) = .outOfRange then .next (s.setLane l (rejectEntry .outOfRange ln))
      else if sampleRow bits bs bw (-3) = .zero ∧ sampleRow bits bs bw (-2) = .zero ∧
          sampleRow bits bs bw (-1) = .one then .next (s.setLane l { ln with pc := .sanityChecked })
      else .next (s.setLane l (rejectEntry .sanityMismatch ln))

/-- 44_byte_assembler.md R175, R176, R177: ASSEMBLE by its sixteen samples; bit `j` of a byte is the sample at `base + j`,
bit 7 is 0, and the parity bits go to `par`. -/
def Obligations.AssembleBuildsBytes : Prop :=
  ∀ (s : State) (l : Nat) (ln : Lane) (bits : List Bin) (bs bw : Nat),
    s.lane? l = some ln → ln.pc = .sanityChecked → ln.binaryRow bits → ln.bitStart.read = bs → ln.bitWidth.read = bw →
    ((∃ k : Nat, k < 16 ∧ sampleRow bits bs bw k = .outOfRange) →
      exec (.assemble l) s = .next (s.setLane l (rejectEntry .outOfRange ln))) ∧
    ((∀ k : Nat, k < 16 → sampleRow bits bs bw k ≠ .outOfRange) →
      ∃ (b0 b1 : RByte) (par : BitVec 2),
        exec (.assemble l) s = .next (s.setLane l { ln with
          byte0 := .val b0, byte1 := .val b1, par := .val par, pc := .bytesAssembled }) ∧
        (∀ j : Nat, j < 7 → (b0.getLsbD j = true ↔ sampleRow bits bs bw j = .one) ∧
          (b1.getLsbD j = true ↔ sampleRow bits bs bw ((8 + j : Nat) : Int) = .one)) ∧
        b0.getLsbD 7 = false ∧ b1.getLsbD 7 = false ∧
        (par.getLsbD 0 = true ↔ sampleRow bits bs bw 7 = .one) ∧
        (par.getLsbD 1 = true ↔ sampleRow bits bs bw 15 = .one))

/-- 43_bit_sampler.md R166, 44_byte_assembler.md R177: some data read is out of range exactly when the read at 15 is. -/
def Obligations.DataOutOfRangeIffLast : Prop :=
  ∀ (bits : List Bin) (bs bw : Nat),
    (∃ k : Nat, k < 16 ∧ sampleRow bits bs bw k = .outOfRange) ↔ sampleRow bits bs bw 15 = .outOfRange

/-- 43_bit_sampler.md R165: on the decoder's path no offset of a legal Bit Index is below 1. -/
def Obligations.SampleOffsetsArePositive : Prop :=
  ∀ (p : Params) (ln : Lane) (bs bw : Nat) (k : Int),
    LaneRanges p ln → ln.bitStart.value? = some bs → ln.bitWidth.value? = some bw →
    -3 ≤ k → k ≤ 15 → 0 < (bs : Int) + k * bw + bw / 2

/-- 44_byte_assembler.md R179, R180: VALIDATE by the parity of both groups. -/
def Obligations.ValidateChecksParity : Prop :=
  ∀ (s : State) (l : Nat) (ln : Lane) (b0 b1 : RByte) (par : BitVec 2),
    s.lane? l = some ln → ln.pc = .bytesAssembled → ln.byte0.read = b0 → ln.byte1.read = b1 → ln.par.read = par →
    exec (.validate l) s =
      if (popcount b0 + (par.getLsbD 0).toNat) % 2 = 1 ∧ (popcount b1 + (par.getLsbD 1).toNat) % 2 = 1
      then .next (s.setLane l { ln with valid := true, pc := .done })
      else .next (s.setLane l (rejectEntry .parityMismatch ln))

/-- 44_byte_assembler.md R180: odd parity is the exclusive-or of the eight sampled bits of a group being 1. -/
def Obligations.OddParityIsExclusiveOr : Prop :=
  ∀ (byte : RByte) (parityBit : Bool), byte.getLsbD 7 = false →
    oddParity byte parityBit =
      (byte.getLsbD 0 ^^ byte.getLsbD 1 ^^ byte.getLsbD 2 ^^ byte.getLsbD 3 ^^ byte.getLsbD 4 ^^ byte.getLsbD 5 ^^
        byte.getLsbD 6 ^^ parityBit)

/-! ### The host's operations, the dispatcher and the concatenator -/

/-- 46_batch_array.md R210: FLW writes one element of the frame list while not busy, and is ignored otherwise. The
handle is what the port carries (log entry 19). -/
def Obligations.FlwWritesFrameList : Prop :=
  ∀ (s : State) (i h : Nat), h < 2 ^ s.cfg.hw →
    (s.busy = false → i < s.cfg.nmax → ∃ t, exec (.flw i h) s = .next t ∧ t = { s with fl := t.fl } ∧
      t.fl.read? i = some h ∧ ∀ j, j ≠ i → t.fl.read? j = s.fl.read? j) ∧
    (s.busy = true ∨ s.cfg.nmax ≤ i → exec (.flw i h) s = .next s)

/-- 46_batch_array.md R211, 10_state.md R32, R33: what CSRW stores, and when it is ignored. -/
def Obligations.CsrwWritesLegalValues : Prop :=
  ∀ (s : State) (v : Nat),
    (s.busy = false →
      exec (.csrw 0#3 v) s = .next { s with batchN := min v s.cfg.nmax } ∧
      exec (.csrw 1#3 v) s = .next { s with row := v % 2 ^ s.cfg.roww } ∧
      exec (.csrw 2#3 v) s = .next { s with parLimit := if 1 ≤ v ∧ v ≤ s.cfg.p then v else s.cfg.p }) ∧
    ∀ n : BitVec 3, (s.busy = true ∨ 3 ≤ n.toNat) → exec (.csrw n v) s = .next s

/-- 46_batch_array.md R212, 10_state.md R31, R35: what CSRR returns, of every register number; ERR_INDEX while
`row_error = 1`. -/
def Obligations.CsrrReturnsRegister : Prop :=
  ∀ s : State,
    exec (.csrr 0#3) s = .next { s with csrRdata := s.batchN } ∧
    exec (.csrr 1#3) s = .next { s with csrRdata := s.row } ∧
    exec (.csrr 2#3) s = .next { s with csrRdata := s.parLimit } ∧
    exec (.csrr 3#3) s =
      .next { s with csrRdata := s.busy.toNat + 2 * s.batchDone.toNat + 4 * s.rowError.toNat } ∧
    (∀ e, s.rowError = true → s.errIndex.read = e → exec (.csrr 4#3) s = .next { s with csrRdata := e }) ∧
    exec (.csrr 5#3) s = .next { s with csrRdata := s.next } ∧
    exec (.csrr 6#3) s = .next { s with csrRdata := s.disp } ∧
    exec (.csrr 7#3) s = .next { s with csrRdata := 0 }

/-- 46_batch_array.md R212, 93_implementation_defined.md U3: CSRR of ERR_INDEX while `row_error = 0` completes, with some
value of the register's width (a free value of the model, log entry 11) and no other effect but the counter of free values. -/
def Obligations.CsrrErrIndexUnspecified : Prop :=
  ∀ s : State, s.rowError = false →
    ∃ v, v < 2 ^ s.cfg.fw ∧ exec (.csrr 4#3) s = .next { s with csrRdata := v, free := s.free + 1 }

/-- 46_batch_array.md R213, 10_state.md R39: NOP changes nothing; BSTART of an idle block empties the store's full bits
and the stream, sets the counters to 0 and the flags, and leaves the lanes, the frame list and the control registers. That
a slot keeps its other fields, and an unwritten slot stays unwritten, is the model's choice (log entry 18). -/
def Obligations.BstartStartsBatch : Prop :=
  ∀ s : State, exec .nop s = .next s ∧
    (s.busy = false → ∃ t, exec .bstart s = .next t ∧
      t = { s with rs := t.rs, out := [], next := 0, disp := 0, rowError := false, batchDone := false, busy := true } ∧
      (∀ i, t.slotFull i = false) ∧
      ∀ i slot, t.rs.read? i = some slot ↔ ∃ old, s.rs.read? i = some old ∧ slot = { old with full := false })

/-- 46_batch_array.md R213, 70_reset_and_hazards.md R282: BSTART while busy waits at the port and nothing else happens;
the port presents it again when the block is not busy, and then it starts a batch. -/
def Obligations.WaitingBstartIsTaken : Prop :=
  (∀ s : State, s.busy = true → exec .bstart s = .next { s with cmdWaiting := s.cmdWaiting + 1 }) ∧
  (∀ s : State, s.busy = true → step (s.withAgent .commandPort) = .next s) ∧
  ∀ s : State, s.busy = false → 0 < s.cmdWaiting →
    step (s.withAgent .commandPort) = .next { s with cmdWaiting := s.cmdWaiting - 1 }.startBatch

/-- 46_batch_array.md R216: DISPATCH on an enabled block and an idle lane is LOAD of frame `disp` on that lane, `disp` one
further, in one step; it completes where LOAD does. -/
def Obligations.DispatchLoadsNextFrame : Prop :=
  ∀ (s : State) (l : Nat) (ln : Lane),
    s.lane? l = some ln → ln.pc = .idle → s.busy = true → s.disp < s.batchN → s.nonIdle < s.parLimit →
    exec (.dispatch l) s = exec (.load l s.disp) { s with disp := s.disp + 1 } ∧
    ∀ (h : Nat) (row : List Sample), s.fl.read? s.disp = some h → s.readScanline h = .samples row →
      row.length ≤ s.cfg.wmax →
      ∃ t ln', exec (.dispatch l) s = .next t ∧ t.disp = s.disp + 1 ∧ OnlyLane l s { t with disp := s.disp } ∧
        t.lane? l = some ln' ∧ ln'.pc = .start ∧ ln'.fidx = .val s.disp ∧ ln'.sampleRowIs row

/-- 46_batch_array.md R216, R220, R222: DISPATCH, DRAIN and BDONE where their conditions do not hold: they do not happen
(that nothing changes then is the model's choice, log entry 2). -/
def Obligations.BlockAgentsWaitUnlessEnabled : Prop :=
  ∀ s : State,
    (∀ (l : Nat) (ln : Lane), s.lane? l = some ln →
      (s.busy = false ∨ s.batchN ≤ s.disp ∨ s.parLimit ≤ s.nonIdle ∨ ln.pc ≠ .idle) → exec (.dispatch l) s = .next s) ∧
    (s.busy = false ∨ s.batchN ≤ s.next ∨ s.slotFull s.next = false → exec .drain s = .next s) ∧
    (s.busy = false ∨ s.next ≠ s.batchN → exec .bdone s = .next s)

/-- 46_batch_array.md R220, 10_state.md R44: DRAIN emits the two bytes of slot `next`, first byte0, with the slot's tag and
cause beside both, marks the first and the batch's last, and counts. -/
def Obligations.DrainEmitsSlot : Prop :=
  ∀ (s : State) (slot : Slot), s.busy = true → s.next < s.batchN → s.rs.read? s.next = some slot → slot.full = true →
    exec .drain s = .next { s with
      out := s.out ++
        [⟨slot.byte0, slot.valid, slot.cause, true, false⟩,
         ⟨slot.byte1, slot.valid, slot.cause, false, decide (s.next + 1 = s.batchN)⟩]
      next := s.next + 1 }

/-- 46_batch_array.md R222: BDONE writes the two flags and nothing else; `row_error` and ERR_INDEX stay. -/
def Obligations.BdoneEndsBatch : Prop :=
  ∀ s : State, s.busy = true → s.next = s.batchN → exec .bdone s = .next { s with busy := false, batchDone := true }

/-- 00_scope.md R14, 93_implementation_defined.md U1, U2, 70_reset_and_hazards.md R271: each operation faults where it reads a
memory element that holds NONE: NORM at any element of its row, LOCATE and CALIB at any element their scans come to, SAMPLEBIT
at its element, SANITY and ASSEMBLE at any of the elements they sample. A register that holds NONE is read as the bits it
holds, and the operation goes on (that it does not fault is the model's choice, log entry 4). -/
def Obligations.ReadOfNoneFaults : Prop :=
  ∀ (s : State) (l i : Nat) (ln : Lane), s.lane? l = some ln →
    (ln.pc = .idle → s.fl.read? i = none → exec (.load l i) s = .fault .readNoneFL) ∧
    (ln.pc = .idle → s.dispatchEnabled → s.fl.read? s.disp = none → exec (.dispatch l) s = .fault .readNoneFL) ∧
    (ln.pc = .start → (∃ j, j < ln.w.read ∧ ln.sr.read? j = none) → exec (.norm l) s = .fault .readNoneSR) ∧
    (∀ bits : List Bin, ln.pc = .normalized → bits.length < ln.w.read →
      (∀ j, j < bits.length → ln.br.read? j = bits[j]?) → ln.br.read? bits.length = none →
      ((∀ j, j < bits.length → bitAt bits j = false) ∨
        ∃ start, FirstOneAt bits 0 start ∧ 20 * start ≤ ln.w.read ∧ transitionsBetween bits start bits.length < 13) →
      exec (.locate l) s = .fault .readNoneBR) ∧
    (∀ j, ln.pc = .runInFound → ln.stopRunIn.read ≤ j → j < ln.w.read → ln.br.read? j = none →
      (∀ m, ln.stopRunIn.read ≤ m → m < j → ln.br.read? m = some false) →
      exec (.calib l) s = .fault .readNoneBR) ∧
    (∀ (o : Nat) (k : BitVec 5), o < ln.w.read → ln.br.read? o = none →
      (o : Int) = ln.bitStart.read + k.toInt * ln.bitWidth.read + ln.bitWidth.read / 2 →
      (ln.pc = .calibrated ∨ ln.pc = .sanityChecked → exec (.sampleBit l k) s = .fault .readNoneBR) ∧
      (ln.pc = .calibrated → -3 ≤ k.toInt → k.toInt ≤ -1 → exec (.sanity l) s = .fault .readNoneBR) ∧
      (ln.pc = .sanityChecked → 0 ≤ k.toInt → k.toInt ≤ 15 → exec (.assemble l) s = .fault .readNoneBR)) ∧
    (ln.w.read = 0 → ln.pc = .start → exec (.norm l) s = .next (s.setLane l (rejectEntry .blankLine ln))) ∧
    (ln.pc = .bytesAssembled → ∃ t, exec (.validate l) s = .next t) ∧
    (ln.fidx.read < s.cfg.nmax → (ln.pc = .done → ∃ t, exec (.collectDone l) s = .next t) ∧
      (ln.pc = .rejected → ∃ t, exec (.collectRejected l) s = .next t))

/-- 70_reset_and_hazards.md R270, R274: `rst` at any time gives the reset state (that of R46 to R48); what stands outside
the block stays: its parameters, the Row Sampler's answers, the turns to come, requests held at the command port (the last
is the model's choice, log entry 10). -/
def Obligations.RstAbandonsBatch : Prop :=
  ∀ (s : State) (rest : List Turn), s.turns = .rst :: rest →
    step s = .next { State.resetWith s.cfg with
      turns := rest, sampler := s.sampler, cmdWaiting := s.cmdWaiting, free := s.free }

/-! ### Enabling, rejection, frames -/

/-- 10_state.md R26, 30_encoding.md R88: a lane operation in a state that does not select it does not happen (that nothing
changes then is the model's choice, log entry 2). -/
def Obligations.OperationWaitsInOtherStates : Prop :=
  ∀ (s : State) (l i : Nat) (k : BitVec 5) (ln : Lane), s.lane? l = some ln →
    (ln.pc ≠ .idle → exec (.load l i) s = .next s) ∧ (ln.pc ≠ .start → exec (.norm l) s = .next s) ∧
    (ln.pc ≠ .normalized → exec (.locate l) s = .next s) ∧ (ln.pc ≠ .runInFound → exec (.calib l) s = .next s) ∧
    (ln.pc ≠ .calibrated → exec (.sanity l) s = .next s) ∧
    (ln.pc ≠ .sanityChecked → exec (.assemble l) s = .next s) ∧
    (ln.pc ≠ .bytesAssembled → exec (.validate l) s = .next s) ∧
    (ln.pc ≠ .done → exec (.collectDone l) s = .next s) ∧
    (ln.pc ≠ .rejected → exec (.collectRejected l) s = .next s) ∧
    (ln.pc ≠ .calibrated → ln.pc ≠ .sanityChecked → exec (.sampleBit l k) s = .next s)

/-- 60_exceptions.md R250, R251, R252: an operation of a lane that ends in `S_REJECTED` has done the reject entry's five
writes on that lane and nothing else, anywhere. -/
def Obligations.RejectionIsPrecise : Prop :=
  ∀ (s t : State) (l : Nat) (ln ln' : Lane) (op : Instr),
    op ∈ [Instr.norm l, .locate l, .calib l, .sanity l, .assemble l, .validate l] →
    exec op s = .next t → s.lane? l = some ln → t.lane? l = some ln' → ln.pc ≠ .rejected → ln'.pc = .rejected →
    OnlyLane l s t ∧ SameRegsExcept [.byte0, .byte1, .cause] ln ln' ∧ ln'.cause ≠ .none ∧
      ln'.cause ≠ .rowUnavailable ∧ ln'.byte0 = .val 0#8 ∧ ln'.byte1 = .val 0#8 ∧ ln'.valid = false ∧
      (∀ j, ln'.sr.read? j = ln.sr.read? j) ∧ (∀ j, ln'.br.read? j = ln.br.read? j)

/-- 60_exceptions.md R252, 20_memory.md R50, R59: the frame of the lane operations when they complete without a rejection:
the registers, the flag and the memories that each leaves, and that nothing outside its lane changes. -/
def Obligations.LaneOperationsFrame : Prop :=
  ∀ (s t : State) (l : Nat) (ln ln' : Lane) (op : Instr) (written : List RegName),
    (op, written) ∈ [(Instr.norm l, [RegName.maxluma]), (.locate l, [.startRunIn, .stopRunIn]),
      (.calib l, [.runInLength, .bitWidth, .riseIdx, .bitStart]), (.sanity l, []),
      (.assemble l, [.byte0, .byte1, .par]), (.validate l, []), (.collectDone l, []), (.collectRejected l, [])] →
    exec op s = .next t → s.lane? l = some ln → t.lane? l = some ln' → (ln.pc = .rejected ∨ ln'.pc ≠ .rejected) →
    SameRegsExcept written ln ln' ∧ (op ≠ .validate l → ln'.valid = ln.valid) ∧
      (∀ j, ln'.sr.read? j = ln.sr.read? j) ∧
      (∀ j, (op = .norm l → ln.w.read ≤ j) → ln'.br.read? j = ln.br.read? j) ∧
      OnlyLane l s { t with rs := s.rs } ∧
      ∀ i, (op = .collectDone l ∨ op = .collectRejected l → ln.fidx.read ≠ i) → t.rs.read? i = s.rs.read? i

/-- 20_memory.md R50, 10_state.md R30: the frame of the operations that are not a lane's: no lane changes, and each shared
cell changes only by the operations named for it. -/
def Obligations.BlockOperationsFrame : Prop :=
  ∀ (s t : State) (op : Instr),
    (∃ l k n v i h, op ∈ [Instr.sampleBit l k, .csrw n v, .csrr n, .flw i h, .nop, .bstart, .drain, .bdone]) →
    exec op s = .next t →
    t.lanes = s.lanes ∧ t.cfg = s.cfg ∧ t.sampler = s.sampler ∧ t.turns = s.turns ∧ t.errIndex = s.errIndex ∧
    (∀ a, (∀ h, op ≠ .flw a h) → t.fl.read? a = s.fl.read? a) ∧
    (op ≠ .bstart → ∀ i, t.rs.read? i = s.rs.read? i) ∧
    (op ≠ .bstart → op ≠ .drain → t.out = s.out ∧ t.next = s.next) ∧ (op ≠ .bstart → t.disp = s.disp) ∧
    (op ≠ .bstart → op ≠ .bdone → t.busy = s.busy ∧ t.batchDone = s.batchDone) ∧
    (op ≠ .bstart → t.rowError = s.rowError ∧ t.cmdWaiting = s.cmdWaiting) ∧
    ((∀ n v, op ≠ .csrw n v) → t.batchN = s.batchN ∧ t.row = s.row ∧ t.parLimit = s.parLimit) ∧
    ((∀ n, op ≠ .csrr n) → t.csrRdata = s.csrRdata ∧ t.free = s.free) ∧
    ((∀ l k, op ≠ .sampleBit l k) → t.sampleOut = s.sampleOut)

/-- 45_frame_decoder.md R191, R193, 46_batch_array.md R216: the frame of LOAD and DISPATCH: nothing but the chosen lane, the
row-error cells (which stay unless that lane is rejected) and, for DISPATCH, the counter `disp` changes. -/
def Obligations.LoadAndDispatchFrame : Prop :=
  ∀ (s t : State) (l i : Nat) (ln ln' : Lane) (op : Instr), (op = .load l i ∨ op = .dispatch l) → exec op s = .next t →
    s.lane? l = some ln → t.lane? l = some ln' →
    OnlyLane l s { t with errIndex := s.errIndex, rowError := s.rowError, disp := s.disp } ∧
    (ln'.pc ≠ .rejected ∨ ln.pc = .rejected → t.errIndex = s.errIndex ∧ t.rowError = s.rowError) ∧
    (op = .load l i → t.disp = s.disp) ∧ (∀ j, ln'.br.read? j = ln.br.read? j) ∧
    ∀ j, (∀ w, ln'.w.value? = some w → w ≤ j) → ln'.sr.read? j = ln.sr.read? j

/-- 10_state.md R26: a lane's `pc` changes only along the table, in any state, by any step but `rst`, and a rejection's
cause is one that the table allows there. -/
def Obligations.LaneStatesFollowTable : Prop :=
  ∀ (s t : State) (l : Nat) (ln ln' : Lane), step s = .next t → s.takeTurn.1 ≠ .rst →
    s.lane? l = some ln → t.lane? l = some ln' → ln'.pc ≠ ln.pc →
    (ln.pc, ln'.pc) ∈ [(LaneState.idle, LaneState.start), (.start, .normalized), (.normalized, .runInFound),
      (.runInFound, .calibrated), (.calibrated, .sanityChecked), (.sanityChecked, .bytesAssembled),
      (.bytesAssembled, .done), (.done, .idle), (.rejected, .idle)] ∨
    (ln'.pc = .rejected ∧ (ln.pc, ln'.cause) ∈ [(LaneState.idle, Cause.rowUnavailable), (.start, .blankLine),
      (.normalized, .runInNotFound), (.normalized, .runInOutOfRange), (.runInFound, .startEdgeNotFound),
      (.calibrated, .outOfRange), (.calibrated, .sanityMismatch), (.sanityChecked, .outOfRange),
      (.bytesAssembled, .parityMismatch)])

/-- 10_state.md R27: in a terminal state the Decode Result of the lane stays, whatever step is taken but `rst`. -/
def Obligations.TerminalResultStays : Prop :=
  ∀ (s t : State) (l : Nat) (ln : Lane), step s = .next t → s.takeTurn.1 ≠ .rst → s.lane? l = some ln →
    (ln.pc = .done ∨ ln.pc = .rejected) →
    ∃ ln', t.lane? l = some ln' ∧ ln'.byte0 = ln.byte0 ∧ ln'.byte1 = ln.byte1 ∧ ln'.valid = ln.valid ∧
      ln'.cause = ln.cause

/-- 20_memory.md R60 (a), 70_reset_and_hazards.md R281: while busy, no step but `rst` changes the inputs of the batch. -/
def Obligations.InputsFrozenWhileBusy : Prop :=
  ∀ s t : State, step s = .next t → s.takeTurn.1 ≠ .rst → s.busy = true →
    t.fl = s.fl ∧ t.batchN = s.batchN ∧ t.row = s.row ∧ t.parLimit = s.parLimit ∧ t.cfg = s.cfg ∧ t.sampler = s.sampler

/-! ### One lane computes decodeFrame -/

/-- 45_frame_decoder.md R194: a lane's turn performs the unit its `pc` selects, on that lane alone. -/
def Obligations.LaneTurnAdvancesLane : Prop :=
  ∀ (s : State) (l : Nat) (ln ln' : Lane), s.lane? l = some ln → ln.advance = some ln' →
    ln.pc ≠ .done → ln.pc ≠ .rejected → step (s.withAgent (.lane l)) = .next (s.setLane l ln')

/-- 45_frame_decoder.md R194, R195, R197: from a loaded row, at most six operations bring the lane to a terminal state, and
the four values it then holds are `decodeFrame` of the row. -/
def Obligations.LaneComputesDecodeFrame : Prop :=
  ∀ (ln : Lane) (row : List Sample), ln.pc = .start → ln.cause = .none → ln.sampleRowIs row →
    ∃ ln', ln.finish = some ln' ∧ ln'.hasResult (decodeFrame row) ∧
      ((ln'.pc = .done ∧ ln'.valid = true) ∨ (ln'.pc = .rejected ∧ ln'.valid = false))

/-- 45_frame_decoder.md R198 (d), 20_memory.md R64: what a lane decodes does not depend on what it held before, or on the
frame's index. -/
def Obligations.LaneHistoryIsIrrelevant : Prop :=
  ∀ (p : Params) (ln1 ln2 : Lane) (i j : Nat) (row : List Sample), ∃ a b r,
    (ln1.loaded p i row).finish = some a ∧ (ln2.loaded p j row).finish = some b ∧ a.hasResult r ∧ b.hasResult r

/-- 45_frame_decoder.md R198 (b), (c): the shape of a Decode Result, and that of a row whose peak is below 32. -/
def Obligations.DecodeFrameResultShape : Prop :=
  ∀ row : List Sample,
    ((decodeFrame row).valid = false →
      (decodeFrame row).byte0 = 0#8 ∧ (decodeFrame row).byte1 = 0#8 ∧ (decodeFrame row).cause ≠ .none ∧
      (decodeFrame row).cause ≠ .rowUnavailable) ∧
    ((decodeFrame row).valid = true →
      (decodeFrame row).cause = .none ∧ (decodeFrame row).byte0.toNat ≤ 127 ∧ (decodeFrame row).byte1.toNat ≤ 127) ∧
    (peak row < 32 → decodeFrame row = ⟨0#8, 0#8, false, .blankLine⟩)

/-- 45_frame_decoder.md R199: exactly which rows decode to given bytes. -/
def Obligations.DecodedRowsCharacterised : Prop :=
  ∀ (row : List Sample) (b0 b1 : RByte), b0.toNat ≤ 127 → b1.toNat ≤ 127 →
    let br := binarise (peak row) false row
    let w := row.length
    decodeFrame row = ⟨b0, b1, true, .none⟩ ↔
      32 ≤ peak row ∧ ∃ s t r, FirstOneAt br 0 s ∧ 20 * s ≤ w ∧ ThirteenthAt br s t ∧ w ≤ 5 * t ∧ 10 * t ≤ 3 * w ∧
        FirstOneAt br t r ∧
        let b := (38 * (t - s) + 250) / 251
        let h := b / 2
        r + 16 * b + h < w ∧ bitAt br (r + h - 2 * b) = false ∧ bitAt br (r + h - b) = false ∧
        bitAt br (r + h) = true ∧
        (∀ j, j < 7 → bitAt br (r + (j + 1) * b + h) = b0.getLsbD j ∧ bitAt br (r + (j + 9) * b + h) = b1.getLsbD j) ∧
        bitAt br (r + 8 * b + h) = decide (popcount b0 % 2 = 0) ∧
        bitAt br (r + 16 * b + h) = decide (popcount b1 % 2 = 0)

/-! ### The whole machine -/

/-- The invariant: every register in its range (10_state.md R20, R21), every lane holding what its operation reads (R23), the
flags (R29), the memories canonical, and each frame of the batch held once (46_batch_array.md R217, R218): every step keeps
it, from every state. -/
def Obligations.EveryStepKeepsInvariant : Prop := ∀ s t : State, Inv s → step s = .next t → Inv t

/-- 46_batch_array.md R225, as an invariant that every step keeps: whatever agent moves, the lanes, the slots, the stream and
the row-error cells are those of the frames' Decode Results, in input order. -/
def Obligations.EveryStepKeepsBatchContent : Prop := ∀ s t : State, BatchInv s → step s = .next t → BatchInv t

/-- 46_batch_array.md R221, R222, R225: when BDONE is enabled, every frame's two bytes stand in the stream in input order,
every lane is idle, and the row-error cells name the least frame without a row, if there is one. -/
def Obligations.FinishedBatchStream : Prop :=
  ∀ s : State, BatchInv s → s.busy = true → s.next = s.batchN →
    s.out = s.expectedStream s.batchN ∧ s.out.length = 2 * s.batchN ∧
    (∀ i, i < s.batchN → ∃ r, s.frameResult i = some r ∧ s.rs.read? i = some r.slot) ∧
    (∀ l ln, s.lane? l = some ln → ln.pc = .idle) ∧ s.disp = s.batchN ∧
    (s.rowError = true ↔ ∃ i, i < s.batchN ∧ s.frameUnavailable i = true) ∧
    (s.rowError = true → ∃ e, s.errIndex.value? = some e ∧ s.frameUnavailable e = true ∧
      ∀ i, i < s.batchN → s.frameUnavailable i = true → e ≤ i)

/-- 10_state.md R23, 20_memory.md R56, 93_implementation_defined.md U1, U2: in the invariant, no step faults but a LOAD of a
frame whose handle the host never wrote: no other rule reads a memory element that holds NONE. -/
def Obligations.OnlyUnwrittenHandleFaults : Prop :=
  ∀ (s : State) (f : Fault), Inv s → step s = .fault f →
    f = .readNoneFL ∧ s.busy = true ∧ s.disp < s.batchN ∧ s.fl.read? s.disp = none

/-- 46_batch_array.md R226: while a batch runs whose handles are written, some agent of the block has a step that brings the
batch nearer to its end: there is no deadlock. The agent may be the concatenator at a turn with `out_ready = 1`, which is
R226's proviso that the host accepts (log entry 15). -/
def Obligations.SomeAgentAlwaysProgresses : Prop :=
  ∀ s : State, Inv s → s.busy = true → (∀ i, i < s.batchN → ∃ h, s.fl.read? i = some h) →
    ∃ a t, step (s.withAgent a) = .next t ∧ t.work < s.work

/-- 20_memory.md R59: the operations of two lanes commute. -/
def Obligations.OperationsOfTwoLanesCommute : Prop :=
  ∀ (s a b : State) (l m : Nat) (op op' : Instr), l ≠ m →
    op ∈ [Instr.norm l, .locate l, .calib l, .sanity l, .assemble l, .validate l] →
    op' ∈ [Instr.norm m, .locate m, .calib m, .sanity m, .assemble m, .validate m] →
    exec op s = .next a → exec op' a = .next b → ∃ c, exec op' s = .next c ∧ exec op c = .next b

/-- 60_exceptions.md R246, 20_memory.md R60 (e): two LOADs of different lanes commute, the row-error merge included. -/
def Obligations.LoadsOfTwoLanesCommute : Prop :=
  ∀ (s a b : State) (l m i j : Nat), l ≠ m →
    exec (.load l i) s = .next a → exec (.load m j) a = .next b →
    ∃ c, exec (.load m j) s = .next c ∧ exec (.load l i) c = .next b

/-- 46_batch_array.md R216, R228, 45_frame_decoder.md R191: in any state, by any step but `rst`, a lane starts only by the
dispatcher's turn that chose it, in an enabled DISPATCH, which counts the frame; and a lane stops only by its own COLLECT,
which fills its frame's slot. -/
def Obligations.LanesStartOnlyByDispatch : Prop :=
  ∀ (s t : State) (l : Nat) (ln ln' : Lane), step s = .next t → s.takeTurn.1 ≠ .rst →
    s.lane? l = some ln → t.lane? l = some ln' →
    (ln.pc = .idle → ln'.pc ≠ .idle →
      s.takeTurn.1 = .own (.dispatcher l) ∧ s.busy = true ∧ s.disp < s.batchN ∧ s.nonIdle < s.parLimit ∧
        ln'.fidx = .val s.disp ∧ t.disp = s.disp + 1) ∧
    (ln.pc ≠ .idle → ln'.pc = .idle →
      s.takeTurn.1 = .own (.lane l) ∧ (ln.pc = .done ∨ ln.pc = .rejected) ∧
        t.slotFull ln.fidx.read = true)
end

