-- ==== Sys2Proof/Laws/State.lean ====
section
/-! SUPPORT. One lemma per field per named update of State and Lane, true by rfl, and lane lookup. -/

namespace Sys2Proof.Machine

/-! ### Registers -/

section Reg
variable {α : Type} (a : α)

@[simp] theorem Reg.read_val : (Reg.val a).read = a := rfl
@[simp] theorem Reg.read_none : (Reg.none a).read = a := rfl
@[simp] theorem Reg.value?_val : (Reg.val a).value? = some a := rfl
@[simp] theorem Reg.value?_none : (Reg.none a).value? = Option.none := rfl
@[simp] theorem Reg.value?_unspecified (width pattern : Nat) : (Reg.unspecified width pattern).value? = Option.none := rfl
@[simp] theorem Reg.value?_unspecifiedBits (width pattern : Nat) :
    (Reg.unspecifiedBits width pattern).value? = Option.none := rfl

/-- A register that holds a value reads as it. -/
theorem Reg.read_of_value? {r : Reg α} {a : α} (h : r.value? = some a) : r.read = a := by
  cases r with
  | none held => cases h
  | val b => injection h

end Reg

section SetLane
variable (s : State) (l : Nat) (ln : Lane)

@[simp] theorem State.setLane_lanes : (s.setLane l ln).lanes = s.lanes.set l ln := rfl
@[simp] theorem State.setLane_cfg : (s.setLane l ln).cfg = s.cfg := rfl
@[simp] theorem State.setLane_fl : (s.setLane l ln).fl = s.fl := rfl
@[simp] theorem State.setLane_rs : (s.setLane l ln).rs = s.rs := rfl
@[simp] theorem State.setLane_out : (s.setLane l ln).out = s.out := rfl
@[simp] theorem State.setLane_batchN : (s.setLane l ln).batchN = s.batchN := rfl
@[simp] theorem State.setLane_row : (s.setLane l ln).row = s.row := rfl
@[simp] theorem State.setLane_parLimit : (s.setLane l ln).parLimit = s.parLimit := rfl
@[simp] theorem State.setLane_busy : (s.setLane l ln).busy = s.busy := rfl
@[simp] theorem State.setLane_batchDone : (s.setLane l ln).batchDone = s.batchDone := rfl
@[simp] theorem State.setLane_rowError : (s.setLane l ln).rowError = s.rowError := rfl
@[simp] theorem State.setLane_errIndex : (s.setLane l ln).errIndex = s.errIndex := rfl
@[simp] theorem State.setLane_next : (s.setLane l ln).next = s.next := rfl
@[simp] theorem State.setLane_disp : (s.setLane l ln).disp = s.disp := rfl
@[simp] theorem State.setLane_csrRdata : (s.setLane l ln).csrRdata = s.csrRdata := rfl
@[simp] theorem State.setLane_sampleOut : (s.setLane l ln).sampleOut = s.sampleOut := rfl
@[simp] theorem State.setLane_cmdWaiting : (s.setLane l ln).cmdWaiting = s.cmdWaiting := rfl
@[simp] theorem State.setLane_turns : (s.setLane l ln).turns = s.turns := rfl
@[simp] theorem State.setLane_sampler : (s.setLane l ln).sampler = s.sampler := rfl
@[simp] theorem State.setLane_free : (s.setLane l ln).free = s.free := rfl

end SetLane

section StartBatch
variable (s : State)

@[simp] theorem State.startBatch_cfg : s.startBatch.cfg = s.cfg := rfl
@[simp] theorem State.startBatch_lanes : s.startBatch.lanes = s.lanes := rfl
@[simp] theorem State.startBatch_fl : s.startBatch.fl = s.fl := rfl
@[simp] theorem State.startBatch_rs : s.startBatch.rs = s.rs.clearFull := rfl
@[simp] theorem State.startBatch_out : s.startBatch.out = [] := rfl
@[simp] theorem State.startBatch_batchN : s.startBatch.batchN = s.batchN := rfl
@[simp] theorem State.startBatch_row : s.startBatch.row = s.row := rfl
@[simp] theorem State.startBatch_parLimit : s.startBatch.parLimit = s.parLimit := rfl
@[simp] theorem State.startBatch_busy : s.startBatch.busy = true := rfl
@[simp] theorem State.startBatch_batchDone : s.startBatch.batchDone = false := rfl
@[simp] theorem State.startBatch_rowError : s.startBatch.rowError = false := rfl
@[simp] theorem State.startBatch_errIndex : s.startBatch.errIndex = s.errIndex := rfl
@[simp] theorem State.startBatch_next : s.startBatch.next = 0 := rfl
@[simp] theorem State.startBatch_disp : s.startBatch.disp = 0 := rfl
@[simp] theorem State.startBatch_turns : s.startBatch.turns = s.turns := rfl
@[simp] theorem State.startBatch_sampler : s.startBatch.sampler = s.sampler := rfl

@[simp] theorem State.finishBatch_cfg : s.finishBatch.cfg = s.cfg := rfl
@[simp] theorem State.finishBatch_lanes : s.finishBatch.lanes = s.lanes := rfl
@[simp] theorem State.finishBatch_fl : s.finishBatch.fl = s.fl := rfl
@[simp] theorem State.finishBatch_rs : s.finishBatch.rs = s.rs := rfl
@[simp] theorem State.finishBatch_out : s.finishBatch.out = s.out := rfl
@[simp] theorem State.finishBatch_batchN : s.finishBatch.batchN = s.batchN := rfl
@[simp] theorem State.finishBatch_row : s.finishBatch.row = s.row := rfl
@[simp] theorem State.finishBatch_parLimit : s.finishBatch.parLimit = s.parLimit := rfl
@[simp] theorem State.finishBatch_sampler : s.finishBatch.sampler = s.sampler := rfl
@[simp] theorem State.finishBatch_busy : s.finishBatch.busy = false := rfl
@[simp] theorem State.finishBatch_batchDone : s.finishBatch.batchDone = true := rfl
@[simp] theorem State.finishBatch_rowError : s.finishBatch.rowError = s.rowError := rfl
@[simp] theorem State.finishBatch_errIndex : s.finishBatch.errIndex = s.errIndex := rfl
@[simp] theorem State.finishBatch_next : s.finishBatch.next = s.next := rfl
@[simp] theorem State.finishBatch_disp : s.finishBatch.disp = s.disp := rfl
@[simp] theorem State.finishBatch_turns : s.finishBatch.turns = s.turns := rfl

@[simp] theorem State.afterRst_cfg : s.afterRst.cfg = s.cfg := rfl
@[simp] theorem State.afterRst_lanes : s.afterRst.lanes = List.replicate s.cfg.p (Lane.reset s.cfg) := rfl
@[simp] theorem State.afterRst_fl : s.afterRst.fl = Memory.empty := rfl
@[simp] theorem State.afterRst_rs : s.afterRst.rs = Memory.empty := rfl
@[simp] theorem State.afterRst_out : s.afterRst.out = [] := rfl
@[simp] theorem State.afterRst_busy : s.afterRst.busy = false := rfl
@[simp] theorem State.afterRst_turns : s.afterRst.turns = s.turns := rfl
@[simp] theorem State.afterRst_sampler : s.afterRst.sampler = s.sampler := rfl
@[simp] theorem State.afterRst_cmdWaiting : s.afterRst.cmdWaiting = s.cmdWaiting := rfl

end StartBatch

section RejectEntry
variable (c : Cause) (ln : Lane)

@[simp] theorem rejectEntry_cause : (rejectEntry c ln).cause = c := rfl
@[simp] theorem rejectEntry_byte0 : (rejectEntry c ln).byte0 = .val 0#8 := rfl
@[simp] theorem rejectEntry_byte1 : (rejectEntry c ln).byte1 = .val 0#8 := rfl
@[simp] theorem rejectEntry_valid : (rejectEntry c ln).valid = false := rfl
@[simp] theorem rejectEntry_pc : (rejectEntry c ln).pc = .rejected := rfl
@[simp] theorem rejectEntry_w : (rejectEntry c ln).w = ln.w := rfl
@[simp] theorem rejectEntry_fidx : (rejectEntry c ln).fidx = ln.fidx := rfl
@[simp] theorem rejectEntry_maxluma : (rejectEntry c ln).maxluma = ln.maxluma := rfl
@[simp] theorem rejectEntry_startRunIn : (rejectEntry c ln).startRunIn = ln.startRunIn := rfl
@[simp] theorem rejectEntry_stopRunIn : (rejectEntry c ln).stopRunIn = ln.stopRunIn := rfl
@[simp] theorem rejectEntry_runInLength : (rejectEntry c ln).runInLength = ln.runInLength := rfl
@[simp] theorem rejectEntry_bitWidth : (rejectEntry c ln).bitWidth = ln.bitWidth := rfl
@[simp] theorem rejectEntry_riseIdx : (rejectEntry c ln).riseIdx = ln.riseIdx := rfl
@[simp] theorem rejectEntry_bitStart : (rejectEntry c ln).bitStart = ln.bitStart := rfl
@[simp] theorem rejectEntry_par : (rejectEntry c ln).par = ln.par := rfl
@[simp] theorem rejectEntry_sr : (rejectEntry c ln).sr = ln.sr := rfl
@[simp] theorem rejectEntry_br : (rejectEntry c ln).br = ln.br := rfl

end RejectEntry

section Loaded
variable (p : Params) (ln : Lane) (i : Nat) (row : List Sample)

@[simp] theorem Lane.loaded_w : (ln.loaded p i row).w = .val row.length := rfl
@[simp] theorem Lane.loaded_fidx : (ln.loaded p i row).fidx = .val i := rfl
@[simp] theorem Lane.loaded_pc : (ln.loaded p i row).pc = .start := rfl
@[simp] theorem Lane.loaded_cause : (ln.loaded p i row).cause = .none := rfl
@[simp] theorem Lane.loaded_valid : (ln.loaded p i row).valid = false := rfl
@[simp] theorem Lane.loaded_sr : (ln.loaded p i row).sr = ln.sr.writePrefix row := rfl
@[simp] theorem Lane.loaded_br : (ln.loaded p i row).br = ln.br := rfl
@[simp] theorem Lane.unavailable_fidx : (ln.unavailable p i).fidx = .val i := rfl
@[simp] theorem Lane.unavailable_pc : (ln.unavailable p i).pc = .rejected := rfl
@[simp] theorem Lane.unavailable_cause : (ln.unavailable p i).cause = .rowUnavailable := rfl
@[simp] theorem Lane.unavailable_valid : (ln.unavailable p i).valid = false := rfl
@[simp] theorem Lane.unavailable_byte0 : (ln.unavailable p i).byte0 = .val 0#8 := rfl
@[simp] theorem Lane.unavailable_byte1 : (ln.unavailable p i).byte1 = .val 0#8 := rfl
@[simp] theorem Lane.unavailable_sr : (ln.unavailable p i).sr = ln.sr := rfl
@[simp] theorem Lane.unavailable_br : (ln.unavailable p i).br = ln.br := rfl
@[simp] theorem Lane.loaded_maxluma : (ln.loaded p i row).maxluma.value? = none := rfl
@[simp] theorem Lane.loaded_startRunIn : (ln.loaded p i row).startRunIn.value? = none := rfl
@[simp] theorem Lane.loaded_stopRunIn : (ln.loaded p i row).stopRunIn.value? = none := rfl
@[simp] theorem Lane.loaded_runInLength : (ln.loaded p i row).runInLength.value? = none := rfl
@[simp] theorem Lane.loaded_bitWidth : (ln.loaded p i row).bitWidth.value? = none := rfl
@[simp] theorem Lane.loaded_riseIdx : (ln.loaded p i row).riseIdx.value? = none := rfl
@[simp] theorem Lane.loaded_bitStart : (ln.loaded p i row).bitStart.value? = none := rfl
@[simp] theorem Lane.loaded_byte0 : (ln.loaded p i row).byte0.value? = none := rfl
@[simp] theorem Lane.loaded_byte1 : (ln.loaded p i row).byte1.value? = none := rfl
@[simp] theorem Lane.loaded_par : (ln.loaded p i row).par.value? = none := rfl
@[simp] theorem Lane.unavailable_w : (ln.unavailable p i).w.value? = none := rfl
@[simp] theorem Lane.unavailable_maxluma : (ln.unavailable p i).maxluma.value? = none := rfl
@[simp] theorem Lane.unavailable_startRunIn : (ln.unavailable p i).startRunIn.value? = none := rfl
@[simp] theorem Lane.unavailable_stopRunIn : (ln.unavailable p i).stopRunIn.value? = none := rfl
@[simp] theorem Lane.unavailable_runInLength : (ln.unavailable p i).runInLength.value? = none := rfl
@[simp] theorem Lane.unavailable_bitWidth : (ln.unavailable p i).bitWidth.value? = none := rfl
@[simp] theorem Lane.unavailable_riseIdx : (ln.unavailable p i).riseIdx.value? = none := rfl
@[simp] theorem Lane.unavailable_bitStart : (ln.unavailable p i).bitStart.value? = none := rfl
@[simp] theorem Lane.unavailable_par : (ln.unavailable p i).par.value? = none := rfl

end Loaded

section Reset
variable (p : Params)

@[simp] theorem Lane.reset_w : (Lane.reset p).w.value? = none := rfl
@[simp] theorem Lane.reset_fidx : (Lane.reset p).fidx.value? = none := rfl
@[simp] theorem Lane.reset_maxluma : (Lane.reset p).maxluma.value? = none := rfl
@[simp] theorem Lane.reset_startRunIn : (Lane.reset p).startRunIn.value? = none := rfl
@[simp] theorem Lane.reset_stopRunIn : (Lane.reset p).stopRunIn.value? = none := rfl
@[simp] theorem Lane.reset_runInLength : (Lane.reset p).runInLength.value? = none := rfl
@[simp] theorem Lane.reset_bitWidth : (Lane.reset p).bitWidth.value? = none := rfl
@[simp] theorem Lane.reset_riseIdx : (Lane.reset p).riseIdx.value? = none := rfl
@[simp] theorem Lane.reset_bitStart : (Lane.reset p).bitStart.value? = none := rfl
@[simp] theorem Lane.reset_byte0 : (Lane.reset p).byte0.value? = none := rfl
@[simp] theorem Lane.reset_byte1 : (Lane.reset p).byte1.value? = none := rfl
@[simp] theorem Lane.reset_par : (Lane.reset p).par.value? = none := rfl
@[simp] theorem Lane.reset_pc : (Lane.reset p).pc = .idle := rfl
@[simp] theorem Lane.reset_cause : (Lane.reset p).cause = .none := rfl
@[simp] theorem Lane.reset_valid : (Lane.reset p).valid = false := rfl
@[simp] theorem Lane.reset_sr : (Lane.reset p).sr = Memory.empty := rfl
@[simp] theorem Lane.reset_br : (Lane.reset p).br = Memory.empty := rfl

end Reset

/-! ### Lane lookup -/

theorem State.lane?_lt {s : State} {l : Nat} {ln : Lane} (h : s.lane? l = some ln) : l < s.lanes.length :=
  (List.getElem?_eq_some_iff.mp h).1

theorem State.lane?_setLane_self {s : State} {l : Nat} (h : l < s.lanes.length) (ln : Lane) :
    (s.setLane l ln).lane? l = some ln := by
  simp [State.lane?, h]

theorem State.lane?_setLane_ne (s : State) {l m : Nat} (h : m ≠ l) (ln : Lane) :
    (s.setLane l ln).lane? m = s.lane? m := by
  simp [State.lane?, Ne.symm h]

/-- Reading a lane after one was replaced: the new lane there, the old one elsewhere. -/
theorem State.lane?_setLane {s : State} {l : Nat} {old : Lane} (h : s.lane? l = some old) (ln : Lane) (m : Nat) :
    (s.setLane l ln).lane? m = if m = l then some ln else s.lane? m := by
  by_cases hm : m = l
  · subst hm; simp [State.lane?_setLane_self (State.lane?_lt h)]
  · simp [hm, State.lane?_setLane_ne s hm]

/-- Replacing a lane by itself changes nothing. -/
theorem State.setLane_same {s : State} {l : Nat} {ln : Lane} (h : s.lane? l = some ln) : s.setLane l ln = s := by
  obtain ⟨hl, rfl⟩ := List.getElem?_eq_some_iff.mp h
  simp [State.setLane]

theorem OnlyLane.of_setLane (s : State) (l : Nat) (ln : Lane) : OnlyLane l s (s.setLane l ln) :=
  ⟨rfl, by simp, fun _ h => State.lane?_setLane_ne s h ln⟩

end Sys2Proof.Machine
end

