-- ==== Sys2Proof/Laws/Memory.lean ====
section
/-! SUPPORT. The memories: a read after a write, and every memory operation keeps the canonical form. -/

namespace Sys2Proof.Machine

variable {α : Type}

theorem lookupCell_insertCell (i j : Nat) (a : α) (cells : List (Nat × α)) :
    lookupCell j (insertCell i a cells) = if j = i then some a else lookupCell j cells := by
  induction cells with
  | nil => by_cases h : j = i <;> simp [insertCell, lookupCell, h]
  | cons c rest ih =>
    obtain ⟨k, b⟩ := c
    by_cases h1 : i < k
    · by_cases h : j = i <;> simp [insertCell, lookupCell, h1, h]
    · by_cases h2 : i = k
      · subst h2; by_cases h : j = i <;> simp [insertCell, lookupCell, h]
      · by_cases h3 : j = k
        · have : j ≠ i := by omega
          simp [insertCell, lookupCell, h1, h2, h3, Ne.symm h2]
        · simp [insertCell, lookupCell, h1, h2, h3, ih]

/-- A read after a write: the written element at its index, the old one elsewhere. -/
theorem Memory.read?_write (m : Memory α) (i j : Nat) (a : α) :
    (m.write i a).read? j = if j = i then some a else m.read? j := lookupCell_insertCell i j a m.cells

@[simp] theorem Memory.read?_empty (i : Nat) : (Memory.empty : Memory α).read? i = none := rfl

theorem lookupCell_cellsFrom_append (as : List α) (i j : Nat) (cells : List (Nat × α)) :
    lookupCell j (cellsFrom i as ++ cells) =
      if i ≤ j ∧ j < i + as.length then as[j - i]? else lookupCell j cells := by
  induction as generalizing i with
  | nil => have : ¬(i ≤ j ∧ j < i) := by omega
           simp [cellsFrom, this]
  | cons a rest ih =>
    by_cases h : j = i
    · subst h; simp [cellsFrom, lookupCell]
    · simp only [cellsFrom, List.cons_append, lookupCell, if_neg h, ih (i + 1), List.length_cons]
      by_cases h2 : i + 1 ≤ j ∧ j < i + 1 + rest.length
      · have h3 : i ≤ j ∧ j < i + (rest.length + 1) := by omega
        have h4 : j - i = (j - (i + 1)) + 1 := by omega
        rw [if_pos h2, if_pos h3, h4]
        simp
      · have h3 : ¬(i ≤ j ∧ j < i + (rest.length + 1)) := by omega
        rw [if_neg h2, if_neg h3]

theorem lookupCell_filter_ge (n j : Nat) (cells : List (Nat × α)) (h : n ≤ j) :
    lookupCell j (cells.filter (fun c => decide (n ≤ c.1))) = lookupCell j cells := by
  induction cells with
  | nil => rfl
  | cons c rest ih =>
    obtain ⟨k, b⟩ := c
    by_cases hk : n ≤ k
    · simp [hk, lookupCell, ih]
    · have : j ≠ k := by omega
      simp [hk, lookupCell, ih, this]

/-- A read after a list was written from index 0: the list's element below its length, the old one above. -/
theorem Memory.read?_writePrefix (m : Memory α) (as : List α) (j : Nat) :
    (m.writePrefix as).read? j = if j < as.length then as[j]? else m.read? j := by
  by_cases h : j < as.length
  · simp [Memory.writePrefix, Memory.read?, lookupCell_cellsFrom_append, h]
  · simp [Memory.writePrefix, Memory.read?, lookupCell_cellsFrom_append, h,
      lookupCell_filter_ge as.length j m.cells (by omega)]

/-- A read after BSTART cleared the `full` bits. -/
theorem Memory.read?_clearFull (m : Memory Slot) (i : Nat) :
    m.clearFull.read? i = (m.read? i).map (fun slot => { slot with full := false }) := by
  show lookupCell i (m.cells.map _) = (lookupCell i m.cells).map _
  induction m.cells with
  | nil => rfl
  | cons c rest ih =>
    obtain ⟨k, b⟩ := c
    by_cases h : i = k <;> simp [lookupCell, h, ih]

/-! ### The canonical form -/

theorem Memory.wfFrom_mono {limit low low' : Nat} {cells : List (Nat × α)} (h : low' ≤ low)
    (hw : Memory.wfFrom limit low cells = true) : Memory.wfFrom limit low' cells = true := by
  cases cells with
  | nil => rfl
  | cons c rest =>
    obtain ⟨k, b⟩ := c
    simp only [Memory.wfFrom, Bool.and_eq_true, decide_eq_true_eq] at hw ⊢
    exact ⟨⟨by omega, hw.1.2⟩, hw.2⟩

theorem Memory.wfFrom_insertCell {limit low i : Nat} (a : α) {cells : List (Nat × α)} (hl : low ≤ i) (hi : i < limit)
    (hw : Memory.wfFrom limit low cells = true) : Memory.wfFrom limit low (insertCell i a cells) = true := by
  induction cells generalizing low with
  | nil => simp [insertCell, Memory.wfFrom, hl, hi]
  | cons c rest ih =>
    obtain ⟨k, b⟩ := c
    simp only [Memory.wfFrom, Bool.and_eq_true, decide_eq_true_eq] at hw
    by_cases h1 : i < k
    · simp [insertCell, h1, Memory.wfFrom, hl, hi, hw.1.2, hw.2]
    · by_cases h2 : i = k
      · subst h2; simp [insertCell, Memory.wfFrom, hl, hi, hw.2]
      · simp [insertCell, h1, h2, Memory.wfFrom, hw.1.1, hw.1.2, ih (show k + 1 ≤ i by omega) hw.2]

theorem Memory.wf_empty (limit : Nat) : (Memory.empty : Memory α).wf limit = true := rfl

/-- A write inside the space keeps the canonical form. -/
theorem Memory.wf_write {limit i : Nat} {m : Memory α} (a : α) (hi : i < limit) (hw : m.wf limit = true) :
    (m.write i a).wf limit = true := Memory.wfFrom_insertCell a (Nat.zero_le i) hi hw

theorem Memory.wfFrom_append {limit low n : Nat} (as : List α) {cells : List (Nat × α)} (hn : low + as.length = n)
    (hl : n ≤ limit) (hw : Memory.wfFrom limit n cells = true) :
    Memory.wfFrom limit low (cellsFrom low as ++ cells) = true := by
  induction as generalizing low with
  | nil => simp only [List.length_nil, Nat.add_zero] at hn; subst hn; exact hw
  | cons a rest ih =>
    have h1 : low + 1 + rest.length = n := by simp only [List.length_cons] at hn; omega
    simp [cellsFrom, Memory.wfFrom, ih h1, show low < limit by simp only [List.length_cons] at hn; omega]

theorem Memory.wfFrom_filter_ge {limit low : Nat} (n : Nat) {cells : List (Nat × α)}
    (hw : Memory.wfFrom limit low cells = true) :
    Memory.wfFrom limit n (cells.filter (fun c => decide (n ≤ c.1))) = true := by
  induction cells generalizing low with
  | nil => rfl
  | cons c rest ih =>
    obtain ⟨k, b⟩ := c
    simp only [Memory.wfFrom, Bool.and_eq_true, decide_eq_true_eq] at hw
    by_cases hk : n ≤ k
    · have hrest : ∀ (lo : Nat) (cs : List (Nat × α)), k < lo → Memory.wfFrom limit lo cs = true →
          Memory.wfFrom limit lo (cs.filter (fun c => decide (n ≤ c.1))) = true := by
        intro lo cs hlo hcs
        induction cs generalizing lo with
        | nil => rfl
        | cons d ds ihd =>
          obtain ⟨j, e⟩ := d
          simp only [Memory.wfFrom, Bool.and_eq_true, decide_eq_true_eq] at hcs
          simp only [List.filter_cons, show n ≤ j by omega, decide_true, if_true, Memory.wfFrom, Bool.and_eq_true,
            decide_eq_true_eq]
          exact ⟨hcs.1, ihd (j + 1) (by omega) hcs.2⟩
      simp [hk, Memory.wfFrom, hw.1.2, hrest (k + 1) rest (by omega) hw.2]
    · simp only [List.filter_cons, hk, decide_false]
      exact ih hw.2

/-- Writing a list that fits keeps the canonical form. -/
theorem Memory.wf_writePrefix {limit : Nat} {m : Memory α} (as : List α) (hl : as.length ≤ limit)
    (hw : m.wf limit = true) : (m.writePrefix as).wf limit = true :=
  Memory.wfFrom_append as (Nat.zero_add _) hl (Memory.wfFrom_filter_ge as.length hw)

theorem Memory.wfFrom_map {limit low : Nat} (f : α → α) {cells : List (Nat × α)}
    (hw : Memory.wfFrom limit low cells = true) :
    Memory.wfFrom limit low (cells.map (fun c => (c.1, f c.2))) = true := by
  induction cells generalizing low with
  | nil => rfl
  | cons c rest ih =>
    obtain ⟨k, b⟩ := c
    simp only [Memory.wfFrom, Bool.and_eq_true, decide_eq_true_eq] at hw
    simp [Memory.wfFrom, hw.1.1, hw.1.2, ih hw.2]

/-- Clearing the `full` bits keeps the canonical form. -/
theorem Memory.wf_clearFull {limit : Nat} {m : Memory Slot} (hw : m.wf limit = true) : m.clearFull.wf limit = true := by
  show Memory.wfFrom limit 0 (m.cells.map _) = true
  exact Memory.wfFrom_map (fun slot : Slot => { slot with full := false }) hw

/-- Two memories in canonical form that read the same are equal. -/
theorem lookupCell_lt_low {limit low i : Nat} {cells : List (Nat × α)} (hw : Memory.wfFrom limit low cells = true)
    (h : i < low) : lookupCell i cells = none := by
  induction cells generalizing low with
  | nil => rfl
  | cons c rest ih =>
    obtain ⟨k, b⟩ := c
    simp only [Memory.wfFrom, Bool.and_eq_true, decide_eq_true_eq] at hw
    have : i ≠ k := by omega
    simp [lookupCell, this, ih hw.2 (show i < k + 1 by omega)]

theorem Memory.wfFrom_ext {limit low : Nat} {cs ds : List (Nat × α)} (hc : Memory.wfFrom limit low cs = true)
    (hd : Memory.wfFrom limit low ds = true) (h : ∀ i, lookupCell i cs = lookupCell i ds) : cs = ds := by
  induction cs generalizing low ds with
  | nil =>
    cases ds with
    | nil => rfl
    | cons d rest => have := h d.1; simp [lookupCell] at this
  | cons c rest ih =>
    obtain ⟨k, b⟩ := c
    cases ds with
    | nil => have := h k; simp [lookupCell] at this
    | cons d rest' =>
      obtain ⟨j, e⟩ := d
      simp only [Memory.wfFrom, Bool.and_eq_true, decide_eq_true_eq] at hc hd
      have hkj : k = j := by
        rcases Nat.lt_trichotomy k j with hlt | heq | hgt
        · have h1 := h k
          simp [lookupCell, show k ≠ j by omega, lookupCell_lt_low hd.2 (show k < j + 1 by omega)] at h1
        · exact heq
        · have h1 := h j
          simp [lookupCell, show j ≠ k by omega, lookupCell_lt_low hc.2 (show j < k + 1 by omega)] at h1
      subst hkj
      have hbe : b = e := by have h1 := h k; simpa [lookupCell] using h1
      subst hbe
      congr 1
      refine ih hc.2 hd.2 fun i => ?_
      by_cases hi : i = k
      · subst hi
        rw [lookupCell_lt_low hc.2 (Nat.lt_succ_self i), lookupCell_lt_low hd.2 (Nat.lt_succ_self i)]
      · have h1 := h i
        simpa [lookupCell, hi] using h1

/-- Equal reads mean equal memories, in canonical form. -/
theorem Memory.ext_of_wf {limit : Nat} {m m' : Memory α} (hm : m.wf limit = true) (hm' : m'.wf limit = true)
    (h : ∀ i, m.read? i = m'.read? i) : m = m' := by
  cases m; cases m'; congr 1; exact Memory.wfFrom_ext hm hm' h

end Sys2Proof.Machine
end

