-- ==== Sys2Proof/Laws/Scans.lean ====
section
/-! SUPPORT. The scans of the units, which read a memory element by element, against the functions of a whole row. -/

namespace Sys2Proof.Machine

/-! ### The normalizer's two scans -/

theorem peakFrom_eq (rd : Nat → Option Sample) (row : List Sample) (i m : Nat)
    (h : ∀ j, j < row.length → rd (i + j) = row[j]?) :
    peakFrom rd row.length i m = some (row.foldl (fun m s => max m s.toNat) m) := by
  induction row generalizing i m with
  | nil => rfl
  | cons s rest ih =>
    have h0 : rd i = some s := by simpa using h 0 (by simp)
    have hmax : (if s.toNat > m then s.toNat else m) = max m s.toNat := by
      split <;> omega
    simp only [List.length_cons, peakFrom, h0, hmax, List.foldl_cons]
    refine ih (i + 1) _ fun j hj => ?_
    have := h (j + 1) (by simpa using hj)
    rw [Nat.add_assoc, Nat.add_comm 1 j]
    simpa using this

theorem binarise_length (m : Nat) (prev : Bin) (row : List Sample) : (binarise m prev row).length = row.length := by
  induction row generalizing prev with
  | nil => rfl
  | cons s rest ih => simp [binarise, ih]

theorem classifyFrom_eq (rd : Nat → Option Sample) (row : List Sample) (m i : Nat) (prev : Bin)
    (h : ∀ j, j < row.length → rd (i + j) = row[j]?) :
    classifyFrom rd m row.length i prev = some (binarise m prev row) := by
  induction row generalizing i prev with
  | nil => rfl
  | cons s rest ih =>
    have h0 : rd i = some s := by simpa using h 0 (by simp)
    have hrest : ∀ j, j < rest.length → rd (i + 1 + j) = rest[j]? := fun j hj => by
      have := h (j + 1) (by simpa using hj)
      rw [Nat.add_assoc, Nat.add_comm 1 j]
      simpa using this
    simp only [List.length_cons, classifyFrom, h0, ih (i + 1) _ hrest, Option.map_some, binarise]

/-! ### Scans of the Binary Row -/

/-- Scanning the indices from `low` on is scanning all of them with the bound tested. -/
theorem filter_range_ge (n low : Nat) (f : Nat → Bool) :
    (List.range n).filter (fun i => decide (low ≤ i) && f i) = (List.range' low (n - low)).filter f := by
  induction n with
  | zero => simp
  | succ n ih =>
    rw [List.range_succ, List.filter_append, ih]
    by_cases h : low ≤ n
    · rw [show n + 1 - low = (n - low) + 1 by omega, List.range'_concat, List.filter_append]
      simp [List.filter_cons, h, show low + (n - low) = n by omega]
    · rw [show n + 1 - low = 0 by omega, show n - low = 0 by omega]
      simp [h]

theorem find?_range_ge (n low : Nat) (f : Nat → Bool) :
    (List.range n).find? (fun i => decide (low ≤ i) && f i) = (List.range' low (n - low)).find? f := by
  rw [← List.head?_filter, ← List.head?_filter, filter_range_ge]

theorem firstOne_eq_range' (br : List Bin) (low : Nat) :
    firstOne br low = (List.range' low (br.length - low)).find? (bitAt br) := find?_range_ge br.length low (bitAt br)

theorem transitionsAfter_eq_range' (br : List Bin) (start : Nat) :
    transitionsAfter br start =
      (List.range' (start + 1) (br.length - (start + 1))).filter (fun i => bitAt br i != bitAt br (i - 1)) :=
  filter_range_ge br.length (start + 1) (fun i => bitAt br i != bitAt br (i - 1))

theorem getElem?_eq_bitAt {br : List Bin} {i : Nat} (h : i < br.length) : br[i]? = some (bitAt br i) := by
  simp [bitAt, h]

theorem firstOneFrom_eq (rd : Nat → Option Bin) (f : Nat → Bin) (n i : Nat)
    (h : ∀ j, i ≤ j → j < i + n → rd j = some (f j)) :
    firstOneFrom rd n i = some ((List.range' i n).find? f) := by
  induction n generalizing i with
  | zero => rfl
  | succ n ih =>
    have h0 := h i (Nat.le_refl i) (by omega)
    have hr := ih (i + 1) fun j h1 h2 => h j (by omega) (by omega)
    cases hf : f i with
    | true => simp [firstOneFrom, h0, hf, List.range'_succ]
    | false => simp [firstOneFrom, h0, hf, List.range'_succ, hr]

theorem transitionFrom_eq (rd : Nat → Option Bin) (f : Nat → Bin) (n i count : Nat) (hi : 1 ≤ i) (hc : count ≤ 12)
    (h : ∀ j, i - 1 ≤ j → j < i + n → rd j = some (f j)) :
    transitionFrom rd n i count = some (((List.range' i n).filter (fun j => f j != f (j - 1)))[12 - count]?) := by
  induction n generalizing i count with
  | zero => simp [transitionFrom]
  | succ n ih =>
    have h0 := h i (by omega) (by omega)
    have h1 := h (i - 1) (Nat.le_refl _) (by omega)
    have hr := fun c hc => ih (i + 1) c (by omega) hc fun j h1 h2 => h j (by omega) (by omega)
    by_cases he : f i = f (i - 1)
    · simp [transitionFrom, h0, h1, he, hr count hc, List.range'_succ]
    · by_cases hlast : count = 12
      · subst hlast; simp [transitionFrom, h0, h1, he, List.range'_succ]
      · have h2 : 12 - count = (12 - (count + 1)) + 1 := by omega
        have h3 : ¬(count + 1 = Config.RUNIN_TRANSITIONS) := by show ¬(count + 1 = 13); omega
        rw [h2]
        simp [transitionFrom, h0, h1, he, h3, List.range'_succ, hr (count + 1) (by omega)]

/-- CALIB's and LOCATE's scan for a 1 finds what the function of the row finds. -/
theorem firstOneFrom_row {rd : Nat → Option Bin} {bits : List Bin} {low : Nat}
    (h : ∀ j, low ≤ j → j < bits.length → rd j = bits[j]?) :
    firstOneFrom rd (bits.length - low) low = some (firstOne bits low) := by
  rw [firstOne_eq_range']
  refine firstOneFrom_eq rd (bitAt bits) _ _ fun j h1 h2 => ?_
  rw [h j h1 (by omega), getElem?_eq_bitAt (by omega)]

/-- LOCATE's scan finds the 13th transition of the row. -/
theorem transitionFrom_row {rd : Nat → Option Bin} {bits : List Bin} {start : Nat}
    (h : ∀ j, start ≤ j → j < bits.length → rd j = bits[j]?) :
    transitionFrom rd (bits.length - (start + 1)) (start + 1) 0 =
      some ((transitionsAfter bits start)[Config.RUNIN_TRANSITIONS - 1]?) := by
  rw [transitionsAfter_eq_range']
  by_cases hlt : start < bits.length
  case neg => simp [show bits.length - (start + 1) = 0 by omega, transitionFrom]
  refine transitionFrom_eq rd (bitAt bits) _ _ 0 (by omega) (by omega) fun j h1 h2 => ?_
  rw [h j (by omega) (by omega), getElem?_eq_bitAt (by omega)]

end Sys2Proof.Machine
end

