-- ==== Sys2Proof/Laws/Units.lean ====
section
/-! SUPPORT. One lemma for each shared operation of a lane: what it gives on a lane that holds its operands. -/

namespace Sys2Proof.Machine

/-! ### Going on with a value -/

@[simp] theorem need_some {α β : Type} (a : α) (f : Fault) (k : α → Stage β) : need (some a) f k = k a := rfl
@[simp] theorem need_none {α β : Type} (f : Fault) (k : α → Stage β) : need none f k = .fault f := rfl

theorem need_eq_ok {α β : Type} {o : Option α} {f : Fault} {k : α → Stage β} {b : β} (h : need o f k = .ok b) :
    ∃ a, o = some a ∧ k a = .ok b := by
  cases o with
  | none => cases h
  | some a => exact ⟨a, rfl, h⟩

@[simp] theorem Stage.bind_ok {α β : Type} (a : α) (k : α → Stage β) : (Stage.ok a).bind k = k a := rfl
@[simp] theorem Stage.bind_reject {α β : Type} (c : Cause) (k : α → Stage β) :
    (Stage.reject c : Stage α).bind k = .reject c := rfl
@[simp] theorem Stage.bind_fault {α β : Type} (f : Fault) (k : α → Stage β) :
    (Stage.fault f : Stage α).bind k = .fault f := rfl

theorem Stage.bind_eq_ok {α β : Type} {x : Stage α} {k : α → Stage β} {b : β} (h : x.bind k = .ok b) :
    ∃ a, x = .ok a ∧ k a = .ok b := by
  cases x with
  | ok a => exact ⟨a, rfl, h⟩
  | reject c => cases h
  | fault f => cases h

/-! ### One lane's operation on the block -/

/-- Everything a lane operation can do when it answers a next state: the operation is not enabled and nothing
happens, or the unit's lane replaces the lane, or the reject entry does. -/
theorem laneOp_next {at_ : LaneState} {unit_ : Lane → Stage Lane} {l : Nat} {s t : State}
    (h : laneOp at_ unit_ l s = .next t) :
    ∃ ln, s.lane? l = some ln ∧
      ((ln.pc ≠ at_ ∧ t = s) ∨
       (ln.pc = at_ ∧ ∃ ln', unit_ ln = .ok ln' ∧ t = s.setLane l ln') ∨
       (ln.pc = at_ ∧ ∃ c, unit_ ln = .reject c ∧ t = s.setLane l (rejectEntry c ln))) := by
  unfold laneOp at h
  split at h
  · cases h
  · next ln hln =>
    refine ⟨ln, hln, ?_⟩
    split at h
    · next hpc =>
      split at h
      · next ln' hu => injection h with h; exact .inr (.inl ⟨hpc, ln', hu, h.symm⟩)
      · next c hu => injection h with h; exact .inr (.inr ⟨hpc, c, hu, h.symm⟩)
      · cases h
    · next hpc => injection h with h; exact .inl ⟨hpc, h.symm⟩

theorem laneOp_ok {at_ : LaneState} {unit_ : Lane → Stage Lane} {l : Nat} {s : State} {ln ln' : Lane}
    (hl : s.lane? l = some ln) (hpc : ln.pc = at_) (hu : unit_ ln = .ok ln') :
    laneOp at_ unit_ l s = .next (s.setLane l ln') := by
  simp [laneOp, hl, hpc, hu]

theorem laneOp_reject {at_ : LaneState} {unit_ : Lane → Stage Lane} {l : Nat} {s : State} {ln : Lane} {c : Cause}
    (hl : s.lane? l = some ln) (hpc : ln.pc = at_) (hu : unit_ ln = .reject c) :
    laneOp at_ unit_ l s = .next (s.setLane l (rejectEntry c ln)) := by
  simp [laneOp, hl, hpc, hu]

theorem laneOp_waits {at_ : LaneState} {unit_ : Lane → Stage Lane} {l : Nat} {s : State} {ln : Lane}
    (hl : s.lane? l = some ln) (hpc : ln.pc ≠ at_) : laneOp at_ unit_ l s = .next s := by
  simp [laneOp, hl, hpc]

/-! ### The units on a lane that holds its operands -/

/-- The Signal Normalizer on a lane that holds a row. -/
theorem normUnit_row {ln : Lane} {row : List Sample} (h : ln.sampleRowIs row) :
    normUnit ln =
      if peak row < Config.BLANK_MIN then .reject .blankLine
      else .ok { ln with
        br := ln.br.writePrefix (binarise (peak row) false row)
        maxluma := .val (BitVec.ofNat 8 (peak row))
        pc := .normalized } := by
  obtain ⟨hw, hr⟩ := h
  have h0 : ∀ j, j < row.length → ln.sr.read? (0 + j) = row[j]? := fun j hj => by rw [Nat.zero_add]; exact hr j hj
  simp only [normUnit, hw, need_some, peakFrom_eq _ _ _ _ h0, classifyFrom_eq _ _ _ _ _ h0]
  rfl

/-- The Run-In Locator on a lane that holds a Binary Row. -/
theorem locateUnit_row {ln : Lane} {bits : List Bin} (h : ln.binaryRow bits) :
    locateUnit ln =
      match locate bits with
      | .ok (start, stop) => .ok { ln with startRunIn := .val start, stopRunIn := .val stop, pc := .runInFound }
      | .error c => .reject c := by
  obtain ⟨hw, hr⟩ := h
  have h1 := firstOneFrom_row (rd := ln.br.read?) (low := 0) fun j _ hj => hr j hj
  rw [Nat.sub_zero] at h1
  simp only [locateUnit, locate, hw, need_some, h1]
  cases firstOne bits 0 with
  | none => rfl
  | some start =>
    have h2 := transitionFrom_row (rd := ln.br.read?) (start := start) fun j _ hj => hr j hj
    by_cases hs : startTooLate bits.length start
    · simp [hs]
    · simp only [hs, if_false, h2, need_some]
      cases (transitionsAfter bits start)[Config.RUNIN_TRANSITIONS - 1]? with
      | none => rfl
      | some stop =>
        by_cases hb : stopInBand bits.length stop
        · simp only [if_pos hb]
        · simp only [if_neg hb]

/-- The Timing Calibrator on a lane whose Binary Row reads as `bits` from stopRunIn on. -/
theorem calibUnit_row {ln : Lane} {bits : List Bin} {start stop : Nat} (hw : ln.w.read = bits.length)
    (hstart : ln.startRunIn.read = start) (hstop : ln.stopRunIn.read = stop)
    (hr : ∀ j, stop ≤ j → j < bits.length → ln.br.read? j = bits[j]?) :
    calibUnit ln =
      match firstOne bits stop with
      | none => .reject .startEdgeNotFound
      | some rise =>
        .ok { ln with
          runInLength := .val (stop - start)
          bitWidth := .val (bitWidthOf (stop - start))
          riseIdx := .val rise
          bitStart := .val (rise + bitWidthOf (stop - start))
          pc := .calibrated } := by
  cases h : firstOne bits stop <;>
    simp only [calibUnit, hw, hstart, hstop, need_some, firstOneFrom_row hr, h]

/-- The Bit Sampler on a lane that holds a Binary Row. -/
theorem sampleBitUnit_row {ln : Lane} {bits : List Bin} {bs bw : Nat} (h : ln.binaryRow bits)
    (hbs : ln.bitStart.read = bs) (hbw : ln.bitWidth.read = bw) (k : BitVec 5) :
    sampleBitUnit ln k = .ok (sampleRow bits bs bw k.toInt) := by
  obtain ⟨hw, hr⟩ := h
  simp only [sampleBitUnit, hbs, hbw, hw, sampleRow, sampleOffset]
  by_cases ho : (bs : Int) + k.toInt * (bw : Int) + ((bw / 2 : Nat) : Int) < 0 ∨
      (bs : Int) + k.toInt * (bw : Int) + ((bw / 2 : Nat) : Int) ≥ (bits.length : Int)
  · simp only [ho, if_true]
  · have hlt : ((bs : Int) + k.toInt * (bw : Int) + ((bw / 2 : Nat) : Int)).toNat < bits.length := by omega
    simp only [ho, if_false, hr _ hlt, getElem?_eq_bitAt hlt, need_some]

theorem sampleAll_row {ln : Lane} {bits : List Bin} {bs bw : Nat} (h : ln.binaryRow bits)
    (hbs : ln.bitStart.read = bs) (hbw : ln.bitWidth.read = bw) (ks : List (BitVec 5)) :
    sampleAll ln ks = .ok (ks.map fun k => sampleRow bits bs bw k.toInt) := by
  induction ks with
  | nil => rfl
  | cons k ks ih => simp [sampleAll, sampleBitUnit_row h hbs hbw, ih]

theorem deadAndStart_toInt : (Config.DEAD_BITS ++ [Config.START_BIT]).map BitVec.toInt = [-3, -2, -1] := by decide

theorem dataIndices_toInt : dataIndices.map BitVec.toInt = (List.range 16).map (fun k : Nat => (k : Int)) := by decide

/-- SANITY's unit on a lane that holds a Binary Row and its timing. -/
theorem sanityUnit_row {ln : Lane} {bits : List Bin} {bs bw : Nat} (h : ln.binaryRow bits)
    (hbs : ln.bitStart.read = bs) (hbw : ln.bitWidth.read = bw) :
    sanityUnit ln =
      match sanity bits bs bw with
      | .ok () => .ok { ln with pc := .sanityChecked }
      | .error c => .reject c := by
  have hs : (Config.DEAD_BITS ++ [Config.START_BIT]).map (fun k => sampleRow bits bs bw k.toInt) =
      [-3, -2, -1].map (sampleRow bits bs bw) := by
    rw [← deadAndStart_toInt, List.map_map]; rfl
  simp only [sanityUnit, sampleAll_row h hbs hbw, hs, Stage.bind_ok, sanity]
  generalize [-3, -2, -1].map (sampleRow bits bs bw) = samples
  by_cases h1 : SVal.outOfRange ∈ samples
  · simp [h1]
  · by_cases h2 : samples = [.zero, .zero, .one] <;> simp [h1, h2]

/-- ASSEMBLE's unit on a lane that holds a Binary Row and its timing. -/
theorem assembleUnit_row {ln : Lane} {bits : List Bin} {bs bw : Nat} (h : ln.binaryRow bits)
    (hbs : ln.bitStart.read = bs) (hbw : ln.bitWidth.read = bw) :
    assembleUnit ln =
      match assemble bits bs bw with
      | .ok (b0, b1, par) =>
        .ok { ln with byte0 := .val b0, byte1 := .val b1, par := .val par, pc := .bytesAssembled }
      | .error c => .reject c := by
  have hs : dataIndices.map (fun k => sampleRow bits bs bw k.toInt) =
      (List.range 16).map (fun k : Nat => sampleRow bits bs bw (k : Int)) := by
    have := congrArg (List.map (sampleRow bits bs bw)) dataIndices_toInt
    simpa only [List.map_map, Function.comp_def] using this
  simp only [assembleUnit, sampleAll_row h hbs hbw, hs, Stage.bind_ok, assemble]
  generalize (List.range 16).map (fun k : Nat => sampleRow bits bs bw (k : Int)) = samples
  by_cases h1 : SVal.outOfRange ∈ samples <;> simp [h1]

/-- VALIDATE's unit on a lane that holds the assembled bytes. -/
theorem validateUnit_row {ln : Lane} {b0 b1 : RByte} {par : BitVec 2} (h0 : ln.byte0.read = b0)
    (h1 : ln.byte1.read = b1) (hp : ln.par.read = par) :
    validateUnit ln =
      match validate b0 b1 par with
      | .ok () => .ok { ln with valid := true, pc := .done }
      | .error c => .reject c := by
  simp only [validateUnit, h0, h1, hp, validate]
  cases oddParity b0 (par.getLsbD 0) <;> cases oddParity b1 (par.getLsbD 1) <;> simp

/-! ### LOAD and COLLECT -/

/-- Everything LOAD can do when it answers a next state. -/
theorem loadFrame_next {s t : State} {l i : Nat} {ln : Lane} (h : s.loadFrame l ln i = .next t) :
    ∃ handle, s.fl.read? i = some handle ∧
      ((∃ row, usableRow s.cfg (s.readScanline handle) = some row ∧ t = s.setLane l (ln.loaded s.cfg i row)) ∨
       (usableRow s.cfg (s.readScanline handle) = none ∧
          t = { s.setLane l (ln.unavailable s.cfg i) with
            errIndex := .val (mergedErrIndex s.rowError s.errIndex i), rowError := true })) := by
  unfold State.loadFrame at h
  split at h
  · cases h
  · next handle hh =>
    refine ⟨handle, hh, ?_⟩
    split at h
    · next row hrow => injection h with h; exact .inl ⟨row, hrow, h.symm⟩
    · next hrow => injection h with h; exact .inr ⟨hrow, h.symm⟩

/-- Everything COLLECT can do when it answers a next state. -/
theorem collectAt_next {at_ : LaneState} {l : Nat} {s t : State} (h : collectAt at_ l s = .next t) :
    ∃ ln, s.lane? l = some ln ∧
      ((ln.pc ≠ at_ ∧ t = s) ∨
       (ln.pc = at_ ∧ ln.fidx.read < s.cfg.nmax ∧
          t = { s.setLane l { ln with pc := .idle } with
            rs := s.rs.write ln.fidx.read
              { full := true, valid := ln.valid, cause := ln.cause, byte1 := ln.byte1.read, byte0 := ln.byte0.read } })) := by
  unfold collectAt at h
  split at h
  · cases h
  · next ln hln =>
    refine ⟨ln, hln, ?_⟩
    split at h
    · next hpc =>
      unfold State.storeSlot at h
      split at h
      · next hlt => injection h with h; exact .inr ⟨hpc, hlt, h.symm⟩
      · cases h
    · next hpc => injection h with h; exact .inl ⟨hpc, h.symm⟩

end Sys2Proof.Machine
end

