-- ==== Sys2Proof/Laws/Rows.lean ====
section
/-! SUPPORT. The functions of a whole row: where the scans stop, the run-in's shape, the sampler's offsets, the bits of an
assembled byte. -/

namespace Sys2Proof.Machine

/-- A memory that holds a value at every index below `n` reads as a row of length `n` there. -/
theorem definedBelow_row {α : Type} {m : Memory α} {n : Nat} (h : m.definedBelow n) :
    ∃ row : List α, row.length = n ∧ ∀ j, j < n → m.read? j = row[j]? := by
  induction n with
  | zero => exact ⟨[], rfl, fun j hj => absurd hj (by omega)⟩
  | succ n ih =>
    obtain ⟨row, hl, hr⟩ := ih fun j hj => h j (by omega)
    obtain ⟨a, ha⟩ := Option.isSome_iff_exists.mp (h n (by omega))
    refine ⟨row ++ [a], by simp [hl], fun j hj => ?_⟩
    by_cases hjn : j < n
    · rw [hr j hjn, List.getElem?_append_left (by omega)]
    · have : j = n := by omega
      subst this; rw [ha, ← hl]; simp

/-- The scan for a 1 stops at the first one. -/
theorem firstOne_eq_some {bits : List Bin} {low i : Nat} : firstOne bits low = some i ↔ FirstOneAt bits low i := by
  rw [firstOne_eq_range']
  rw [List.find?_range'_eq_some]
  simp [FirstOneAt]
  constructor
  · rintro ⟨h1, ⟨h2, h3⟩, h4⟩; exact ⟨h2, by omega, h1, h4⟩
  · rintro ⟨h2, h3, h1, h4⟩; exact ⟨h1, ⟨h2, by omega⟩, h4⟩

/-- The scan for a 1 finds none exactly where there is none. -/
theorem firstOne_eq_none {bits : List Bin} {low : Nat} :
    firstOne bits low = none ↔ ∀ j, low ≤ j → j < bits.length → bitAt bits j = false := by
  rw [firstOne_eq_range', List.find?_range'_eq_none]
  simp
  constructor
  · intro h j h1 h2; exact h j h1 (by omega)
  · intro h j h1 h2; exact h j h1 (by omega)

/-- A peak is a sample, so it fits eight bits. -/
theorem peak_lt (row : List Sample) : peak row < 256 := by
  unfold peak
  have : ∀ (m : Nat), m < 256 → row.foldl (fun m s => max m s.toNat) m < 256 := by
    induction row with
    | nil => intro m h; exact h
    | cons a r ih => intro m h; exact ih _ (by have := a.isLt; simp; omega)
  exact this 0 (by omega)

/-- The `k`-th index that a test accepts is the one before which exactly `k` are accepted. -/
theorem filter_range_getElem? (p : Nat → Bool) (n k x : Nat) :
    ((List.range n).filter p)[k]? = some x ↔ x < n ∧ p x = true ∧ ((List.range x).filter p).length = k := by
  induction n with
  | zero => simp
  | succ n ih =>
    rw [List.range_succ, List.filter_append]
    have hx : ∀ y, y < n → ((List.range y).filter p).length ≤ ((List.range n).filter p).length := by
      intro y hy
      have : List.range n = List.range y ++ List.range' y (n - y) := by
        rw [List.range_eq_range', List.range_eq_range']
        have := @List.range'_append 0 y (n-y) 1
        simp at this; rw [this]; congr 1; omega
      rw [this, List.filter_append, List.length_append]; omega
    have hstrict : ∀ y, y < n → p y = true → ((List.range y).filter p).length < ((List.range n).filter p).length := by
      intro y hy hp
      have : List.range n = List.range y ++ List.range' y (n - y) := by
        rw [List.range_eq_range', List.range_eq_range']
        have := @List.range'_append 0 y (n-y) 1
        simp at this; rw [this]; congr 1; omega
      rw [this, List.filter_append, List.length_append]
      rw [show n - y = (n - y - 1) + 1 by omega, List.range'_succ, List.filter_cons]
      simp [hp]
    by_cases hk : k < ((List.range n).filter p).length
    · rw [List.getElem?_append_left hk, ih]
      constructor
      · rintro ⟨h1, h2, h3⟩; exact ⟨by omega, h2, h3⟩
      · rintro ⟨h1, h2, h3⟩
        refine ⟨?_, h2, h3⟩
        by_contra hc
        have : x = n := by omega
        subst this; omega
    · rw [List.getElem?_append_right (by omega)]
      by_cases hp : p n = true
      · simp only [List.filter_cons, hp, if_true, List.filter_nil]
        rw [List.getElem?_singleton]
        constructor
        · intro h
          split at h
          · next h0 => injection h with h; subst h; exact ⟨by omega, hp, by omega⟩
          · cases h
        · rintro ⟨h1, h2, h3⟩
          have : x = n := by
            by_contra hc
            have := hstrict x (by omega) h2; omega
          subst this; rw [if_pos (by omega)]
      · simp only [List.filter_cons, hp, List.filter_nil]
        simp
        intro h1 h2 h3
        have : x = n := by
          by_contra hc
          have := hstrict x (by omega) h2; omega
        subst this; exact absurd h2 hp

/-- The locator stops at the 13th transition. -/
theorem transitionsAfter_getElem? {bits : List Bin} {start stop : Nat} :
    (transitionsAfter bits start)[12]? = some stop ↔ ThirteenthAt bits start stop := by
  unfold transitionsAfter
  rw [filter_range_getElem?]
  simp only [ThirteenthAt, transitionsBetween, Bool.and_eq_true, decide_eq_true_eq, bne_iff_ne]
  tauto

/-- Between a 1 at `start` and `x` the level changes once for each transition, and each takes an index. -/
theorem bitAt_before_transition {bits : List Bin} {start : Nat} (hs : bitAt bits start = true) (x : Nat)
    (hx : start < x) :
    bitAt bits (x - 1) = decide (transitionsBetween bits start x % 2 = 0) ∧
      start + transitionsBetween bits start x < x := by
  induction x with
  | zero => omega
  | succ x ih =>
    unfold transitionsBetween at *
    rw [List.range_succ, List.filter_append]
    by_cases hsx : start = x
    · subst hsx
      have : (List.range start).filter (fun i => decide (start < i) && (bitAt bits i != bitAt bits (i-1))) = [] := by
        rw [List.filter_eq_nil_iff]; intro a ha; simp at ha; simp; intro h; omega
      simp [this, hs]
    · obtain ⟨h1, h2⟩ := ih (by omega)
      generalize (List.range x).filter (fun i => decide (start < i) && (bitAt bits i != bitAt bits (i-1))) = L at *
      by_cases hne : bitAt bits x = bitAt bits (x-1)
      · simp [hne, h1]; omega
      · have hx' : start < x := by omega
        simp only [List.filter_cons, hx', decide_true, Bool.true_and, List.filter_nil, bne_iff_ne, ne_eq, hne, not_false_eq_true, if_true, List.length_append, List.length_singleton, Nat.add_sub_cancel]
        constructor
        · rw [h1] at hne
          cases hb : bitAt bits x <;> simp [hb] at hne ⊢ <;> omega
        · omega

/-- The 13th transition after a 1 is onto a 0, at least 13 samples on (41_runin_locator.md R124). -/
theorem thirteenthAt_shape {bits : List Bin} {start stop : Nat} (hs : bitAt bits start = true)
    (h : ThirteenthAt bits start stop) : bitAt bits stop = false ∧ start + 13 ≤ stop := by
  obtain ⟨h1, h2, h3, h4⟩ := h
  obtain ⟨h5, h6⟩ := bitAt_before_transition hs stop h1
  rw [h4] at h5 h6
  simp at h5
  rw [h5] at h3
  exact ⟨by simpa using h3, by omega⟩

/-- A sample at a Bit Index of 0 or more is out of range exactly where its offset reaches the row's end. -/
theorem sampleRow_outOfRange_iff (bits : List Bin) (bs bw : Nat) (k : Nat) :
    sampleRow bits bs bw k = .outOfRange ↔ bits.length ≤ bs + k * bw + bw / 2 := by
  unfold sampleRow
  dsimp only
  split
  · next h => simp; push_cast at h; have : (0:Int) ≤ (k:Int) * bw := by positivity
              zify; omega
  · next h => push_cast at h
              constructor
              · intro h'; generalize bitAt _ _ = b at h'; cases b <;> cases h'
              · intro h'; exfalso; zify at h'; omega

/-- Bit `j` of a weighed list is its element `j`. -/
theorem weighBits_testBit (l : List SVal) (j : Nat) : (weighBits l).testBit j = decide (l[j]? = some SVal.one) := by
  induction l generalizing j with
  | nil => simp [weighBits]
  | cons a l ih =>
    cases j with
    | zero => cases a <;> simp [weighBits, svalBit]
    | succ j =>
      simp only [weighBits, Nat.testBit_succ]
      have : (svalBit a + 2 * weighBits l) / 2 = weighBits l := by
        have : svalBit a ≤ 1 := by cases a <;> simp [svalBit]
        omega
      rw [this, ih]; simp

/-- Bit `j` of an assembled byte is the sample `j` of its group, and bit 7 is 0. -/
theorem groupByte_getLsbD (l : List SVal) (base j : Nat) (hj : j < 8) :
    (groupByte l base).getLsbD j = decide (j < 7 ∧ l[base + j]? = some SVal.one) := by
  unfold groupByte
  rw [BitVec.getLsbD_ofNat, weighBits_testBit, List.getElem?_take]
  simp [hj]

/-- A weighed list of `n` bits is below `2^n`. -/
theorem weighBits_lt (l : List SVal) : weighBits l < 2 ^ l.length := by
  induction l with
  | nil => simp [weighBits]
  | cons a l ih =>
    have : svalBit a ≤ 1 := by cases a <;> simp [svalBit]
    simp [weighBits, Nat.pow_succ]; omega

/-- An assembled byte is at most 127 (10_state.md R20). -/
theorem groupByte_le (l : List SVal) (b : Nat) : (groupByte l b).toNat ≤ 127 := by
  unfold groupByte
  have h := weighBits_lt ((l.drop b).take 7)
  have h2 : ((l.drop b).take 7).length ≤ 7 := by simp
  have h3 := Nat.pow_le_pow_right (show 0 < 2 by omega) h2
  rw [BitVec.toNat_ofNat]
  have := Nat.mod_le (weighBits ((l.drop b).take 7)) (2^8)
  omega

/-- What a located run-in is. -/
theorem locate_ok {bits : List Bin} {a b : Nat} (h : locate bits = .ok (a, b)) :
    FirstOneAt bits 0 a ∧ 20 * a ≤ bits.length ∧ ThirteenthAt bits a b ∧ stopInBand bits.length b := by
  unfold locate at h
  split at h
  · cases h
  · next start h1 =>
    split at h
    · cases h
    · next h2 =>
      split at h
      · cases h
      · next stop h3 =>
        split at h
        · next h4 =>
          injection h with h; injection h with h h'; subst h; subst h'
          exact ⟨firstOne_eq_some.mp h1, by simpa using h2, transitionsAfter_getElem?.mp h3, h4⟩
        · cases h

/-- The causes of the locator. -/
theorem locate_error {bits : List Bin} {c : Cause} (h : locate bits = .error c) :
    c = .runInNotFound ∨ c = .runInOutOfRange := by
  unfold locate at h
  split at h
  · simp at h; simp [← h]
  · split at h
    · simp at h; simp [← h]
    · split at h
      · simp at h; simp [← h]
      · split at h
        · cases h
        · simp at h; simp [← h]

/-- The causes of the sanity check. -/
theorem sanity_error {bits : List Bin} {a b : Nat} {c : Cause} (h : sanity bits a b = .error c) :
    c = .outOfRange ∨ c = .sanityMismatch := by
  simp only [sanity] at h
  split at h
  · simp at h; simp [← h]
  · split at h
    · cases h
    · simp at h; simp [← h]

/-- The cause of the assembler. -/
theorem assemble_error {bits : List Bin} {a b : Nat} {c : Cause} (h : assemble bits a b = .error c) :
    c = .outOfRange := by
  simp only [assemble] at h
  split at h
  · simp at h; simp [← h]
  · cases h

/-- The cause of the validator. -/
theorem validate_error {a b par} {c : Cause} (h : validate a b par = .error c) : c = .parityMismatch := by
  simp only [validate] at h
  split at h
  · cases h
  · simp at h; simp [← h]

end Sys2Proof.Machine
end

