-- ==== Sys2Proof/Laws/Finish.lean ====
section
/-! SUPPORT. How a lane comes to its terminal state: at most six operations, each to the state of the table. -/

namespace Sys2Proof.Machine

/-- One operation, then `n` more. -/
theorem advanceN_succ_of {ln ln' : Lane} {n : Nat} (h : ln.advance = some ln') :
    ln.advanceN (n+1) = ln'.advanceN n := by
  simp [Lane.advanceN, h]

/-- A lane in a terminal state stays as it is. -/
theorem advanceN_terminal {ln : Lane} (h : ln.pc = .done ∨ ln.pc = .rejected) (n : Nat) :
    ln.advanceN n = some ln := by
  induction n with
  | zero => rfl
  | succ n ih =>
    rw [advanceN_succ_of (ln' := ln)]; exact ih
    unfold Lane.advance; rcases h with h | h <;> rw [h]

/-- A rejection ends the lane with the sentinel and its cause. -/
theorem finish_reject {ln : Lane} {c : Cause} {n : Nat} (h : ln.advance = some (rejectEntry c ln)) :
    ∃ ln', ln.advanceN (n+1) = some ln' ∧ ln'.hasResult (rejectedResult c) ∧ ((ln'.pc = .done ∧
      ln'.valid = true) ∨ (ln'.pc = .rejected ∧ ln'.valid = false)) :=
  ⟨rejectEntry c ln, by rw [advanceN_succ_of h, advanceN_terminal (.inr rfl)], ⟨rfl, rfl, rfl, rfl⟩, .inr ⟨rfl, rfl⟩⟩

/-- How many units a lane still has to run at most before a terminal state (45_frame_decoder.md R194). -/
def opsToTerminal : LaneState → Nat
  | .idle => 0
  | .start => 6
  | .normalized => 5
  | .runInFound => 4
  | .calibrated => 3
  | .sanityChecked => 2
  | .bytesAssembled => 1
  | .done => 0
  | .rejected => 0

/-- A unit ends in its success state or in `S_REJECTED`. -/
theorem settle_pc {ln ln' : Lane} {st : LaneState} {u : Stage Lane} (h : ln.settle u = some ln')
   (hu : ∀ x, u = .ok x → x.pc = st) : ln'.pc = st ∨ ln'.pc = .rejected := by
  cases u with
  | ok a => injection h with h; subst h; exact .inl (hu _ rfl)
  | reject c => injection h with h; subst h; exact .inr rfl
  | fault f => cases h

/-- NORM's success state (10_state.md R26); it keeps the frame index. -/
theorem normUnit_pc {ln x : Lane} (h : normUnit ln = .ok x) : x.pc = .normalized ∧ x.fidx = ln.fidx := by
  unfold normUnit at h
  obtain ⟨m, hm, h⟩ := need_eq_ok h
  split at h
  · cases h
  · obtain ⟨bs, hm, h⟩ := need_eq_ok h; injection h with h; subst h; exact ⟨rfl, rfl⟩

/-- LOCATE's success state. -/
theorem locateUnit_pc {ln x : Lane} (h : locateUnit ln = .ok x) : x.pc = .runInFound ∧ x.fidx = ln.fidx := by
  unfold locateUnit at h
  obtain ⟨m, hm, h⟩ := need_eq_ok h
  split at h
  · cases h
  · split at h
    · cases h
    · obtain ⟨bs, hm, h⟩ := need_eq_ok h
      split at h
      · cases h
      · split at h
        · injection h with h; subst h; exact ⟨rfl, rfl⟩
        · cases h

/-- CALIB's success state. -/
theorem calibUnit_pc {ln x : Lane} (h : calibUnit ln = .ok x) : x.pc = .calibrated ∧ x.fidx = ln.fidx := by
  unfold calibUnit at h
  obtain ⟨m, hm, h⟩ := need_eq_ok h
  split at h
  · cases h
  · injection h with h; subst h; exact ⟨rfl, rfl⟩

/-- SANITY's success state. -/
theorem sanityUnit_pc {ln x : Lane} (h : sanityUnit ln = .ok x) : x.pc = .sanityChecked ∧ x.fidx = ln.fidx := by
  unfold sanityUnit at h
  obtain ⟨_, hw, h⟩ := Stage.bind_eq_ok h
  split at h
  · cases h
  · split at h
    · injection h with h; subst h; exact ⟨rfl, rfl⟩
    · cases h

/-- ASSEMBLE's success state. -/
theorem assembleUnit_pc {ln x : Lane} (h : assembleUnit ln = .ok x) : x.pc = .bytesAssembled ∧ x.fidx = ln.fidx := by
  unfold assembleUnit at h
  obtain ⟨_, hw, h⟩ := Stage.bind_eq_ok h
  split at h
  · cases h
  · injection h with h; subst h; exact ⟨rfl, rfl⟩

/-- VALIDATE's success state. -/
theorem validateUnit_pc {ln x : Lane} (h : validateUnit ln = .ok x) : x.pc = .done ∧ x.fidx = ln.fidx := by
  unfold validateUnit at h
  split at h
  · injection h with h; subst h; exact ⟨rfl, rfl⟩
  · cases h

/-- Each operation brings a lane nearer to its terminal state. -/
theorem opsToTerminal_advance {ln ln' : Lane} (h : ln.advance = some ln') :
    opsToTerminal ln'.pc ≤ opsToTerminal ln.pc - 1 := by
  unfold Lane.advance at h
  cases hpc : ln.pc <;> rw [hpc] at h <;> dsimp only at h
  · injection h with h; subst h; simp [hpc, opsToTerminal]
  · rcases settle_pc h (fun x hx => (normUnit_pc hx).1) with h | h <;> simp [h, opsToTerminal]
  · rcases settle_pc h (fun x hx => (locateUnit_pc hx).1) with h | h <;> simp [h, opsToTerminal]
  · rcases settle_pc h (fun x hx => (calibUnit_pc hx).1) with h | h <;> simp [h, opsToTerminal]
  · rcases settle_pc h (fun x hx => (sanityUnit_pc hx).1) with h | h <;> simp [h, opsToTerminal]
  · rcases settle_pc h (fun x hx => (assembleUnit_pc hx).1) with h | h <;> simp [h, opsToTerminal]
  · rcases settle_pc h (fun x hx => (validateUnit_pc hx).1) with h | h <;> simp [h, opsToTerminal]
  · injection h with h; subst h; simp [hpc, opsToTerminal]
  · injection h with h; subst h; simp [hpc, opsToTerminal]

/-- A lane with no unit to run stays as it is. -/
theorem advance_of_terminal {ln : Lane} (h : opsToTerminal ln.pc = 0) : ln.advance = some ln := by
  unfold Lane.advance
  cases hpc : ln.pc <;> simp_all [opsToTerminal]

/-- Once a lane has had its operations, one more changes nothing. -/
theorem advanceN_succ_eq (n : Nat) (ln : Lane) (h : opsToTerminal ln.pc ≤ n) : ln.advanceN (n+1) = ln.advanceN n := by
  induction n generalizing ln with
  | zero => simp [Lane.advanceN, advance_of_terminal (by omega : opsToTerminal ln.pc = 0)]
  | succ n ih =>
    show ln.advance.bind (Lane.advanceN (n+1)) = ln.advance.bind (Lane.advanceN n)
    cases ha : ln.advance with
    | none => rfl
    | some x =>
      have := opsToTerminal_advance ha
      exact ih x (by omega)

/-- Six operations suffice. -/
theorem opsToTerminal_le (st : LaneState) : opsToTerminal st ≤ 6 := by cases st <;> simp [opsToTerminal]

/-- A lane finishes with the same result one operation later. -/
theorem finish_advance {ln ln' : Lane} (h : ln.advance = some ln') : ln'.finish = ln.finish := by
  unfold Lane.finish
  rw [← advanceN_succ_eq 6 ln (opsToTerminal_le _), advanceN_succ_of h]

end Sys2Proof.Machine
end

