-- ==== Sys2Proof/Laws/Frames.lean ====
section
/-! SUPPORT. What each unit of a lane leaves as it was and which causes it gives, and what each operation of the block
leaves of a lane. -/

namespace Sys2Proof.Machine

/-- NORM writes `maxluma` and BR below the row's width. -/
theorem normUnit_frame {ln x : Lane} (h : normUnit ln = .ok x) :
    SameRegsExcept [.maxluma] ln x ∧ x.valid = ln.valid ∧ x.sr = ln.sr ∧
    ∀ j, ln.w.read ≤ j → x.br.read? j = ln.br.read? j := by
  unfold normUnit at h
  obtain ⟨m, hm, h⟩ := need_eq_ok h
  split at h
  · cases h
  · obtain ⟨bs, hm, h⟩ := need_eq_ok h; injection h with h; subst h
    have hl : ∀ (n i : Nat) (prev : Bin) (l : List Bin), classifyFrom ln.sr.read? m n i prev = some l →
      l.length = n := by
      intro n
      induction n with
      | zero => intro i p l h; injection h with h; subst h; rfl
      | succ n ih =>
        intro i p l h
        unfold classifyFrom at h
        split at h
        · cases h
        · next s hs =>
          cases h2 : classifyFrom ln.sr.read? m n (i+1) (classify m s.toNat p) with
          | none => rw [h2] at h; cases h
          | some l2 => rw [h2] at h; injection h with h; subst h; simp [ih _ _ _ h2]
    refine ⟨by simp [SameRegsExcept], rfl, rfl, fun j hj => ?_⟩
    rw [Memory.read?_writePrefix, if_neg (by rw [hl _ _ _ _ hm]; omega)]

/-- LOCATE writes two registers. -/
theorem locateUnit_frame {ln x : Lane} (h : locateUnit ln = .ok x) :
    SameRegsExcept [.startRunIn, .stopRunIn] ln x ∧ x.valid = ln.valid ∧ x.sr = ln.sr ∧ x.br = ln.br := by
  unfold locateUnit at h
  obtain ⟨m, hm, h⟩ := need_eq_ok h
  split at h
  · cases h
  · split at h
    · cases h
    · obtain ⟨bs, hm, h⟩ := need_eq_ok h
      split at h
      · cases h
      · split at h
        · injection h with h; subst h; exact ⟨by simp [SameRegsExcept], rfl, rfl, rfl⟩
        · cases h

/-- CALIB writes four registers. -/
theorem calibUnit_frame {ln x : Lane} (h : calibUnit ln = .ok x) :
    SameRegsExcept [.runInLength, .bitWidth, .riseIdx, .bitStart] ln x ∧ x.valid = ln.valid ∧ x.sr = ln.sr ∧
      x.br = ln.br := by
  unfold calibUnit at h
  obtain ⟨m, hm, h⟩ := need_eq_ok h
  split at h
  · cases h
  · injection h with h; subst h; exact ⟨by simp [SameRegsExcept], rfl, rfl, rfl⟩

/-- SANITY writes no register. -/
theorem sanityUnit_frame {ln x : Lane} (h : sanityUnit ln = .ok x) :
    SameRegsExcept [] ln x ∧ x.valid = ln.valid ∧ x.sr = ln.sr ∧ x.br = ln.br := by
  unfold sanityUnit at h
  obtain ⟨_, hw, h⟩ := Stage.bind_eq_ok h
  split at h
  · cases h
  · split at h
    · injection h with h; subst h; exact ⟨by simp [SameRegsExcept], rfl, rfl, rfl⟩
    · cases h

/-- ASSEMBLE writes three registers. -/
theorem assembleUnit_frame {ln x : Lane} (h : assembleUnit ln = .ok x) :
    SameRegsExcept [.byte0, .byte1, .par] ln x ∧ x.valid = ln.valid ∧ x.sr = ln.sr ∧ x.br = ln.br := by
  unfold assembleUnit at h
  obtain ⟨_, hw, h⟩ := Stage.bind_eq_ok h
  split at h
  · cases h
  · injection h with h; subst h; exact ⟨by simp [SameRegsExcept], rfl, rfl, rfl⟩

/-- VALIDATE writes the flag alone. -/
theorem validateUnit_frame {ln x : Lane} (h : validateUnit ln = .ok x) :
    SameRegsExcept [] ln x ∧ x.sr = ln.sr ∧ x.br = ln.br := by
  unfold validateUnit at h
  split at h
  · injection h with h; subst h; exact ⟨by simp [SameRegsExcept], rfl, rfl⟩
  · cases h

/-- A rejection comes after the value was there. -/
theorem need_eq_reject {α β} {o : Option α} {f : Fault} {k : α → Stage β} {c} (h : need o f k = .reject c) :
    ∃ a, k a = .reject c := by
  cases o with
  | none => cases h
  | some a => exact ⟨a, h⟩

/-- NORM's causes. -/
theorem normUnit_cause {ln c} (h : normUnit ln = .reject c) : c = .blankLine := by
  unfold normUnit at h
  obtain ⟨w, h⟩ := need_eq_reject h
  split at h
  · injection h with h; subst h; simp
  · obtain ⟨w, h⟩ := need_eq_reject h; cases h

/-- LOCATE's causes. -/
theorem locateUnit_cause {ln c} (h : locateUnit ln = .reject c) : c = .runInNotFound ∨ c = .runInOutOfRange := by
  unfold locateUnit at h
  obtain ⟨w, h⟩ := need_eq_reject h
  split at h
  · injection h with h; subst h; simp
  · split at h
    · injection h with h; subst h; simp
    · obtain ⟨w, h⟩ := need_eq_reject h
      split at h
      · injection h with h; subst h; simp
      · split at h
        · cases h
        · injection h with h; subst h; simp

/-- CALIB's cause. -/
theorem calibUnit_cause {ln c} (h : calibUnit ln = .reject c) : c = .startEdgeNotFound := by
  unfold calibUnit at h
  obtain ⟨w, h⟩ := need_eq_reject h
  split at h
  · injection h with h; subst h; simp
  · cases h

/-- SAMPLEBIT rejects nothing. -/
theorem sampleBitUnit_ne_reject {ln k c} : sampleBitUnit ln k ≠ .reject c := by
  intro h
  unfold sampleBitUnit at h
  dsimp only at h
  split at h
  · cases h
  · obtain ⟨w, h⟩ := need_eq_reject h; cases h

/-- Sampling rejects nothing. -/
theorem sampleAll_ne_reject {ln ks c} : sampleAll ln ks ≠ .reject c := by
  induction ks with
  | nil => intro h; cases h
  | cons k ks ih =>
    intro h
    unfold sampleAll at h
    cases h1 : sampleBitUnit ln k with
    | reject c => exact sampleBitUnit_ne_reject h1
    | fault f => rw [h1] at h; cases h
    | ok a =>
      rw [h1] at h
      cases h2 : sampleAll ln ks with
      | reject c' => rw [h2] at h; injection h with h; subst h; exact ih h2
      | fault f => rw [h2] at h; cases h
      | ok b => rw [h2] at h; cases h

/-- SANITY's causes. -/
theorem sanityUnit_cause {ln c} (h : sanityUnit ln = .reject c) : c = .outOfRange ∨ c = .sanityMismatch := by
  unfold sanityUnit at h
  cases h1 : sampleAll ln (Config.DEAD_BITS ++ [Config.START_BIT]) with
  | reject c' => exact absurd h1 sampleAll_ne_reject
  | fault f => rw [h1] at h; cases h
  | ok a =>
    rw [h1] at h; dsimp only [Stage.bind] at h
    split at h
    · injection h with h; subst h; simp
    · split at h
      · cases h
      · injection h with h; subst h; simp

/-- ASSEMBLE's cause. -/
theorem assembleUnit_cause {ln c} (h : assembleUnit ln = .reject c) : c = .outOfRange := by
  unfold assembleUnit at h
  cases h1 : sampleAll ln dataIndices with
  | reject c' => exact absurd h1 sampleAll_ne_reject
  | fault f => rw [h1] at h; cases h
  | ok a =>
    rw [h1] at h; dsimp only [Stage.bind] at h
    split at h
    · injection h with h; subst h; simp
    · cases h

/-- VALIDATE's cause. -/
theorem validateUnit_cause {ln c} (h : validateUnit ln = .reject c) : c = .parityMismatch := by
  unfold validateUnit at h
  split at h
  · cases h
  · injection h with h; subst h; rfl

/-- What a lane operation makes of its lane, and of nothing else. -/
theorem laneOp_lane {at_ : LaneState} {u : Lane →
    Stage Lane} {l : Nat} {s t : State} {ln ln' : Lane} (ht : laneOp at_ u l s = .next t)
   (hl : s.lane? l = some ln) (hl' : t.lane? l = some ln') : OnlyLane l s t ∧
    ((ln.pc ≠ at_ ∧ ln' = ln ∧ t = s) ∨ (ln.pc = at_ ∧ u ln = .ok ln' ∧ t = s.setLane l ln') ∨ (ln.pc = at_ ∧
      ∃ c, u ln = .reject c ∧ ln' = rejectEntry c ln ∧ t = s.setLane l ln')) := by
  obtain ⟨x, hx, ⟨h1, rfl⟩ | ⟨hpc, y, hok, rfl⟩ | ⟨hpc, c, hrej, rfl⟩⟩ := laneOp_next ht
  · rw [hl] at hx hl'; injection hx with hx; injection hl' with hl'; subst hx
    exact ⟨⟨rfl, rfl, fun _ _ => rfl⟩, .inl ⟨h1, hl'.symm, rfl⟩⟩
  · rw [hl] at hx; injection hx with hx; subst hx
    rw [State.lane?_setLane_self (State.lane?_lt hl)] at hl'; injection hl' with hl'; subst hl'
    exact ⟨OnlyLane.of_setLane _ _ _, .inr (.inl ⟨hpc, hok, rfl⟩)⟩
  · rw [hl] at hx; injection hx with hx; subst hx
    rw [State.lane?_setLane_self (State.lane?_lt hl)] at hl'; injection hl' with hl'; subst hl'
    exact ⟨OnlyLane.of_setLane _ _ _, .inr (.inr ⟨hpc, c, hrej, rfl, rfl⟩)⟩

/-- A lane keeps its registers where it stays. -/
theorem SameRegsExcept.refl (w : List RegName) (ln : Lane) : SameRegsExcept w ln ln := by simp [SameRegsExcept]

/-- What COLLECT makes of its lane and of the slots. -/
theorem collectAt_lane {at_ : LaneState} {l : Nat} {s t : State} {ln ln' : Lane} (ht : collectAt at_ l s = .next t)
   (hl : s.lane? l = some ln) (hl' : t.lane? l = some ln') : OnlyLane l s { t with rs := s.rs } ∧
    SameRegsExcept [] ln ln' ∧ ln'.valid = ln.valid ∧ ln'.sr = ln.sr ∧ ln'.br = ln.br ∧ (∀ i, ln.fidx.read ≠ i →
      t.rs.read? i = s.rs.read? i) ∧ (ln' = ln ∨ (ln.pc = at_ ∧ ln' = {ln with pc := .idle})) := by
  obtain ⟨x, hx, ⟨_, rfl⟩ | ⟨hpc, hlt, rfl⟩⟩ := collectAt_next ht
  · rw [hl] at hl'; injection hl' with hl'; subst hl'
    exact ⟨⟨rfl, rfl, fun _ _ => rfl⟩, SameRegsExcept.refl _ _, rfl, rfl, rfl, fun _ _ => rfl, .inl rfl⟩
  · rw [hl] at hx; injection hx with hx; subst hx
    change (s.setLane l _).lane? l = _ at hl'
    rw [State.lane?_setLane_self (State.lane?_lt hl)] at hl'; injection hl' with hl'; subst hl'
    refine ⟨OnlyLane.of_setLane _ _ _, SameRegsExcept.refl _ _, rfl, rfl, rfl, fun j hj => ?_, .inr ⟨hpc, rfl⟩⟩
    refine (Memory.read?_write _ _ _ _).trans (if_neg ?_)
    rintro rfl; exact hj rfl

/-- What LOAD makes of its lane and of the row-error cells. -/
theorem loadFrame_lane {s t : State} {l i : Nat} {ln ln' : Lane} (h : s.loadFrame l ln i = .next t)
    (hl : s.lane? l = some ln) (hl' : t.lane? l = some ln') :
    OnlyLane l s { t with errIndex := s.errIndex, rowError := s.rowError } ∧ t.disp = s.disp ∧
    ((∃ row, ln' = ln.loaded s.cfg i row ∧ t.errIndex = s.errIndex ∧ t.rowError = s.rowError) ∨
      ln' = ln.unavailable s.cfg i) := by
  obtain ⟨hd, hfl, ⟨row, hrow, rfl⟩ | ⟨hrow, rfl⟩⟩ := loadFrame_next h
  · rw [State.lane?_setLane_self (State.lane?_lt hl)] at hl'; injection hl' with hl'
    exact ⟨OnlyLane.of_setLane _ _ _, rfl, .inl ⟨row, hl'.symm, rfl, rfl⟩⟩
  · change (s.setLane l _).lane? l = _ at hl'
    rw [State.lane?_setLane_self (State.lane?_lt hl)] at hl'; injection hl' with hl'
    exact ⟨OnlyLane.of_setLane s l _, rfl, .inr hl'.symm⟩

end Sys2Proof.Machine
end

