-- ==== Sys2Proof/Laws/LaneInvariant.lean ====
section
/-! SUPPORT. The invariant of one lane: each unit, on a lane that meets it, completes or rejects, never faults, and leaves a
lane that meets it; and the bookkeeping of a block whose lane was replaced. -/

namespace Sys2Proof.Machine

/-- A lane whose BR is written below its width holds a Binary Row. -/
theorem exists_binaryRow {ln : Lane} {w : Nat} (hw : ln.w.value? = some w) (h : ln.br.definedBelow w) :
    ∃ bits, ln.binaryRow bits ∧ bits.length = w := by
  obtain ⟨bits, hl, hr⟩ := definedBelow_row h
  exact ⟨bits, ⟨by rw [Reg.read_of_value? hw, hl], fun j hj => hr j (by omega)⟩, hl⟩

/-- The reject entry leaves a lane that meets the invariant. -/
theorem rejectEntry_laneInv {p : Params} {ln : Lane} {c : Cause} (h : LaneInv p ln) (hpc : ln.pc ≠ .idle)
    (hc : c ≠ .none) :
    LaneInv p (rejectEntry c ln) where
  ranges := { h.ranges with byte0_le := by simp, byte1_le := by simp }
  ready := by simp [LaneReady]
  unwritten := by simp [LaneUnwritten]
  flags := fun _ => ⟨(h.flags hpc).1, by simp, by simp [hc]⟩
  sr_wf := h.sr_wf
  br_wf := h.br_wf

/-- NORM on a loaded lane. -/
theorem normUnit_laneInv {p : Params} {ln : Lane} (h : LaneInv p ln) (hpc : ln.pc = .start) :
    (∃ ln', normUnit ln = .ok ln' ∧ LaneInv p ln' ∧ ln'.pc = .normalized ∧ ln'.fidx = ln.fidx) ∨
    ∃ c, normUnit ln = .reject c ∧ c ≠ .none := by
  have hr := h.ready
  have hu := h.unwritten
  have hf := h.flags (by simp [hpc])
  simp only [LaneReady, hpc] at hr
  simp only [LaneUnwritten, hpc] at hu
  simp only [hpc] at hf
  obtain ⟨w, hw, hd⟩ := hr
  obtain ⟨row, hl, hrow⟩ := definedBelow_row hd
  have hs : ln.sampleRowIs row := ⟨by rw [Reg.read_of_value? hw, hl], fun j hj => hrow j (by omega)⟩
  rw [normUnit_row hs]
  have hwle := h.ranges.w_le w hw
  by_cases hp : peak row < Config.BLANK_MIN
  · exact .inr ⟨.blankLine, by rw [if_pos hp], by simp⟩
  · refine .inl ⟨_, if_neg hp, ?_, rfl, rfl⟩
    have hp32 : ¬ peak row < 32 := hp
    have := peak_lt row
    refine ⟨{ h.ranges with maxluma_ge := ?_ }, ?_, ?_, ?_, h.sr_wf, ?_⟩
    · intro m hm; injection hm with hm; subst hm; simp; omega
    · refine ⟨w, hw, fun j hj => ?_⟩
      rw [Memory.read?_writePrefix, if_pos (by rw [binarise_length]; omega)]
      simp [binarise_length]; omega
    · simp_all [LaneUnwritten]
    · intro _; simp_all
    · exact Memory.wf_writePrefix _ (by rw [binarise_length]; omega) h.br_wf

/-- LOCATE on a normalized lane. -/
theorem locateUnit_laneInv {p : Params} {ln : Lane} (h : LaneInv p ln) (hpc : ln.pc = .normalized) :
    (∃ ln', locateUnit ln = .ok ln' ∧ LaneInv p ln' ∧ ln'.pc = .runInFound ∧ ln'.fidx = ln.fidx) ∨
    ∃ c, locateUnit ln = .reject c ∧ c ≠ .none := by
  have hr := h.ready
  have hu := h.unwritten
  have hf := h.flags (by simp [hpc])
  simp only [LaneReady, hpc] at hr
  simp [LaneUnwritten, hpc] at hu
  simp only [hpc] at hf
  obtain ⟨w, hw, hd⟩ := hr
  obtain ⟨bits, hb, hl⟩ := exists_binaryRow hw hd
  rw [locateUnit_row hb]
  rcases hloc : locate bits with c | ⟨a, b⟩
  · refine .inr ⟨c, rfl, ?_⟩
    rcases locate_error hloc with rfl | rfl <;> simp
  · refine .inl ⟨_, rfl, ?_, rfl, rfl⟩
    obtain ⟨h1, h2, h3, h4⟩ := locate_ok hloc
    obtain ⟨h5, h6⟩ := thirteenthAt_shape h1.2.2.1 h3
    obtain ⟨hu1, ⟨hu2, hu3⟩, ⟨hu4, hu5, hu6⟩⟩ := hu
    refine ⟨{ h.ranges with start_le := ?_, stop_range := ?_, length_eq := ?_, width_eq := ?_, rise_range := ?_, bitStart_eq := ?_ }, ?_, ?_, ?_, h.sr_wf, h.br_wf⟩
    · intro x hx; injection hx with hx; subst hx; exact ⟨w, hw, by omega⟩
    · intro x hx; injection hx with hx; subst hx; exact ⟨w, a, hw, rfl, h6, by rwa [hl] at h4⟩
    · simp_all
    · simp_all
    · simp_all
    · simp_all
    · refine ⟨w, a, b, hw, rfl, rfl, hd, ?_⟩
      have := hb.2 b (h3.2.1)
      rw [getElem?_eq_bitAt h3.2.1, h5] at this; exact this
    · simp_all [LaneUnwritten]
    · intro _; simp_all

/-- CALIB on a lane whose run-in is found. -/
theorem calibUnit_laneInv {p : Params} {ln : Lane} (h : LaneInv p ln) (hpc : ln.pc = .runInFound) :
    (∃ ln', calibUnit ln = .ok ln' ∧ LaneInv p ln' ∧ ln'.pc = .calibrated ∧ ln'.fidx = ln.fidx) ∨
    ∃ c, calibUnit ln = .reject c ∧ c ≠ .none := by
  have hr := h.ready
  have hu := h.unwritten
  have hf := h.flags (by simp [hpc])
  simp only [LaneReady, hpc] at hr
  simp [LaneUnwritten, hpc] at hu
  simp only [hpc] at hf
  obtain ⟨w, a, b, hw, ha, hb', hd, hz⟩ := hr
  obtain ⟨bits, hb, hl⟩ := exists_binaryRow hw hd
  rw [calibUnit_row (bits := bits) (by rw [Reg.read_of_value? hw, hl]) (Reg.read_of_value? ha) (Reg.read_of_value? hb')
    (fun j _ hj => hb.2 j hj)]
  rcases hone : firstOne bits b with _ | r
  · exact .inr ⟨_, rfl, by simp⟩
  · refine .inl ⟨_, rfl, ?_, rfl, rfl⟩
    obtain ⟨h1, h2, h3, h4⟩ := firstOne_eq_some.mp hone
    have hne : b ≠ r := by
      intro he; subst he
      have := hb.2 b h2
      rw [getElem?_eq_bitAt h2, h3, hz] at this; cases this
    refine ⟨{ h.ranges with length_eq := ?_, width_eq := ?_, rise_range := ?_, bitStart_eq := ?_ }, ?_, ?_, ?_, h.sr_wf, h.br_wf⟩
    · intro x hx; injection hx with hx; subst hx; exact ⟨a, b, ha, hb', rfl⟩
    · intro x hx; injection hx with hx; subst hx; exact ⟨b - a, rfl, rfl⟩
    · intro x hx; injection hx with hx; subst hx; exact ⟨b, w, hb', hw, by omega, by omega⟩
    · intro x hx; injection hx with hx; subst hx; exact ⟨r, _, rfl, rfl, rfl⟩
    · exact ⟨w, _, _, hw, rfl, rfl, hd⟩
    · simp_all [LaneUnwritten]
    · intro _; simp_all

/-- SANITY on a calibrated lane. -/
theorem sanityUnit_laneInv {p : Params} {ln : Lane} (h : LaneInv p ln) (hpc : ln.pc = .calibrated) :
    (∃ ln', sanityUnit ln = .ok ln' ∧ LaneInv p ln' ∧ ln'.pc = .sanityChecked ∧ ln'.fidx = ln.fidx) ∨
    ∃ c, sanityUnit ln = .reject c ∧ c ≠ .none := by
  have hr := h.ready
  have hu := h.unwritten
  have hf := h.flags (by simp [hpc])
  simp only [LaneReady, hpc] at hr
  simp [LaneUnwritten, hpc] at hu
  simp only [hpc] at hf
  obtain ⟨w, bw, t, hw, hbw, ht, hd⟩ := hr
  obtain ⟨bits, hb, hl⟩ := exists_binaryRow hw hd
  rw [sanityUnit_row hb (Reg.read_of_value? ht) (Reg.read_of_value? hbw)]
  rcases hs : sanity bits t bw with c | _
  · exact .inr ⟨_, rfl, by rcases sanity_error hs with rfl | rfl <;> simp⟩
  · refine .inl ⟨_, rfl, ?_, rfl, rfl⟩
    refine ⟨{ h.ranges with }, ⟨w, bw, t, hw, hbw, ht, hd⟩, ?_, ?_, h.sr_wf, h.br_wf⟩
    · simp_all [LaneUnwritten]
    · intro _; simp_all

/-- ASSEMBLE on a lane whose pattern is right. -/
theorem assembleUnit_laneInv {p : Params} {ln : Lane} (h : LaneInv p ln) (hpc : ln.pc = .sanityChecked) :
    (∃ ln', assembleUnit ln = .ok ln' ∧ LaneInv p ln' ∧ ln'.pc = .bytesAssembled ∧ ln'.fidx = ln.fidx) ∨
    ∃ c, assembleUnit ln = .reject c ∧ c ≠ .none := by
  have hr := h.ready
  have hu := h.unwritten
  have hf := h.flags (by simp [hpc])
  simp only [LaneReady, hpc] at hr
  simp [LaneUnwritten, hpc] at hu
  simp only [hpc] at hf
  obtain ⟨w, bw, t, hw, hbw, ht, hd⟩ := hr
  obtain ⟨bits, hb, hl⟩ := exists_binaryRow hw hd
  rw [assembleUnit_row hb (Reg.read_of_value? ht) (Reg.read_of_value? hbw)]
  rcases hs : assemble bits t bw with c | ⟨b0, b1, par⟩
  · exact .inr ⟨_, rfl, by rw [assemble_error hs]; simp⟩
  · refine .inl ⟨_, rfl, ?_, rfl, rfl⟩
    have hb01 : b0.toNat ≤ 127 ∧ b1.toNat ≤ 127 := by
      simp only [assemble] at hs
      split at hs
      · cases hs
      · injection hs with hs; injection hs with h1 h2; injection h2 with h2 h3
        rw [← h1, ← h2]; exact ⟨groupByte_le _ _, groupByte_le _ _⟩
    refine ⟨{ h.ranges with byte0_le := ?_, byte1_le := ?_ }, ⟨_, _, _, rfl, rfl, rfl⟩, ?_, ?_, h.sr_wf, h.br_wf⟩
    · intro v hv; injection hv with hv; subst hv; exact hb01.1
    · intro v hv; injection hv with hv; subst hv; exact hb01.2
    · simp_all [LaneUnwritten]
    · intro _; simp_all

/-- VALIDATE on a lane that holds its bytes. -/
theorem validateUnit_laneInv {p : Params} {ln : Lane} (h : LaneInv p ln) (hpc : ln.pc = .bytesAssembled) :
    (∃ ln', validateUnit ln = .ok ln' ∧ LaneInv p ln' ∧ ln'.pc = .done ∧ ln'.fidx = ln.fidx) ∨
    ∃ c, validateUnit ln = .reject c ∧ c ≠ .none := by
  have hr := h.ready
  have hu := h.unwritten
  have hf := h.flags (by simp [hpc])
  simp only [LaneReady, hpc] at hr
  simp only [hpc] at hf
  obtain ⟨b0, b1, par, h0, h1, hp⟩ := hr
  rw [validateUnit_row (Reg.read_of_value? h0) (Reg.read_of_value? h1) (Reg.read_of_value? hp)]
  rcases hs : validate b0 b1 par with c | _
  · exact .inr ⟨_, rfl, by rw [validate_error hs]; simp⟩
  · refine .inl ⟨_, rfl, ?_, rfl, rfl⟩
    refine ⟨{ h.ranges with }, ⟨b0, b1, h0, h1⟩, ?_, ?_, h.sr_wf, h.br_wf⟩
    · simp [LaneUnwritten]
    · intro _; simp_all

/-- The number of lanes in use after one lane was replaced. -/
theorem nonIdle_length_set (lanes : List Lane) (l : Nat) (ln ln' : Lane) (h : lanes[l]? = some ln) :
    ((lanes.set l ln').filter (fun x => decide (x.pc ≠ .idle))).length + (if ln.pc = .idle then 0 else 1) =
    (lanes.filter (fun x => decide (x.pc ≠ .idle))).length + (if ln'.pc = .idle then 0 else 1) := by
  induction lanes generalizing l with
  | nil => simp at h
  | cons a r ih =>
    cases l with
    | zero =>
      simp at h; subst h
      simp only [List.set_cons_zero, List.filter_cons]
      by_cases h1 : a.pc = .idle <;> by_cases h2 : ln'.pc = .idle <;> simp [h1, h2]
    | succ l =>
      simp at h
      have := ih l h
      simp only [List.set_cons_succ, List.filter_cons]
      by_cases h1 : a.pc = .idle <;> simp [h1] at this ⊢ <;> omega

/-- Which lane holds which frame after one lane was replaced. -/
theorem State.holds_setLane {s : State} {l : Nat} {ln ln' : Lane} (hl : s.lane? l = some ln) (m i : Nat) :
    (s.setLane l ln').holds m i ↔ if m = l then ln'.pc ≠ .idle ∧ ln'.fidx.value? = some i else s.holds m i := by
  unfold State.holds
  rw [State.lane?_setLane hl]
  split <;> simp

/-- Which slots are full after a write. -/
theorem State.slotFull_write {s : State} {i : Nat} {slot : Slot} (t : State) (ht : t.rs = s.rs.write i slot)
    (j : Nat) :
    t.slotFull j = if j = i then slot.full else s.slotFull j := by
  unfold State.slotFull
  rw [ht, Memory.read?_write]
  by_cases h : j = i <;> simp [h]

/-- A usable row fits the lane. -/
theorem usableRow_le {p : Params} {a : ScanAnswer} {row : List Sample} (h : usableRow p a = some row) :
    row.length ≤ p.wmax := by
  unfold usableRow at h
  split at h
  · cases h
  · split at h
    · cases h
    · injection h with h; subst h; omega

/-- LOAD leaves a lane that meets the invariant. -/
theorem loaded_laneInv {p : Params} {ln : Lane} (h : LaneInv p ln) (i : Nat) {row : List Sample}
    (hr : row.length ≤ p.wmax) :
    LaneInv p (ln.loaded p i row) where
  ranges := by constructor <;> simp [hr]
  ready := by
    refine ⟨_, rfl, fun j hj => ?_⟩
    rw [Lane.loaded_sr, Memory.read?_writePrefix, if_pos hj]; simp [hj]
  unwritten := by simp [LaneUnwritten]
  flags := by intro _; simp
  sr_wf := Memory.wf_writePrefix _ hr h.sr_wf
  br_wf := h.br_wf

/-- LOAD without a row leaves a lane that meets the invariant. -/
theorem unavailable_laneInv {p : Params} {ln : Lane} (h : LaneInv p ln) (i : Nat) : LaneInv p (ln.unavailable p i) where
  ranges := by constructor <;> simp
  ready := by simp [LaneReady]
  unwritten := by simp [LaneUnwritten]
  flags := by intro _; simp
  sr_wf := h.sr_wf
  br_wf := h.br_wf

end Sys2Proof.Machine
end

