-- ==== Sys2Proof/Laws/PerInstr.lean ====
section
/-! SUPPORT. Families of statements about every instruction as syntax, one lemma per constructor. -/

namespace Sys2Proof.Laws

/-- The decoder reads back what the encoder writes. -/
def RoundTrip.Statement (i : Instr) : Prop := decode (encode i) = .ok i

theorem RoundTrip.load (lane i : Nat) : RoundTrip.Statement (.load lane i) := rfl
theorem RoundTrip.norm (lane : Nat) : RoundTrip.Statement (.norm lane) := rfl
theorem RoundTrip.locate (lane : Nat) : RoundTrip.Statement (.locate lane) := rfl
theorem RoundTrip.calib (lane : Nat) : RoundTrip.Statement (.calib lane) := rfl
theorem RoundTrip.sanity (lane : Nat) : RoundTrip.Statement (.sanity lane) := rfl
theorem RoundTrip.assemble (lane : Nat) : RoundTrip.Statement (.assemble lane) := rfl
theorem RoundTrip.validate (lane : Nat) : RoundTrip.Statement (.validate lane) := rfl
theorem RoundTrip.collectDone (lane : Nat) : RoundTrip.Statement (.collectDone lane) := rfl
theorem RoundTrip.collectRejected (lane : Nat) : RoundTrip.Statement (.collectRejected lane) := rfl
theorem RoundTrip.sampleBit (lane : Nat) (k : BitVec 5) : RoundTrip.Statement (.sampleBit lane k) := rfl
theorem RoundTrip.csrw (n : BitVec 3) (v : Nat) : RoundTrip.Statement (.csrw n v) := rfl
theorem RoundTrip.csrr (n : BitVec 3) : RoundTrip.Statement (.csrr n) := rfl
theorem RoundTrip.flw (i h : Nat) : RoundTrip.Statement (.flw i h) := rfl
theorem RoundTrip.nop : RoundTrip.Statement .nop := rfl
theorem RoundTrip.bstart : RoundTrip.Statement .bstart := rfl
theorem RoundTrip.dispatch (lane : Nat) : RoundTrip.Statement (.dispatch lane) := rfl
theorem RoundTrip.drain : RoundTrip.Statement .drain := rfl
theorem RoundTrip.bdone : RoundTrip.Statement .bdone := rfl

end Sys2Proof.Laws
end

