-- ==== Sys2Proof/Laws/Step.lean ====
section
/-! SUPPORT. What a turn comes to, and everything one step can do. -/

namespace Sys2Proof.Machine

/-- The state that a fetched turn carries. -/
def Fetched.state : Fetched → State
  | .rst s => s
  | .idle s => s
  | .selected _ s => s

/-- The inputs alone differ: the turns, the free counter, the commands waiting. -/
def SameButInputs (s t : State) : Prop :=
  t = { s with turns := t.turns, free := t.free, cmdWaiting := t.cmdWaiting } ∧ t.turns ⊆ s.turns

theorem SameButInputs.refl (s : State) : SameButInputs s s := ⟨rfl, fun _ h => h⟩

theorem takeTurn_inputs (s : State) : SameButInputs s s.takeTurn.2 := by
  unfold State.takeTurn
  split
  · next t rest h => exact ⟨rfl, fun x hx => by rw [h]; exact List.mem_cons_of_mem _ hx⟩
  · next h => exact ⟨rfl, fun x hx => hx⟩

/-- The state code of a lane state decodes to the operation that state enables (10_state.md R26). -/
theorem decode_state_code (l : Nat) (st : LaneState) :
    decode (.state l st.code) =
      match st with
      | .idle => .error .idleOutsideDispatch
      | .start => .ok (.norm l)
      | .normalized => .ok (.locate l)
      | .runInFound => .ok (.calib l)
      | .calibrated => .ok (.sanity l)
      | .sanityChecked => .ok (.assemble l)
      | .bytesAssembled => .ok (.validate l)
      | .done => .ok (.collectDone l)
      | .rejected => .ok (.collectRejected l) := by
  cases st <;> rfl

/-- What an agent selects is on the same state but for a command taken off the port. -/
theorem agentSelects_inputs (s : State) (a : Agent) : SameButInputs s (s.agentSelects a).state := by
  cases a with
  | lane l => unfold State.agentSelects; dsimp only; split <;> exact SameButInputs.refl s
  | dispatcher l => unfold State.agentSelects; dsimp only; split <;> exact SameButInputs.refl s
  | concatenator r =>
    unfold State.agentSelects; dsimp only
    split
    · exact SameButInputs.refl s
    · split <;> exact SameButInputs.refl s
  | commandPort =>
    unfold State.agentSelects; dsimp only
    split
    · exact ⟨rfl, fun _ h => h⟩
    · exact SameButInputs.refl s

theorem turnSelects_inputs (s : State) (t : Turn) : SameButInputs s (s.turnSelects t).state := by
  cases t with
  | own a => exact agentSelects_inputs s a
  | innerSample l k => unfold State.turnSelects; dsimp only; split <;> exact SameButInputs.refl s
  | _ => exact SameButInputs.refl s

theorem SameButInputs.trans {s t u : State} (h : SameButInputs s t) (h' : SameButInputs t u) : SameButInputs s u :=
  ⟨by have h1 := h'.1; rw [h.1] at h1; exact h1, fun _ hx => h.2 (h'.2 hx)⟩

/-- A fetch changes nothing but the inputs. -/
theorem fetch_inputs (s : State) : SameButInputs s s.fetch.state :=
  (takeTurn_inputs s).trans (turnSelects_inputs _ _)

/-- No turn selects LOAD: it runs only inside DISPATCH (45_frame_decoder.md R191). -/
theorem fetch_not_load {s s' : State} {sel : Selection} {l i : Nat} (h : s.fetch = .selected sel s') :
    decode sel ≠ .ok (.load l i) := by
  intro hd
  have hf : s.takeTurn.2.turnSelects s.takeTurn.1 = .selected sel s' := h
  generalize s.takeTurn.1 = t at hf
  generalize s.takeTurn.2 = s1 at hf
  have hcmd : ∀ op : BitVec 2, decode (.cmd op) ≠ .ok (.load l i) := by
    intro op; unfold decode; dsimp only; split <;> simp
  cases t with
  | own a =>
    cases a with
    | lane m =>
      simp only [State.turnSelects, State.agentSelects] at hf
      split at hf
      · next ln _ => injection hf with h1; subst h1; revert hd; rw [decode_state_code]; cases ln.pc <;> simp
      · cases hf
    | dispatcher m =>
      simp only [State.turnSelects, State.agentSelects] at hf
      split at hf
      · injection hf with h1; subst h1; cases hd
      · cases hf
    | concatenator r =>
      simp only [State.turnSelects, State.agentSelects] at hf
      split at hf
      · injection hf with h1; subst h1; cases hd
      · split at hf
        · injection hf with h1; subst h1; cases hd
        · cases hf
    | commandPort =>
      simp only [State.turnSelects, State.agentSelects] at hf
      split at hf
      · injection hf with h1; subst h1; exact hcmd _ hd
      · cases hf
  | csrw n v => injection hf with h1; subst h1; cases hd
  | csrr n => injection hf with h1; subst h1; cases hd
  | flw a b => injection hf with h1; subst h1; cases hd
  | cmd op => injection hf with h1; subst h1; exact absurd hd (hcmd op)
  | innerSample m k =>
    simp only [State.turnSelects] at hf
    split at hf
    · injection hf with h1; subst h1; cases hd
    · cases hf
  | rst => cases hf

/-- Everything one step can do when it answers a next state. -/
theorem step_next {s t : State} (h : step s = .next t) :
    (∃ s', s.fetch = .rst s' ∧ t = s'.afterRst) ∨
    (∃ s', s.fetch = .idle s' ∧ t = s') ∨
    (∃ sel s' i, s.fetch = .selected sel s' ∧ decode sel = .ok i ∧ exec i s' = .next t) ∨
    (∃ sel s' e, s.fetch = .selected sel s' ∧ decode sel = .error e ∧ t = s') := by
  unfold step at h
  split at h
  · next s' hf => injection h with h; exact .inl ⟨s', hf, h.symm⟩
  · next s' hf => injection h with h; exact .inr (.inl ⟨s', hf, h.symm⟩)
  · next sel s' hf =>
    split at h
    · next i hi => exact .inr (.inr (.inl ⟨sel, s', i, hf, hi, h⟩))
    · next e he =>
      cases e with
      | idleOutsideDispatch => injection h with h; exact .inr (.inr (.inr ⟨sel, s', _, hf, he, h.symm⟩))
      | laneNotIdle => injection h with h; exact .inr (.inr (.inr ⟨sel, s', _, hf, he, h.symm⟩))
      | reservedState => cases h

end Sys2Proof.Machine
end

