-- ==== Sys2Proof/Tests/Slice0.lean ====
section
/-! SUPPORT. Tests by hand from the spec's examples and vectors (95_test_vectors.md), and a witness for every statement
that has hypotheses. -/

namespace Sys2Proof.Tests

open Sys2Proof Sys2Proof.Machine

/-! ### Small states -/

/-- A block with two lanes, rows up to 64 samples, up to four frames. -/
def demoParams : Params := ⟨64, 2, 4, 8, 8⟩

def fresh : State := State.resetWith demoParams

/-- A lane of it after reset. -/
abbrev blank : Lane := Lane.reset demoParams

/-- The fresh block with `ln` as its lane 0. -/
def withLane (ln : Lane) : State := { fresh with lanes := [ln, blank] }

/-- Lane 0 after an operation. -/
def lane0 (i : Instr) (s : State) : Option Lane :=
  match exec i s with
  | .next t => t.lane? 0
  | .fault _ => none
  | .refused _ => none

/-- The state after an operation. -/
def after (i : Instr) (s : State) : Option State :=
  match exec i s with
  | .next t => some t
  | .fault _ => none
  | .refused _ => none

def runs (i : Instr) (s : State) : Bool := (after i s).isSome

def faults (o : Host.Outcome State Fault Refusal) : Option Fault :=
  match o with
  | .fault f => some f
  | .next _ => none
  | .refused _ => none

def memoryOf {α : Type} (as : List α) : Memory α := Memory.empty.writePrefix as

/-- V2.16: the narrowest row whose run-in can pass, W = 44, startRunIn = 0, stopRunIn = 13. -/
def narrow (tail : List Bin) : List Bin :=
  [true, false, true, false, true, false, true, false, true, false, true, false, true] ++ tail

/-- `ENC(52, 0, 1, 3, 2, 0x41, 0x01)`: a frame of two samples a bit; run-in [0, 13), dead space, start bit at 16. -/
def demoBits : List Bin :=
  narrow [false, false, false, true, true] ++
    ([true, false, false, false, false, false, true, true, true, false, false, false, false, false, false, false].map
      (fun b => [b, b])).flatten ++ [false, false]

/-- Its samples, 200 and 0. -/
def demoRow : List Sample := demoBits.map fun b => if b then 200#8 else 0#8

def startLane : Lane := blank.loaded demoParams 0 demoRow

/-- A lane that holds a Binary Row in the state `pc`. -/
def binLane (pc : LaneState) (bits : List Bin) : Lane :=
  { blank with pc := pc, fidx := .val 0, w := .val bits.length, br := memoryOf bits }

/-- A calibrated lane that holds the demo row: `riseIdx = 16`, `bitWidth = 2`, `bitStart = 18`. -/
def timedLane (pc : LaneState) (bits : List Bin) : Lane :=
  { binLane pc bits with
    startRunIn := .val 0, stopRunIn := .val 13, runInLength := .val 13, bitWidth := .val 2, riseIdx := .val 16
    bitStart := .val 18 }

/-- A lane that holds bytes. -/
def byteLane (pc : LaneState) (b0 b1 : RByte) (par : BitVec 2) (valid : Bool) (c : Cause) (i : Nat) : Lane :=
  { blank with
    pc := pc, fidx := .val i, byte0 := .val b0, byte1 := .val b1, par := .val par, valid := valid, cause := c }

/-! ### WellFormed: an ill-formed term for each check -/

theorem test_wf_load_lane : (Instr.load 2 0).wellFormed demoParams = false := by decide
theorem test_wf_load_index : (Instr.load 1 8).wellFormed demoParams = false := by decide
theorem test_wf_lane :
    [Instr.norm 2, .locate 2, .calib 2, .sanity 2, .assemble 2, .validate 2, .collectDone 2, .collectRejected 2,
      .sampleBit 2 0, .dispatch 2].all (fun i => i.wellFormed demoParams == false) = true := by decide
theorem test_wf_csrw : (Instr.csrw 0 256).wellFormed demoParams = false := by decide
theorem test_wf_flw_index : (Instr.flw 8 0).wellFormed demoParams = false := by decide
theorem test_wf_flw_handle : (Instr.flw 0 256).wellFormed demoParams = false := by decide
theorem test_wf_accepts :
    [Instr.load 1 7, .norm 1, .csrw 7 255, .csrr 7, .flw 7 255, .nop, .bstart, .sampleBit 0 16, .drain, .bdone].all
      (fun i => i.wellFormed demoParams) = true := by decide

/-! ### Decoding: the codes of 30_encoding.md R74, R82, R86, R87 written out -/

theorem test_decode_states :
    [0b0001#4, 0b0010#4, 0b0011#4, 0b0100#4, 0b0101#4, 0b0110#4, 0b0111#4, 0b1000#4].map
        (fun c => (decode (.state 1 c)).toOption) =
      [some (.norm 1), some (.locate 1), some (.calib 1), some (.sanity 1), some (.assemble 1), some (.validate 1),
        some (.collectDone 1), some (.collectRejected 1)] := by decide
theorem test_decode_load : (decode (.load 1 0b0000#4 3)).toOption = some (.load 1 3) := by decide
theorem test_decode_reserved_states :
    ([9#4, 10#4, 11#4, 12#4, 13#4, 14#4, 15#4].map fun c => (decode (.state 0 c)).toOption.isSome).any id = false := by
  decide
theorem test_decode_commands :
    [0b00#2, 0b01#2, 0b10#2, 0b11#2].map (fun c => (decode (.cmd c)).toOption) =
      [some .nop, some .bstart, some .nop, some .nop] := by decide
theorem test_decode_requests :
    [Selection.csrWrite 0b010#3 7, .csrRead 0b100#3, .flWrite 2 9].map (fun c => (decode c).toOption) =
      [some (.csrw 2 7), some (.csrr 4), some (.flw 2 9)] := by decide
theorem test_decode_conditions :
    [Selection.dispatch 1, .drain, .bdone].map (fun c => (decode c).toOption) =
      [some (.dispatch 1), some .drain, some .bdone] := by decide
theorem test_decode_bit_index : (decode (.bitIdx 0 0b11101#5)).toOption = some (.sampleBit 0 (BitVec.ofInt 5 (-3))) := by
  decide
theorem test_decode_table_state : decodeTableWord 8 0b0001 = some (.norm 0) := by decide
theorem test_decode_table_cmd : decodeTableWord 2 0b01 = some .bstart := by decide
theorem test_fetch_table_word :
    (match step (fresh.withFetchWord 2 0b01) with | .next t => t.busy | .fault _ => false | .refused _ => false) = true := by
  decide
/-- LOAD's word runs it inside DISPATCH, which counts it (R191, R216). -/
theorem test_fetch_load :
    (match step (State.withFetchWord { fresh with fl := ⟨[(0, 7)]⟩, sampler := [⟨7, 0, .samples [1, 2]⟩] } 8 0b0000) with
      | .next t => (t.lane? 0).map (fun ln => (ln.pc, ln.fidx.value?, t.disp)) | .fault _ => none | .refused _ => none) =
      some (.start, some 0, 1) := by decide
/-- A NORM that W, still NONE, makes scan nothing: the operation goes on with the bits held. -/
theorem test_fetch_norm :
    (match step (State.withFetchWord (withLane { blank with w := .none 0 }) 8 0b0001) with
      | .next t => (t.lane? 0).map (fun ln => (ln.pc, ln.cause)) | .fault _ => none | .refused _ => none) =
      some (.rejected, .blankLine) := by decide
/-- The slot word of V8.1 and V8.2. -/
theorem test_slot_word :
    Slot.toWord ⟨true, true, .none, 0x00#8, 0x41#8⟩ = 0x300041#22 ∧
      Slot.toWord ⟨true, false, .blankLine, 0#8, 0#8⟩ = 0x210000#22 := by decide
theorem test_slot_reserved_cause : Slot.ofWord 0x290000#22 = none := by decide

/-! ### One step of each operation -/

/-- V8.8: the least failing index, and the rejected lane. -/
theorem test_load_fail :
    (after (.load 0 3) { fresh with
        fl := ⟨[(3, 7)]⟩, sampler := [⟨7, 0, .fail⟩], rowError := true, errIndex := .val 5 }).map
      (fun t => (t.errIndex.value?, (t.lane? 0).map fun ln => (ln.fidx.value?, ln.cause, ln.pc))) =
      some (some 3, some (some 3, .rowUnavailable, .rejected)) := by decide
/-- LOAD keeps the elements of SR above the row (20_memory.md R64). -/
theorem test_load_row :
    (lane0 (.load 0 0) { withLane { blank with sr := memoryOf [9, 9, 9] } with
        fl := ⟨[(0, 7)]⟩, sampler := [⟨7, 0, .samples [1, 2]⟩] }).map
      (fun ln => (ln.pc, ln.w.value?, ln.sr.read? 1, ln.sr.read? 2)) = some (.start, some 2, some 2, some 9) := by decide
/-- V1.1, the example of 40_normalizer.md R101. -/
theorem test_norm_example :
    (lane0 (.norm 0) (withLane (blank.loaded demoParams 0 [0, 200, 100, 100, 80, 100]))).map
      (fun ln => (ln.pc, ln.maxluma.value?, ln.br)) =
      some (.normalized, some 200, memoryOf [false, true, true, true, false, false]) := by decide
/-- V1.2: a peak of 31 is blank. -/
theorem test_norm_blank :
    (lane0 (.norm 0) (withLane (blank.loaded demoParams 0 (List.replicate 10 31)))).map (fun ln => (ln.pc, ln.cause)) =
      some (.rejected, .blankLine) := by decide
/-- V2.16: W = 44, `130 <= 132`. -/
theorem test_locate_narrow :
    (lane0 (.locate 0) (withLane (binLane .normalized (narrow (List.replicate 31 false))))).map
      (fun ln => (ln.pc, ln.startRunIn.value?, ln.stopRunIn.value?)) = some (.runInFound, some 0, some 13) := by decide
/-- One sample less: `130 > 129`. -/
theorem test_locate_too_narrow :
    (lane0 (.locate 0) (withLane (binLane .normalized (narrow (List.replicate 30 false))))).map
      (fun ln => (ln.pc, ln.cause)) = some (.rejected, .runInOutOfRange) := by decide
/-- V3.2: L = 13, bitWidth = 2, riseIdx = 18, bitStart = 20. -/
theorem test_calib_narrow :
    (lane0 (.calib 0) (withLane { binLane .runInFound (narrow (List.replicate 5 false ++ List.replicate 26 true)) with
        startRunIn := .val 0, stopRunIn := .val 13 })).map
      (fun ln => (ln.runInLength.value?, ln.bitWidth.value?, ln.riseIdx.value?, ln.bitStart.value?)) =
      some (some 13, some 2, some 18, some 20) := by decide
theorem test_calib_no_edge :
    (lane0 (.calib 0) (withLane { binLane .runInFound (narrow (List.replicate 31 false)) with
        startRunIn := .val 0, stopRunIn := .val 13 })).map (fun ln => (ln.pc, ln.cause, ln.bitWidth.value?)) =
      some (.rejected, .startEdgeNotFound, none) := by decide
/-- V4.7: `5 - 12 + 2 = -5`. -/
theorem test_sampleBit_below :
    (after (.sampleBit 0 0b11101#5) (withLane { binLane .calibrated demoBits with
        bitStart := .val 5, bitWidth := .val 4 })).map (fun t => t.sampleOut) = some .outOfRange := by decide
/-- The start bit's midpoint, `18 - 2 + 1 = 17`. -/
theorem test_sampleBit_start :
    (after (.sampleBit 0 0b11111#5) (withLane (timedLane .calibrated demoBits))).map (fun t => t.sampleOut) =
      some .one := by decide
theorem test_sanity_passes :
    (lane0 (.sanity 0) (withLane (timedLane .calibrated demoBits))).map (fun ln => ln.pc) = some .sanityChecked := by decide
/-- A 1 in the dead space, at `18 - 4 + 1 = 15`. -/
theorem test_sanity_mismatch :
    (lane0 (.sanity 0) (withLane (timedLane .calibrated (demoBits.set 15 true)))).map (fun ln => (ln.pc, ln.cause)) =
      some (.rejected, .sanityMismatch) := by decide
theorem test_assemble_bytes :
    (lane0 (.assemble 0) (withLane (timedLane .sanityChecked demoBits))).map (fun ln => (ln.byte0.value?, ln.byte1.value?, ln.par.value?)) =
      some (some 0x41, some 0x01, some 0b01) := by decide
/-- The last midpoint, at 49, is outside a row of 49 samples. -/
theorem test_assemble_cropped :
    (lane0 (.assemble 0) (withLane (timedLane .sanityChecked (demoBits.take 49)))).map
      (fun ln => (ln.pc, ln.cause, ln.par.value?)) = some (.rejected, .outOfRange, none) := by decide
/-- V6.8: the largest result. -/
theorem test_validate_done :
    (lane0 (.validate 0) (withLane (byteLane .bytesAssembled 0x7F 0x7F 0b00 false .none 0))).map
      (fun ln => (ln.pc, ln.valid)) = some (.done, true) := by decide
/-- V6.7: the second group fails. -/
theorem test_validate_second :
    (lane0 (.validate 0) (withLane (byteLane .bytesAssembled 0x54 0x20 0b10 false .none 0))).map
      (fun ln => (ln.pc, ln.cause, ln.byte0.value?)) = some (.rejected, .parityMismatch, some 0) := by decide
/-- V8.1. -/
theorem test_collect_done :
    (after (.collectDone 0) (withLane (byteLane .done 0x41 0x00 0b11 true .none 1))).map
      (fun t => ((t.rs.read? 1).map Slot.toWord, (t.lane? 0).map fun ln => ln.pc)) =
      some (some 0x300041#22, some .idle) := by decide
/-- V8.2. -/
theorem test_collect_rejected :
    (after (.collectRejected 0) (withLane (byteLane .rejected 0 0 0 false .blankLine 0))).map
      (fun t => (t.rs.read? 0).map Slot.toWord) = some (some 0x210000#22) := by decide
theorem test_flw_writes : (after (.flw 2 9) fresh).map (fun t => t.fl.read? 2) = some (some 9) := by decide
theorem test_flw_busy : after (.flw 2 9) { fresh with busy := true } = some { fresh with busy := true } := rfl
/-- V8.4, with two lanes: 0 and 3 store 2, 1 stores 1. -/
theorem test_csrw_parLimit :
    [0, 1, 3].map (fun v => (after (.csrw 2 v) fresh).map fun t => t.parLimit) = [some 2, some 1, some 2] := by decide
/-- V8.7. -/
theorem test_csrw_readOnly : after (.csrw 3 7) fresh = some fresh := rfl
/-- V8.10: STATUS 101. -/
theorem test_csrr_status :
    (after (.csrr 3) { fresh with busy := true, rowError := true }).map (fun t => t.csrRdata) = some 5 := by decide
theorem test_csrr_reserved : (after (.csrr 7) { fresh with csrRdata := 3 }).map (fun t => t.csrRdata) = some 0 := by decide
theorem test_nop : after .nop fresh = some fresh := rfl
/-- BSTART clears `full` and keeps the rest of a slot. -/
theorem test_bstart :
    (after .bstart { fresh with rs := ⟨[(0, ⟨true, true, .none, 1, 2⟩)]⟩, batchDone := true, next := 1 }).map
      (fun t => (t.busy, t.batchDone, t.next, t.rs)) =
      some (true, false, 0, ⟨[(0, ⟨false, true, .none, 1, 2⟩)]⟩) := by decide
/-- Either idle lane may be chosen (46_batch_array.md R216). -/
theorem test_dispatch_lane1 :
    (after (.dispatch 1) { fresh with
        busy := true, batchN := 3, fl := ⟨[(0, 7)]⟩, sampler := [⟨7, 0, .samples [5]⟩] }).map
      (fun t => (t.disp, (t.lane? 1).map fun ln => (ln.pc, ln.fidx.value?), (t.lane? 0).map fun ln => ln.pc)) =
      some (1, some (.start, some 0), some .idle) := by decide
theorem test_dispatch_limit :
    (after (.dispatch 1) { withLane startLane with busy := true, batchN := 3, parLimit := 1, fl := ⟨[(0, 7)]⟩ }).map
      (fun t => t.disp) = some 0 := by decide
/-- The example of 46_batch_array.md R220. -/
theorem test_drain :
    (after .drain { fresh with
        busy := true, batchN := 3, next := 1, rs := ⟨[(1, ⟨true, true, .none, 0x00, 0x41⟩)]⟩ }).map
      (fun t => (t.next, t.out)) =
      some (2, [⟨0x41, true, .none, true, false⟩, ⟨0x00, true, .none, false, false⟩]) := by decide
/-- V8.5: the empty batch is done at once. -/
theorem test_bdone_empty : (after .bdone fresh.startBatch).map (fun t => t.status) = some 0b010#3 := by decide
theorem test_decodeFrame : decodeFrame demoRow = ⟨0x41, 0x01, true, .none⟩ := by decide +kernel

/-! ### Witnesses: a state and operands that meet the hypotheses of each statement -/

/-- The demo's frame is ready to be dispatched. -/
def ready : State :=
  { fresh with busy := true, batchN := 1, fl := ⟨[(0, 7)]⟩, sampler := [⟨7, 0, .samples demoRow⟩] }

theorem witness_reset : (1 < demoParams.p) ∧ fresh.lane? 1 = some blank ∧ Params.Ok ⟨1, 1, 1, 1, 1⟩ :=
  ⟨by decide, rfl, by decide⟩
theorem witness_step_clauses :
    ({ ready with turns := [.own (.lane 0)] } : State).lane? 0 = some blank ∧ 1 < ready.cfg.p ∧
    ({ ready with turns := [.cmd 1] } : State).fetch = .selected (.cmd 1) ready ∧
    (decode (.cmd 1)).toOption = some .bstart ∧ (decode (.state 0 startLane.pc.code)).toOption = some (.norm 0) ∧
    ready.turns = [] := ⟨rfl, by decide, rfl, by decide, by decide, rfl⟩
theorem witness_decode : (decode (.cmd 0b11#2)).toOption = some .nop := by decide
theorem witness_slot_word : Slot.ofWord 0x300041#22 = some ⟨true, true, .none, 0x00#8, 0x41#8⟩ := by decide
theorem witness_load :
    ready.lane? 0 = some blank ∧ blank.pc = .idle ∧ ready.fl.read? 0 = some 7 ∧
    ready.readScanline 7 = .samples demoRow ∧ demoRow.length ≤ ready.cfg.wmax := ⟨rfl, rfl, rfl, rfl, by decide⟩
theorem witness_load_widest :
    ({ fresh with sampler := [⟨7, 0, .samples (List.replicate 64 0)⟩] } : State).readScanline 7 =
      .samples (List.replicate 64 0) ∧ (List.replicate 64 (0 : Sample)).length ≤ fresh.cfg.wmax := by decide
theorem witness_load_fail :
    ({ ready with sampler := [⟨7, 0, .fail⟩] } : State).readScanline 7 = .fail ∧ ready.rowError = false := by decide
theorem witness_load_too_long :
    ({ ready with sampler := [⟨7, 0, .samples (List.replicate 65 0)⟩], rowError := true, errIndex := .val 0 }
        : State).readScanline 7 = .samples (List.replicate 65 0) ∧
      ready.cfg.wmax < (List.replicate 65 (0 : Sample)).length := by decide
theorem witness_collect :
    (withLane (byteLane .done 0x41 0 3 true .none 3)).lane? 0 = some (byteLane .done 0x41 0 3 true .none 3) ∧
    (withLane (byteLane .rejected 0 0 0 false .blankLine 0)).lane? 0 =
      some (byteLane .rejected 0 0 0 false .blankLine 0) ∧ 3 < fresh.cfg.nmax := ⟨rfl, rfl, by decide⟩
theorem witness_sampleRow (row : List Sample) (i : Nat) : (blank.loaded demoParams i row).sampleRowIs row :=
  ⟨rfl, fun j hj => by
    show (Memory.empty.writePrefix row).read? j = row[j]?
    rw [Memory.read?_writePrefix, if_pos hj]⟩
theorem witness_norm :
    (withLane startLane).lane? 0 = some startLane ∧ startLane.pc = .start ∧ startLane.sampleRowIs demoRow ∧
      32 ≤ peak demoRow := ⟨rfl, rfl, witness_sampleRow demoRow 0, by decide +kernel⟩
theorem witness_norm_edge : peak [31#8] < 32 ∧ 32 ≤ peak [32#8] ∧ peak [] < 32 := by decide
/-- Percentages 44, 45, 55 and 56 of a peak of 100. -/
theorem witness_hysteresis :
    ([44, 45, 55, 56, 100] : List Sample).map (fun s => 100 * s.toNat / 100) = [44, 45, 55, 56, 100] ∧
      ([44, 45, 55, 56, 100] : List Sample)[3]? = some 56 ∧ peak [44, 45, 55, 56, 100] = 100 := by decide
theorem witness_binaryRow (pc : LaneState) (bits : List Bin) : (binLane pc bits).binaryRow bits :=
  ⟨rfl, fun j hj => by
    show (Memory.empty.writePrefix bits).read? j = bits[j]?
    rw [Memory.read?_writePrefix, if_pos hj]⟩
/-- The narrowest run-in, at both ends of the band: W = 44 and W = 65. -/
theorem witness_locate :
    (withLane (binLane .normalized demoBits)).lane? 0 = some (binLane .normalized demoBits) ∧
    (binLane .normalized demoBits).binaryRow demoBits ∧
    [44, 65].all (fun w =>
      let bits := narrow (List.replicate (w - 13) false)
      firstOne bits 0 == some 0 && (transitionsAfter bits 0)[12]? == some 13 && decide (bits.length ≤ 5 * 13) &&
        decide (10 * 13 ≤ 3 * bits.length)) = true ∧
    FirstOneAt demoBits 0 0 ∧ ThirteenthAt demoBits 0 13 :=
  ⟨rfl, witness_binaryRow _ _, by decide, by unfold FirstOneAt; decide, by unfold ThirteenthAt; decide⟩
/-- No 1; a late start; too few transitions; a run-in outside the band (W = 43 and W = 66). -/
theorem witness_locate_rejects :
    (∀ j, j < [false, false].length → bitAt [false, false] j = false) ∧
    FirstOneAt [false, true] 0 1 ∧ [false, true].length < 20 * 1 ∧
    FirstOneAt [true, false] 0 0 ∧ transitionsBetween [true, false] 0 2 < 13 ∧
    ThirteenthAt (narrow (List.replicate 30 false)) 0 13 ∧ 3 * (narrow (List.replicate 30 false)).length < 10 * 13 ∧
    ThirteenthAt (narrow (List.replicate 53 false)) 0 13 ∧ 5 * 13 < (narrow (List.replicate 53 false)).length := by
  unfold FirstOneAt ThirteenthAt; decide
theorem witness_locate_ok :
    (match locateUnit (binLane .normalized demoBits) with | .ok _ => true | .reject _ => false | .fault _ => false) =
      true := by decide
theorem witness_calib :
    FirstOneAt demoBits 13 16 ∧ (timedLane .runInFound demoBits).stopRunIn.value? = some 13 ∧
    (timedLane .runInFound demoBits).startRunIn.value? = some 0 ∧ (timedLane .runInFound demoBits).binaryRow demoBits ∧
    ∀ j, 13 ≤ j → j < (narrow [false, false]).length → bitAt (narrow [false, false]) j = false :=
  ⟨by unfold FirstOneAt; decide, rfl, rfl, witness_binaryRow .runInFound _, by decide⟩
theorem witness_bitWidth : 13 ≤ 13 ∧ bitWidthOf 13 = 2 := by decide
/-- In range at the first and the last sample of a row of 4, and just outside at both ends (bitWidth 2, odd offsets). -/
theorem witness_sampleBit :
    (timedLane .calibrated demoBits).binaryRow demoBits ∧ (timedLane .sanityChecked demoBits).binaryRow demoBits ∧
    ((0 : Nat) : Int) = (1 : Nat) + (BitVec.toInt 0b11111#5) * (2 : Nat) + (2 : Nat) / 2 ∧
    ((3 : Nat) : Int) = (2 : Nat) + (BitVec.toInt 0b00000#5) * (2 : Nat) + (2 : Nat) / 2 ∧
    ((0 : Nat) : Int) + (BitVec.toInt 0b11111#5) * (2 : Nat) + (2 : Nat) / 2 < 0 ∧
    ((4 : Nat) : Int) ≤ (3 : Nat) + (BitVec.toInt 0b00000#5) * (2 : Nat) + (2 : Nat) / 2 :=
  ⟨witness_binaryRow .calibrated _, witness_binaryRow .sanityChecked _, by decide, by decide, by decide, by decide⟩
theorem witness_sanity :
    (withLane (timedLane .calibrated demoBits)).lane? 0 = some (timedLane .calibrated demoBits) ∧
    (timedLane .calibrated demoBits).binaryRow demoBits ∧ sampleRow demoBits 18 2 (-3) = .zero ∧
    sampleRow demoBits 18 2 (-2) = .zero ∧ sampleRow demoBits 18 2 (-1) = .one ∧
    sampleRow (demoBits.take 17) 18 2 (-1) = .outOfRange :=
  ⟨rfl, witness_binaryRow .calibrated _, by decide, by decide, by decide, by decide⟩
theorem witness_assemble :
    (withLane (timedLane .sanityChecked demoBits)).lane? 0 = some (timedLane .sanityChecked demoBits) ∧
    (timedLane .sanityChecked demoBits).binaryRow demoBits ∧
    (∀ k : Nat, k < 16 → sampleRow (demoBits.take 50) 18 2 k ≠ .outOfRange) ∧
    sampleRow (demoBits.take 49) 18 2 15 = .outOfRange := ⟨rfl, witness_binaryRow .sanityChecked _, by decide, by decide⟩
theorem witness_ranges : LaneRanges demoParams (timedLane .calibrated demoBits) where
  w_le := by intro w h; injection h with h; subst h; decide
  maxluma_ge := by intro m h; cases h
  start_le := by intro a h; injection h with h; subst h; exact ⟨_, rfl, by decide⟩
  stop_range := by intro b h; injection h with h; subst h; exact ⟨_, 0, rfl, rfl, by decide, by decide⟩
  length_eq := by intro b h; injection h with h; subst h; exact ⟨0, 13, rfl, rfl, rfl⟩
  width_eq := by intro b h; injection h with h; subst h; exact ⟨13, rfl, rfl⟩
  rise_range := by intro b h; injection h with h; subst h; exact ⟨13, _, rfl, rfl, by decide, by decide⟩
  bitStart_eq := by intro b h; injection h with h; subst h; exact ⟨16, 2, rfl, rfl, rfl⟩
  byte0_le := by intro v h; cases h
  byte1_le := by intro v h; cases h
theorem witness_offsets : (-3 : Int) ≤ -3 ∧ (15 : Int) ≤ 15 ∧ (timedLane .calibrated demoBits).bitStart.value? = some 18 ∧
    (timedLane .calibrated demoBits).bitWidth.value? = some 2 := by decide
theorem witness_validate :
    (withLane (byteLane .bytesAssembled 0x41 0 3 false .none 0)).lane? 0 =
      some (byteLane .bytesAssembled 0x41 0 3 false .none 0) ∧ BitVec.getLsbD (0x7F#8) 7 = false := ⟨rfl, by decide⟩
theorem witness_host_idle : fresh.busy = false ∧ 3 < fresh.cfg.nmax ∧ fresh.cfg.nmax ≤ 4 ∧ 255 < 2 ^ fresh.cfg.hw := by decide
theorem witness_host_busy : ready.busy = true ∧ 3 ≤ (3#3).toNat ∧ 3 ≤ (7#3).toNat := by decide
theorem witness_csrr :
    ({ ready with rowError := true, errIndex := .val 3 } : State).errIndex.value? = some 3 ∧ fresh.rowError = false := by decide
theorem witness_waiting : ({ fresh with cmdWaiting := 1 } : State).busy = false ∧ 0 < 1 ∧ ready.busy = true := by decide
theorem witness_dispatch :
    ready.lane? 1 = some blank ∧ ready.busy = true ∧ ready.disp < ready.batchN ∧ ready.nonIdle < ready.parLimit ∧
    ready.fl.read? ready.disp = some 7 ∧ ready.readScanline 7 = .samples demoRow :=
  ⟨rfl, rfl, by decide, by decide, rfl, rfl⟩
theorem witness_waits :
    fresh.busy = false ∧ fresh.batchN ≤ fresh.disp ∧ fresh.batchN ≤ fresh.next ∧ ready.slotFull ready.next = false ∧
    ready.next ≠ ready.batchN ∧ ({ ready with parLimit := 0 } : State).parLimit ≤ ready.nonIdle ∧
    (withLane startLane).lane? 0 = some startLane ∧ startLane.pc ≠ .idle :=
  ⟨rfl, by decide, by decide, by decide, by decide, by decide, rfl, by decide⟩
theorem witness_drain :
    ({ ready with rs := ⟨[(0, ⟨true, true, .none, 1, 2⟩)]⟩ } : State).rs.read? 0 = some ⟨true, true, .none, 1, 2⟩ ∧
      ready.next < ready.batchN := by decide
theorem witness_bdone : ({ ready with next := 1 } : State).next = ready.batchN ∧ ready.busy = true := by decide
/-- A lane with the demo row whose BR element `o` holds NONE. -/
def holeLane (pc : LaneState) (o : Nat) : Lane :=
  { timedLane pc demoBits with br := ⟨(memoryOf demoBits).cells.filter (fun c => decide (c.1 ≠ o))⟩ }
/-- Each operation reads an element that holds NONE: the first and a later one of LOCATE's two scans and of CALIB's, the
first and the last sample of SANITY and of ASSEMBLE. -/
theorem witness_read_of_none :
    fresh.lane? 0 = some blank ∧ fresh.fl.read? 0 = none ∧ ({ ready with fl := ⟨[]⟩ } : State).dispatchEnabled ∧
    faults (exec (.norm 0) (withLane { blank with pc := .start, w := .val 1 })) = some .readNoneSR ∧
    ([(Instr.locate 0, LaneState.normalized, 0), (.locate 0, .normalized, 5), (.calib 0, .runInFound, 13),
      (.calib 0, .runInFound, 15), (.sampleBit 0 0, .calibrated, 19), (.sanity 0, .calibrated, 13),
      (.sanity 0, .calibrated, 17), (.assemble 0, .sanityChecked, 19), (.assemble 0, .sanityChecked, 49)].all
      fun c => faults (exec c.1 (withLane (holeLane c.2.1 c.2.2))) == some .readNoneBR) = true :=
  ⟨rfl, rfl, by decide, by decide, by decide +kernel⟩
/-- The hypotheses of LOCATE's second scan, of CALIB's and of the samples, at those elements. -/
theorem witness_none_places :
    (bitAt (demoBits.take 5) 0 = true ∧ transitionsBetween (demoBits.take 5) 0 5 < 13 ∧
      20 * 0 ≤ (holeLane .normalized 5).w.read ∧ (demoBits.take 5).length < (holeLane .normalized 5).w.read) ∧
    [13, 14].map (holeLane .runInFound 15).br.read? = [some false, some false] ∧
    ((13 : Nat) : Int) = (18 : Nat) + (BitVec.toInt 0b11101#5) * (2 : Nat) + (2 : Nat) / 2 ∧
    ((17 : Nat) : Int) = (18 : Nat) + (BitVec.toInt 0b11111#5) * (2 : Nat) + (2 : Nat) / 2 ∧
    ((19 : Nat) : Int) = (18 : Nat) + (BitVec.toInt 0b00000#5) * (2 : Nat) + (2 : Nat) / 2 ∧
    ((49 : Nat) : Int) = (18 : Nat) + (BitVec.toInt 0b01111#5) * (2 : Nat) + (2 : Nat) / 2 ∧ 49 < demoBits.length := by
  decide +kernel
/-- VALIDATE and CSRR on registers that hold NONE over some bits. -/
theorem test_none_bits :
    (lane0 (.validate 0) (withLane { blank with
        pc := .bytesAssembled, byte0 := .none 0x41, byte1 := .none 0, par := .none 0b11 })).map (fun ln => ln.pc) = some .done ∧
    (after (.csrr 4) { fresh with rowError := true, errIndex := .none 3 }).map (fun t => t.csrRdata) = some 3 := by decide
theorem witness_rst : ({ ready with turns := [.rst] } : State).turns = [.rst] := by decide
theorem witness_rejection :
    runs (.norm 0) (withLane (blank.loaded demoParams 0 [31])) = true ∧
    (lane0 (.norm 0) (withLane (blank.loaded demoParams 0 [31]))).map (fun ln => ln.pc) = some .rejected ∧
    (blank.loaded demoParams 0 [31#8]).pc ≠ .rejected := by decide
theorem witness_lane_frame :
    (lane0 (.norm 0) (withLane startLane)).map (fun ln => ln.pc) = some .normalized ∧
    (lane0 (.collectRejected 0) (withLane (byteLane .rejected 0 0 0 false .blankLine 0))).map (fun ln => ln.pc) =
      some .idle := by decide +kernel
theorem witness_block_frame :
    ([.sampleBit 0 0, .csrw 0 1, .csrr 0, .flw 0 1, .nop, .bstart, .drain, .bdone].all fun i => runs i fresh) = true := by
  decide
theorem witness_load_frame :
    (lane0 (.dispatch 0) ready).map (fun ln => ln.pc) = some .start ∧
    (lane0 (.load 0 0) { ready with sampler := [⟨7, 0, .fail⟩] }).map (fun ln => ln.pc) = some .rejected := by decide
theorem witness_lane_states :
    (match step { withLane startLane with turns := [.own (.lane 0)] } with
      | .next t => (t.lane? 0).map (fun ln => ln.pc) | .fault _ => none | .refused _ => none) = some .normalized ∧
    ({ withLane startLane with turns := [.own (.lane 0)] } : State).takeTurn.1 ≠ .rst := by decide +kernel
theorem witness_terminal :
    (match step { withLane (byteLane .done 1 2 3 true .none 0) with turns := [.own (.lane 0)] } with
      | .next t => (t.lane? 0).map (fun ln => ln.byte1.value?) | .fault _ => none | .refused _ => none) = some (some 2) := by decide
theorem witness_frozen :
    (match step { ready with turns := [.csrw 1 9] } with
      | .next t => some t.row | .fault _ => none | .refused _ => none) = some 0 ∧ ready.busy = true := by decide
theorem witness_advance : (startLane.advance.map fun ln => ln.pc) = some .normalized := by decide +kernel
theorem witness_computes : startLane.pc = .start ∧ startLane.cause = .none ∧ startLane.sampleRowIs demoRow :=
  ⟨rfl, rfl, witness_sampleRow demoRow 0⟩
theorem witness_shape :
    (decodeFrame [31]).valid = false ∧ (decodeFrame demoRow).valid = true ∧ peak [31#8] < 32 := by decide +kernel
theorem witness_bytes : (0x7F#8).toNat ≤ 127 ∧ (0x41#8).toNat ≤ 127 := by decide

theorem witness_lane_reset (p : Params) : LaneInv p (Lane.reset p) where
  ranges := by constructor <;> simp
  ready := trivial
  unwritten := by simp [LaneUnwritten]
  flags := fun h => absurd rfl h
  sr_wf := rfl
  br_wf := rfl

/-- All lanes of a small state whose lanes are the reset ones. -/
theorem small_lane {s : State} (h : s.lanes = [blank, blank]) {l : Nat} {ln : Lane} (hl : s.lane? l = some ln) :
    ln = blank := by
  unfold State.lane? at hl
  rw [h] at hl
  match l, hl with
  | 0, hl => injection hl with hl; exact hl.symm
  | 1, hl => injection hl with hl; exact hl.symm
  | _ + 2, hl => cases hl

theorem small_holds {s : State} (h : s.lanes = [blank, blank]) (l i : Nat) : ¬ s.holds l i := by
  rintro ⟨ln, hl, hp, _⟩; rw [small_lane h hl] at hp; exact hp rfl

theorem witness_inv_fresh : Inv fresh where
  cfg_ok := by decide
  lanes_length := rfl
  lane_inv := fun l ln h => by rw [small_lane rfl h]; exact witness_lane_reset _
  fl_wf := rfl
  fl_handle := by intro i h hh; cases hh
  rs_wf := rfl
  slots_ok := by intro i slot hh; cases hh
  batchN_le := Nat.zero_le _
  row_lt := by decide
  parLimit_range := by decide
  not_busy_and_done := by decide
  errIndex_set := by intro h; cases h
  out_length := rfl
  idle_unless_busy := fun _ l ln h => by rw [small_lane rfl h]; rfl
  counters := by intro h; cases h
  emitted_full := by intro h; cases h
  undispatched_empty := by intro h; cases h
  held_pending := by intro h; cases h
  held_once := fun l _ i h => absurd h (small_holds rfl l i)
  dispatched_accounted := by intro h; cases h
  limit := by decide

/-- A batch of one frame whose handle is written, before its dispatch. -/
theorem witness_inv_ready : Inv ready :=
  { witness_inv_fresh with
    fl_handle := by
      intro i h hh
      change lookupCell i [(0, 7)] = some h at hh
      simp only [lookupCell] at hh
      split at hh
      · injection hh with hh; subst hh; decide
      · cases hh
    fl_wf := rfl
    batchN_le := by decide
    not_busy_and_done := by decide
    idle_unless_busy := by intro h; cases h
    counters := by decide
    emitted_full := by intro _ i hi; exact absurd hi (Nat.not_lt_zero i)
    undispatched_empty := fun _ _ _ => rfl
    held_pending := fun _ l i h => absurd h (small_holds rfl l i)
    held_once := fun l _ i h => absurd h (small_holds rfl l i)
    dispatched_accounted := by intro _ i hi; exact absurd hi (Nat.not_lt_zero i)
    limit := by decide }

theorem witness_progress : ready.busy = true ∧ ∀ i, i < ready.batchN → (ready.fl.read? i).isSome = true := by decide

/-- A lane starts at the dispatcher's turn, and stops at its own. -/
theorem witness_lane_starts :
    (match step { ready with turns := [.own (.dispatcher 0)] } with
      | .next t => (t.lane? 0).map (fun ln => (ln.pc, ln.fidx.value?)) | .fault _ => none | .refused _ => none) =
      some (.start, some 0) ∧
    (match step { withLane (byteLane .rejected 0 0 0 false .blankLine 0) with turns := [.own (.lane 0)] } with
      | .next t => (t.lane? 0).map (fun ln => (ln.pc, t.slotFull 0)) | .fault _ => none | .refused _ => none) =
      some (.idle, true) := by decide

/-- The same batch with the frame list unwritten, the dispatcher's turn next. -/
def unwritten : State := { ready with fl := Memory.empty, turns := [.own (.dispatcher 0)] }

theorem witness_inv_unwritten : Inv unwritten :=
  { witness_inv_ready with
    fl_wf := rfl
    fl_handle := by intro i h hh; cases hh }

theorem witness_fault : faults (step unwritten) = some .readNoneFL := by decide

/-- A batch of one frame whose row fails, drained, before BDONE. -/
def drained : State :=
  { ready with
    sampler := [⟨7, 0, .fail⟩], disp := 1, next := 1, rowError := true, errIndex := .val 0
    rs := ⟨[(0, ⟨true, false, .rowUnavailable, 0, 0⟩)]⟩
    out := slotBeats ⟨true, false, .rowUnavailable, 0, 0⟩ true }

theorem witness_inv_drained : Inv drained :=
  { witness_inv_ready with
    rs_wf := rfl
    slots_ok := by
      intro i slot hh
      change lookupCell i [(0, _)] = some slot at hh
      simp only [lookupCell] at hh
      split at hh
      · injection hh with hh; subst hh; unfold SlotOk; decide
      · cases hh
    errIndex_set := fun _ => ⟨0, rfl⟩
    out_length := rfl
    counters := by decide
    emitted_full := by intro _ i hi; change i < 1 at hi; rw [show i = 0 by omega]; rfl
    undispatched_empty := by
      intro _ i hi
      change 1 ≤ i at hi
      simp [State.slotFull, Memory.read?, drained, lookupCell, show i ≠ 0 by omega]
    held_pending := fun _ l i h => absurd h (small_holds rfl l i)
    dispatched_accounted := by intro _ i hi; change i < 1 at hi; rw [show i = 0 by omega]; exact .inl rfl }

theorem witness_batch_drained : BatchInv drained := by
  refine ⟨witness_inv_drained, fun _ => ⟨?_, ?_, by decide, ?_, ?_⟩⟩
  · intro l ln i h hp; rw [small_lane rfl h] at hp; exact absurd rfl hp
  · intro i slot hh _
    change lookupCell i [(0, _)] = some slot at hh
    simp only [lookupCell] at hh
    split at hh
    · next e => injection hh with hh; subst hh; subst e; exact ⟨_, rfl, rfl⟩
    · cases hh
  · exact ⟨fun _ => ⟨0, by decide, by decide⟩, fun _ => rfl⟩
  · intro _; exact ⟨0, rfl, by decide, by decide, fun i _ _ => Nat.zero_le i⟩

theorem witness_step_of_invariant :
    (match step { drained with turns := [.own (.concatenator false)] } with
      | .next t => t.batchDone | .fault _ => false | .refused _ => false) = true ∧ drained.next = drained.batchN := by decide

/-- Two lanes that both have an operation, and two loads of different lanes. -/
theorem witness_two_lanes :
    (after (.norm 0) { fresh with lanes := [startLane, startLane] }).bind (fun t => (after (.norm 1) t).map fun u =>
      u.lanes.map fun ln => ln.pc) = some [.normalized, .normalized] ∧
    (after (.load 0 0) { ready with fl := ⟨[(0, 7), (1, 7)]⟩, sampler := [⟨7, 0, .fail⟩] }).bind
      (fun t => (after (.load 1 1) t).map fun u => u.errIndex.value?) = some (some 0) := by decide +kernel

end Sys2Proof.Tests
end

section
/-! The reset state, and that an idle block does nothing of its own (10_state.md R46 to R48,
70_reset_and_hazards.md R271, R272). -/

namespace Sys2Proof

/-- The parameters of `State.reset` are successors, so they meet the constraints of R8. -/
theorem Config.params_ok : Config.params.Ok :=
  ⟨Nat.succ_pos _, Nat.succ_pos _, Nat.succ_pos _, Nat.succ_pos _, Nat.succ_pos _⟩

end Sys2Proof

namespace Sys2Proof.Machine

/-! ### The fields of the reset state -/

section ResetWith
variable (p : Params)

@[simp] theorem State.resetWith_cfg : (State.resetWith p).cfg = p := rfl
@[simp] theorem State.resetWith_lanes : (State.resetWith p).lanes = List.replicate p.p (Lane.reset p) := rfl
@[simp] theorem State.resetWith_fl : (State.resetWith p).fl = Memory.empty := rfl
@[simp] theorem State.resetWith_rs : (State.resetWith p).rs = Memory.empty := rfl
@[simp] theorem State.resetWith_out : (State.resetWith p).out = [] := rfl
@[simp] theorem State.resetWith_batchN : (State.resetWith p).batchN = 0 := rfl
@[simp] theorem State.resetWith_row : (State.resetWith p).row = 0 := rfl
@[simp] theorem State.resetWith_parLimit : (State.resetWith p).parLimit = p.p := rfl
@[simp] theorem State.resetWith_busy : (State.resetWith p).busy = false := rfl
@[simp] theorem State.resetWith_batchDone : (State.resetWith p).batchDone = false := rfl
@[simp] theorem State.resetWith_rowError : (State.resetWith p).rowError = false := rfl
@[simp] theorem State.resetWith_errIndex : (State.resetWith p).errIndex.value? = none := rfl
@[simp] theorem State.resetWith_next : (State.resetWith p).next = 0 := rfl
@[simp] theorem State.resetWith_disp : (State.resetWith p).disp = 0 := rfl
@[simp] theorem State.resetWith_cmdWaiting : (State.resetWith p).cmdWaiting = 0 := rfl
@[simp] theorem State.resetWith_status : (State.resetWith p).status = 0b000#3 := by
  simp [State.status]

/-- The lanes of the reset state are lanes 0 to `P - 1`, each the reset lane. -/
theorem State.resetWith_lane? (l : Nat) :
    (State.resetWith p).lane? l = if l < p.p then some (Lane.reset p) else none := by
  simp [State.lane?, List.getElem?_replicate]

end ResetWith

/-- A slot that nothing has written is not full. -/
theorem State.slotFull_of_unwritten {s : State} {i : Nat} (h : s.rs.read? i = none) : s.slotFull i = false := by
  simp [State.slotFull, h]

/-! ### A step by what its turn fetches -/

/-- A turn of one of the block's own agents fetches what that agent selects. -/
theorem fetch_withAgent (s : State) (a : Agent) : (s.withAgent a).fetch = s.agentSelects a := rfl

theorem step_of_fetch_idle {s s' : State} (hf : s.fetch = .idle s') : step s = .next s' := by
  simp [step, hf]

theorem step_of_fetch_selected {s s' : State} {sel : Selection} {i : Instr} (hf : s.fetch = .selected sel s')
    (hd : decode sel = .ok i) : step s = exec i s' := by
  simp [step, hf, hd]

/-- An idle lane selects no operation of its own (45_frame_decoder.md R191). -/
theorem step_of_fetch_idle_lane {s s' : State} {l : Nat} (hf : s.fetch = .selected (.state l LaneState.idle.code) s') :
    step s = .next s' := by
  simp [step, hf, decode_state_code, unselected]

/-! ### The batch's operations on a block that is not busy -/

theorem execDispatch_of_not_busy {s : State} {l : Nat} {ln : Lane} (hl : s.lane? l = some ln) (hb : s.busy = false) :
    execDispatch l s = .next s := by
  simp [execDispatch, hl, hb]

theorem execDrain_of_not_busy {s : State} (hb : s.busy = false) : execDrain s = .next s := by
  simp [execDrain, hb]

theorem execBdone_of_not_busy {s : State} (hb : s.busy = false) : execBdone s = .next s := by
  simp [execBdone, hb]

/-! ### A block with nothing to do -/

/-- No batch runs, no command waits at the port, and the `P` lanes are idle. -/
structure State.Quiescent (s : State) : Prop where
  not_busy : s.busy = false
  no_command : s.cmdWaiting = 0
  lane_exists : ∀ l, l < s.cfg.p → ∃ ln, s.lane? l = some ln
  lane_idle : ∀ l ln, s.lane? l = some ln → ln.pc = .idle

/-- R271: on a block with nothing to do, no agent has an enabled operation, so its turn changes nothing. -/
theorem State.Quiescent.step_withAgent {s : State} (hq : s.Quiescent) (a : Agent) :
    step (s.withAgent a) = .next s := by
  have hf := fetch_withAgent s a
  cases a with
  | lane l =>
    cases hl : s.lane? l with
    | none => exact step_of_fetch_idle (by simpa [State.agentSelects, hl] using hf)
    | some ln =>
      have hpc := hq.lane_idle l ln hl
      exact step_of_fetch_idle_lane (l := l) (by simpa [State.agentSelects, hl, hpc] using hf)
  | dispatcher l =>
    by_cases hl : l < s.cfg.p
    · obtain ⟨ln, hln⟩ := hq.lane_exists l hl
      calc step (s.withAgent (.dispatcher l))
        _ = execDispatch l s :=
          step_of_fetch_selected (sel := .dispatch l) (by simpa [State.agentSelects, hl] using hf) rfl
        _ = .next s := execDispatch_of_not_busy hln hq.not_busy
    · exact step_of_fetch_idle (by simpa [State.agentSelects, hl] using hf)
  | concatenator ready =>
    by_cases hn : s.next = s.batchN
    · calc step (s.withAgent (.concatenator ready))
        _ = execBdone s := step_of_fetch_selected (sel := .bdone) (by simpa [State.agentSelects, hn] using hf) rfl
        _ = .next s := execBdone_of_not_busy hq.not_busy
    · cases ready with
      | true =>
        calc step (s.withAgent (.concatenator true))
          _ = execDrain s := step_of_fetch_selected (sel := .drain) (by simpa [State.agentSelects, hn] using hf) rfl
          _ = .next s := execDrain_of_not_busy hq.not_busy
      | false => exact step_of_fetch_idle (by simpa [State.agentSelects, hn] using hf)
  | commandPort =>
    exact step_of_fetch_idle (by simpa [State.agentSelects, hq.no_command] using hf)

theorem State.resetWith_quiescent (p : Params) : (State.resetWith p).Quiescent where
  not_busy := rfl
  no_command := rfl
  lane_exists l hl := ⟨Lane.reset p, by simpa [State.resetWith_lane?] using hl⟩
  lane_idle l ln hl := by
    rw [State.resetWith_lane?] at hl
    split at hl
    · cases hl; rfl
    · cases hl

end Sys2Proof.Machine

namespace Sys2Proof.Proofs

open Sys2Proof Sys2Proof.Machine

/-- Settles O1: every lane below `P` is the reset lane, whose registers and memories the lemmas about `Lane.reset`
read off; the control registers are fields of the reset state. -/
theorem resetLeavesLanesAndRegisters : Obligations.ResetLeavesLanesAndRegisters := by
  unfold Obligations.ResetLeavesLanesAndRegisters
  refine ⟨rfl, Config.params_ok, fun p => ⟨fun l hl => ?lanes, ?registers⟩⟩
  case lanes =>
    have hlane : (State.resetWith p).lane? l = some (Lane.reset p) := by simp [State.resetWith_lane?, hl]
    exact ⟨Lane.reset p, hlane, by simp⟩
  case registers => simp

/-- Settles O2: the memories are empty, and the reset state is a block with nothing to do, on which a turn of any
agent changes nothing. -/
theorem resetLeavesMemoriesAndIdleBlock : Obligations.ResetLeavesMemoriesAndIdleBlock := by
  unfold Obligations.ResetLeavesMemoriesAndIdleBlock
  intro p
  have hslot : ∀ i, (State.resetWith p).rs.read? i = none := by simp
  exact ⟨by simp, fun i => ⟨State.slotFull_of_unwritten (hslot i), hslot i⟩, State.resetWith_out p,
    (State.resetWith_quiescent p).step_withAgent⟩

end Sys2Proof.Proofs
end

section
/-! NORM, the Signal Normalizer: the peak, the classification of one sample and of a row, and the unit on a blank and on
a bright row (40_normalizer.md R101 to R106). -/

namespace Sys2Proof.Machine

/-! ### The peak -/

theorem max?_eq_peak {row : List Sample} (hne : row ≠ []) : (row.map BitVec.toNat).max? = some (peak row) := by
  cases row with
  | nil => exact absurd rfl hne
  | cons s rest =>
    rw [List.map_cons, List.max?_cons', List.foldl_map]
    simp [peak]

theorem le_peak {row : List Sample} {s : Sample} (hs : s ∈ row) : s.toNat ≤ peak row :=
  (List.max?_eq_some_iff.mp (max?_eq_peak (List.ne_nil_of_mem hs))).2 s.toNat (List.mem_map_of_mem hs)

theorem exists_mem_toNat_eq_peak {row : List Sample} (hne : row ≠ []) : ∃ s ∈ row, s.toNat = peak row :=
  List.mem_map.mp (List.max?_eq_some_iff.mp (max?_eq_peak hne)).1

/-! ### The classification of one sample, by its percentage of the peak (R104) -/

theorem classify_of_le {m s : Nat} {prev : Bin} (h : 100 * s / m ≤ 44) : classify m s prev = false := by
  have hband : ¬(45 ≤ 100 * s / m ∧ 100 * s / m ≤ 55) := by omega
  have hsplit : ¬100 * s / m > 50 := by omega
  exact (if_neg hband).trans (if_neg hsplit)

theorem classify_of_ge {m s : Nat} {prev : Bin} (h : 56 ≤ 100 * s / m) : classify m s prev = true := by
  have hband : ¬(45 ≤ 100 * s / m ∧ 100 * s / m ≤ 55) := by omega
  have hsplit : 100 * s / m > 50 := by omega
  exact (if_neg hband).trans (if_pos hsplit)

theorem classify_of_band {m s : Nat} {prev : Bin} (hlo : 45 ≤ 100 * s / m) (hhi : 100 * s / m ≤ 55) :
    classify m s prev = prev :=
  if_pos ⟨hlo, hhi⟩

/-! ### The classification of a row (R103) -/

@[simp] theorem bitAt_cons_zero (b : Bin) (bits : List Bin) : bitAt (b :: bits) 0 = b := rfl
@[simp] theorem bitAt_cons_succ (b : Bin) (bits : List Bin) (j : Nat) : bitAt (b :: bits) (j + 1) = bitAt bits j := rfl

theorem bitAt_cons (b : Bin) (bits : List Bin) (j : Nat) :
    bitAt (b :: bits) j = if j = 0 then b else bitAt bits (j - 1) := by
  cases j <;> simp

/-- The value carried to sample `j` is bit `j` of the Binary Row with the first carry put before it. -/
theorem bitAt_binarise {m j : Nat} {prev : Bin} {row : List Sample} {s : Sample} (hs : row[j]? = some s) :
    bitAt (binarise m prev row) j = classify m s.toNat (bitAt (prev :: binarise m prev row) j) := by
  induction row generalizing j prev with
  | nil => simp at hs
  | cons first rest ih =>
    cases j with
    | zero =>
      obtain rfl : first = s := by simpa using hs
      rfl
    | succ j => exact ih (by simpa using hs)

/-! ### The unit -/

theorem exec_norm (l : Nat) (s : State) : exec (.norm l) s = laneOp .start normUnit l s := rfl

theorem normUnit_blank {ln : Lane} {row : List Sample} (hrow : ln.sampleRowIs row) (hpeak : peak row < 32) :
    normUnit ln = .reject .blankLine :=
  (normUnit_row hrow).trans (if_pos hpeak)

/-- What NORM writes; what it leaves as it was is `normUnit_frame`. -/
theorem normUnit_bright {ln : Lane} {row : List Sample} (hrow : ln.sampleRowIs row) (hpeak : 32 ≤ peak row) :
    ∃ ln', normUnit ln = .ok ln' ∧ ln'.maxluma = .val (BitVec.ofNat 8 (peak row)) ∧ ln'.pc = .normalized ∧
      ∀ j, j < row.length → ln'.br.read? j = (binarise (peak row) false row)[j]? := by
  have hbright : ¬peak row < Config.BLANK_MIN := Nat.not_lt.mpr hpeak
  refine ⟨_, (normUnit_row hrow).trans (if_neg hbright), rfl, rfl, fun j hj => ?_⟩
  rw [Memory.read?_writePrefix, binarise_length, if_pos hj]

end Sys2Proof.Machine

namespace Sys2Proof.Proofs

open Sys2Proof Sys2Proof.Machine

/-- Settles O12: the unit rejects a blank row, which is the reject entry on the lane; on a bright row it writes what
`normUnit_bright` says and leaves what `normUnit_frame` says. -/
theorem normClassifiesRow : Obligations.NormClassifiesRow := by
  unfold Obligations.NormClassifiesRow
  intro s l ln row hl hpc hrow
  simp only [exec_norm]
  refine ⟨fun hblank => laneOp_reject hl hpc (normUnit_blank hrow hblank), fun hbright => ?_⟩
  obtain ⟨ln', hunit, hmax, hpc', hbr⟩ := normUnit_bright hrow hbright
  obtain ⟨hregs, hvalid, hsr, habove⟩ := normUnit_frame hunit
  obtain ⟨hw, -⟩ := hrow
  exact ⟨ln', laneOp_ok hl hpc hunit, hregs, hmax, hvalid, hpc', hsr, hbr, hw ▸ habove⟩

/-- Settles O13: the peak is the maximum of the row's samples, and each bit is the classification of its sample with
the bit before it carried, 0 at first. -/
theorem binaryRowFollowsHysteresis : Obligations.BinaryRowFollowsHysteresis := by
  unfold Obligations.BinaryRowFollowsHysteresis
  intro row
  refine ⟨fun s hs => le_peak hs, fun hnil => by rw [hnil]; rfl, exists_mem_toNat_eq_peak, fun m j s hs => ?_⟩
  rw [bitAt_binarise hs]
  refine ⟨classify_of_le, classify_of_ge, fun hlo hhi => ?_⟩
  rw [classify_of_band hlo hhi, bitAt_cons]

end Sys2Proof.Proofs
end

section
/-! LOCATE, the Run-In Locator: the tests of `locate` in their order, each with the cause it rejects with
(41_runin_locator.md R126). -/

namespace Sys2Proof.Machine

/-! ### The function of the row, test by test -/

section LocateTests
variable {bits : List Bin} {start stop : Nat}

/-- R122, first test: there is no 1. -/
theorem locate_of_no_one (hnone : ∀ j, j < bits.length → bitAt bits j = false) :
    locate bits = .error .runInNotFound := by
  have hscan : firstOne bits 0 = none := firstOne_eq_none.mpr fun j _ hj => hnone j hj
  simp [locate, hscan]

/-- R122, second test: the first 1 comes too late. -/
theorem locate_of_late_start (hone : FirstOneAt bits 0 start) (hlate : bits.length < 20 * start) :
    locate bits = .error .runInOutOfRange := by
  simp [locate, firstOne_eq_some.mpr hone, hlate]

/-- Past the first two tests, the outcome is that of the scan for the 13th transition. -/
theorem locate_of_good_start (hone : FirstOneAt bits 0 start) (hgood : 20 * start ≤ bits.length) :
    locate bits =
      match (transitionsAfter bits start)[12]? with
      | none => .error .runInNotFound
      | some stop => if stopInBand bits.length stop then .ok (start, stop) else .error .runInOutOfRange := by
  have htime : ¬startTooLate bits.length start := Nat.not_lt.mpr hgood
  simp only [locate, firstOne_eq_some.mpr hone, if_neg htime]
  rfl

/-- R123, third test: the row holds fewer than 13 transitions after the start. -/
theorem locate_of_few_transitions (hone : FirstOneAt bits 0 start) (hgood : 20 * start ≤ bits.length)
    (hfew : transitionsBetween bits start bits.length < 13) : locate bits = .error .runInNotFound := by
  have hscan : (transitionsAfter bits start)[12]? = none := List.getElem?_eq_none (Nat.le_of_lt_succ hfew)
  rw [locate_of_good_start hone hgood, hscan]

/-- R125, fourth test: the 13th transition is outside the band. -/
theorem locate_of_stop_outside_band (hone : FirstOneAt bits 0 start) (hgood : 20 * start ≤ bits.length)
    (hstop : ThirteenthAt bits start stop) (houtside : 5 * stop < bits.length ∨ 3 * bits.length < 10 * stop) :
    locate bits = .error .runInOutOfRange := by
  have hband : ¬stopInBand bits.length stop := by omega
  rw [locate_of_good_start hone hgood, transitionsAfter_getElem?.mpr hstop]
  exact if_neg hband

end LocateTests

/-! ### The operation on a lane that holds a Binary Row -/

theorem exec_locate (l : Nat) (s : State) : exec (.locate l) s = laneOp .normalized locateUnit l s := rfl

/-- Where the function of the row rejects, LOCATE enters `S_REJECTED` with the same cause. -/
theorem exec_locate_of_error {s : State} {l : Nat} {ln : Lane} {bits : List Bin} {c : Cause}
    (hl : s.lane? l = some ln) (hpc : ln.pc = .normalized) (hrow : ln.binaryRow bits) (herr : locate bits = .error c) :
    exec (.locate l) s = .next (s.setLane l (rejectEntry c ln)) := by
  have hunit : locateUnit ln = .reject c := by rw [locateUnit_row hrow, herr]
  rw [exec_locate, laneOp_reject hl hpc hunit]

end Sys2Proof.Machine

namespace Sys2Proof.Proofs

open Sys2Proof Sys2Proof.Machine

/-- Settles O17: LOCATE rejects as the function of the row does, and that rejects with the cause of its first failing
test. -/
theorem locateRejectsInOrder : Obligations.LocateRejectsInOrder := by
  unfold Obligations.LocateRejectsInOrder
  intro s l ln bits hl hpc hrow
  have hreject {c : Cause} (herr : locate bits = .error c) :
      exec (.locate l) s = .next (s.setLane l (rejectEntry c ln)) := exec_locate_of_error hl hpc hrow herr
  refine ⟨fun hnone => hreject (locate_of_no_one hnone), fun start hone => ⟨fun hlate => ?late, ?few, ?band⟩⟩
  case late => exact hreject (locate_of_late_start hone hlate)
  case few => exact fun hgood hfew => hreject (locate_of_few_transitions hone hgood hfew)
  case band =>
    exact fun stop hgood hstop houtside => hreject (locate_of_stop_outside_band hone hgood hstop houtside)

end Sys2Proof.Proofs
end

section
/-! CALIB, the Timing Calibrator: the arithmetic of the bit width, and the operation on a Binary Row with and without a
rising edge at or after stopRunIn (42_timing_calibrator.md R140 to R145). -/

namespace Sys2Proof.Machine

/-! ### The bit width (R142) -/

section BitWidth
variable (len : Nat)

theorem bitWidthOf_lower : 38 * len ≤ 251 * bitWidthOf len := by
  rw [bitWidthOf]; omega

theorem bitWidthOf_upper : 251 * bitWidthOf len < 38 * len + 251 := by
  rw [bitWidthOf]; omega

theorem two_le_bitWidthOf (hlen : 13 ≤ len) : 2 ≤ bitWidthOf len := by
  have hlow := bitWidthOf_lower len
  omega

/-- 38 and 251 are coprime, so the integer form is exact just where the run-in length is a multiple of 251. -/
theorem bitWidthOf_exact_iff : 251 * bitWidthOf len = 38 * len ↔ 251 ∣ len := by
  have hcoprime : Nat.Coprime 251 38 := by decide
  rw [← hcoprime.dvd_mul_left]
  constructor
  · exact fun heq => ⟨bitWidthOf len, heq.symm⟩
  · rintro ⟨q, hq⟩
    have hlow := bitWidthOf_lower len
    have hup := bitWidthOf_upper len
    omega

/-- The data span: 0.251 of it is the run-in. -/
theorem dataSpan_eq : (len : ℚ) / (251 / 1000) = 1000 * len / 251 := by ring

/-- The two bounds say that the integer form is the ceiling of `38 L / 251`. -/
theorem bitWidthOf_eq_ceil : (bitWidthOf len : ℤ) = ⌈((len : ℚ) / (251 / 1000)) * (38 / 1000)⌉ := by
  have hlow : (38 * len : ℚ) ≤ 251 * bitWidthOf len := mod_cast bitWidthOf_lower len
  have hup : (251 * bitWidthOf len : ℚ) < 38 * len + 251 := mod_cast bitWidthOf_upper len
  rw [dataSpan_eq, eq_comm, Int.ceil_eq_iff, Int.cast_natCast]
  constructor <;> linarith

end BitWidth

/-! ### The operation on a lane that holds a Binary Row from stopRunIn on -/

theorem exec_calib (l : Nat) (s : State) : exec (.calib l) s = laneOp .runInFound calibUnit l s := rfl

section CalibUnit
variable {ln : Lane} {bits : List Bin} {start stop : Nat}

/-- R143, R145: the timing is taken from the first 1 at or after stopRunIn. -/
theorem calibUnit_of_edge {rise : Nat} (hw : ln.w.read = bits.length) (hstart : ln.startRunIn.read = start)
    (hstop : ln.stopRunIn.read = stop) (hrow : ∀ j, stop ≤ j → j < bits.length → ln.br.read? j = bits[j]?)
    (hrise : FirstOneAt bits stop rise) :
    calibUnit ln = .ok { ln with
      runInLength := .val (stop - start)
      bitWidth := .val (bitWidthOf (stop - start))
      riseIdx := .val rise
      bitStart := .val (rise + bitWidthOf (stop - start))
      pc := .calibrated } := by
  rw [calibUnit_row hw hstart hstop hrow, firstOne_eq_some.mpr hrise]

/-- R144: no 1 at or after stopRunIn. -/
theorem calibUnit_of_no_edge (hw : ln.w.read = bits.length) (hstop : ln.stopRunIn.read = stop)
    (hrow : ∀ j, stop ≤ j → j < bits.length → ln.br.read? j = bits[j]?)
    (hnone : ∀ j, stop ≤ j → j < bits.length → bitAt bits j = false) :
    calibUnit ln = .reject .startEdgeNotFound := by
  rw [calibUnit_row hw rfl hstop hrow, firstOne_eq_none.mpr hnone]

end CalibUnit

end Sys2Proof.Machine

namespace Sys2Proof.Proofs

open Sys2Proof Sys2Proof.Machine

/-- Settles O19: the unit's two outcomes, by its scan for the first 1 at or after stopRunIn, put on the lane. -/
theorem calibDerivesTiming : Obligations.CalibDerivesTiming := by
  unfold Obligations.CalibDerivesTiming
  intro s l ln bits start stop hl hpc hw hstart hstop _ hrow
  simp only [exec_calib]
  refine ⟨fun rise hrise => ?edge, fun hnone => ?noEdge⟩
  case edge => exact laneOp_ok hl hpc (calibUnit_of_edge hw hstart hstop hrow hrise)
  case noEdge => exact laneOp_reject hl hpc (calibUnit_of_no_edge hw hstop hrow hnone)

/-- Settles O20: the integer form lies between its two bounds, which makes it the ceiling; the sample values are
computed. -/
theorem bitWidthIsExactCeiling : Obligations.BitWidthIsExactCeiling := by
  unfold Obligations.BitWidthIsExactCeiling
  refine ⟨fun len => ?_, by decide⟩
  exact ⟨bitWidthOf_eq_ceil len, dataSpan_eq len, rfl, two_le_bitWidthOf len, bitWidthOf_lower len, bitWidthOf_upper len,
    bitWidthOf_exact_iff len⟩

end Sys2Proof.Proofs
end

section
/-! SANITY, ASSEMBLE and VALIDATE, the Byte Assembler & Validator: each function of the row or of the bytes by its tests,
and the bits that ASSEMBLE puts in the bytes and in `par` (44_byte_assembler.md R171 to R180). -/

namespace Sys2Proof.Machine

theorem exec_sanity (l : Nat) (s : State) : exec (.sanity l) s = laneOp .calibrated sanityUnit l s := rfl
theorem exec_assemble (l : Nat) (s : State) : exec (.assemble l) s = laneOp .sanityChecked assembleUnit l s := rfl
theorem exec_validate (l : Nat) (s : State) : exec (.validate l) s = laneOp .bytesAssembled validateUnit l s := rfl

/-! ### SANITY, test by test -/

section SanityTests
variable {bits : List Bin} {bs bw : Nat}

/-- R172, the first test: one of the three samples is out of range. -/
theorem sanity_of_outOfRange (hout : sampleRow bits bs bw (-3) = .outOfRange ∨ sampleRow bits bs bw (-2) = .outOfRange ∨
    sampleRow bits bs bw (-1) = .outOfRange) : sanity bits bs bw = .error .outOfRange := by
  have hmem : SVal.outOfRange ∈ [-3, -2, -1].map (sampleRow bits bs bw) := by simpa [eq_comm] using hout
  exact if_pos hmem

/-- R173: two dead bits and the start bit. -/
theorem sanity_of_pattern (h3 : sampleRow bits bs bw (-3) = .zero) (h2 : sampleRow bits bs bw (-2) = .zero)
    (h1 : sampleRow bits bs bw (-1) = .one) : sanity bits bs bw = .ok () := by
  simp [sanity, h3, h2, h1]

/-- R173: any other pattern of samples in range. -/
theorem sanity_of_mismatch (hin : ¬(sampleRow bits bs bw (-3) = .outOfRange ∨ sampleRow bits bs bw (-2) = .outOfRange ∨
    sampleRow bits bs bw (-1) = .outOfRange)) (hpat : ¬(sampleRow bits bs bw (-3) = .zero ∧
      sampleRow bits bs bw (-2) = .zero ∧ sampleRow bits bs bw (-1) = .one)) :
    sanity bits bs bw = .error .sanityMismatch := by
  have hmem : SVal.outOfRange ∉ [-3, -2, -1].map (sampleRow bits bs bw) := by simpa [eq_comm] using hin
  have hne : [-3, -2, -1].map (sampleRow bits bs bw) ≠ [.zero, .zero, .one] := by simpa using hpat
  exact (if_neg hmem).trans (if_neg hne)

end SanityTests

/-! ### ASSEMBLE: the sixteen samples, and the bits made of them -/

/-- The samples at Bit Indices 0 to 15, which `assemble` takes. -/
def dataSamples (bits : List Bin) (bs bw : Nat) : List SVal :=
  (List.range 16).map fun k : Nat => sampleRow bits bs bw k

section DataSamples
variable {bits : List Bin} {bs bw : Nat}

theorem dataSamples_getElem? {k : Nat} (hk : k < 16) :
    (dataSamples bits bs bw)[k]? = some (sampleRow bits bs bw k) := by
  simp [dataSamples, hk]

theorem outOfRange_mem_dataSamples :
    .outOfRange ∈ dataSamples bits bs bw ↔ ∃ k : Nat, k < 16 ∧ sampleRow bits bs bw k = .outOfRange := by
  simp [dataSamples]

/-- R177: one of the sixteen samples is out of range. -/
theorem assemble_of_outOfRange (hout : ∃ k : Nat, k < 16 ∧ sampleRow bits bs bw k = .outOfRange) :
    assemble bits bs bw = .error .outOfRange :=
  if_pos (outOfRange_mem_dataSamples.mpr hout)

theorem assemble_of_inRange (hin : ∀ k : Nat, k < 16 → sampleRow bits bs bw k ≠ .outOfRange) :
    assemble bits bs bw = .ok (groupByte (dataSamples bits bs bw) 0, groupByte (dataSamples bits bs bw) 8,
      parityBits (dataSamples bits bs bw)) := by
  have hmem : .outOfRange ∉ dataSamples bits bs bw := fun hmem =>
    have ⟨k, hk, hout⟩ := outOfRange_mem_dataSamples.mp hmem
    hin k hk hout
  exact if_neg hmem

/-- R176: a data bit of a group's byte is the sample that many places after the group's base. -/
theorem groupByte_dataSamples {base j : Nat} (hj : j < 7) (hbase : base + j < 16) :
    (groupByte (dataSamples bits bs bw) base).getLsbD j = true ↔ sampleRow bits bs bw (base + j : Nat) = .one := by
  rw [groupByte_getLsbD _ _ _ (Nat.lt_succ_of_lt hj), dataSamples_getElem? hbase]
  simp [hj]

end DataSamples

/-- R176: the sample in the parity bit's place stays out of the byte. -/
theorem groupByte_getLsbD_seven (samples : List SVal) (base : Nat) : (groupByte samples base).getLsbD 7 = false := by
  rw [groupByte_getLsbD _ _ _ (by decide)]
  simp

/-- R175: each bit of `par` is the last sample of its group. -/
theorem parityBits_getLsbD {samples : List SVal} {s7 s15 : SVal} (h7 : samples[7]? = some s7)
    (h15 : samples[15]? = some s15) :
    ((parityBits samples).getLsbD 0 = true ↔ s7 = .one) ∧ ((parityBits samples).getLsbD 1 = true ↔ s15 = .one) := by
  simp only [parityBits, h7, h15, Option.getD_some]
  cases s7 <;> cases s15 <;> decide

/-! ### VALIDATE -/

/-- R180: the two groups pass together, or the validator rejects. -/
theorem validate_eq (b0 b1 : RByte) (par : BitVec 2) :
    validate b0 b1 par =
      if (popcount b0 + (par.getLsbD 0).toNat) % 2 = 1 ∧ (popcount b1 + (par.getLsbD 1).toNat) % 2 = 1 then .ok ()
      else .error .parityMismatch := by
  simp only [validate, oddParity, decide_eq_true_eq]

end Sys2Proof.Machine

namespace Sys2Proof.Proofs

open Sys2Proof Sys2Proof.Machine

/-- Settles O22: SANITY's unit answers as the function of the row does, in each of its three outcomes. -/
theorem sanityRequiresPattern : Obligations.SanityRequiresPattern := by
  unfold Obligations.SanityRequiresPattern
  intro s l ln bits bs bw hl hpc hrow hbs hbw
  have hunit := sanityUnit_row hrow hbs hbw
  rw [exec_sanity]
  split_ifs with hout hpat
  · exact laneOp_reject hl hpc (by rw [hunit, sanity_of_outOfRange hout])
  · obtain ⟨h3, h2, h1⟩ := hpat
    exact laneOp_ok hl hpc (by rw [hunit, sanity_of_pattern h3 h2 h1])
  · exact laneOp_reject hl hpc (by rw [hunit, sanity_of_mismatch hout hpat])

/-- Settles O23: ASSEMBLE's unit answers as the function of the row does, whose bytes and parity pair hold the sixteen
samples in their places. -/
theorem assembleBuildsBytes : Obligations.AssembleBuildsBytes := by
  unfold Obligations.AssembleBuildsBytes
  intro s l ln bits bs bw hl hpc hrow hbs hbw
  have hunit := assembleUnit_row hrow hbs hbw
  rw [exec_assemble]
  refine ⟨fun hout => laneOp_reject hl hpc (by rw [hunit, assemble_of_outOfRange hout]), fun hin => ?_⟩
  obtain ⟨hpar0, hpar1⟩ := parityBits_getLsbD (samples := dataSamples bits bs bw)
    (dataSamples_getElem? (by decide)) (dataSamples_getElem? (by decide))
  refine ⟨groupByte (dataSamples bits bs bw) 0, groupByte (dataSamples bits bs bw) 8, parityBits (dataSamples bits bs bw),
    laneOp_ok hl hpc (by rw [hunit, assemble_of_inRange hin]), fun j hj => ⟨?group0, ?group8⟩,
    groupByte_getLsbD_seven _ _, groupByte_getLsbD_seven _ _, hpar0, hpar1⟩
  case group0 => simpa only [Nat.zero_add] using groupByte_dataSamples (base := 0) hj (by omega)
  case group8 => exact groupByte_dataSamples hj (by omega)

/-- Settles O26: VALIDATE's unit answers as the function of the bytes and the parity pair does. -/
theorem validateChecksParity : Obligations.ValidateChecksParity := by
  unfold Obligations.ValidateChecksParity
  intro s l ln b0 b1 par hl hpc h0 h1 hp
  have hunit := validateUnit_row h0 h1 hp
  rw [validate_eq] at hunit
  rw [exec_validate]
  split_ifs with hodd
  · exact laneOp_ok hl hpc (by rw [hunit, if_pos hodd])
  · exact laneOp_reject hl hpc (by rw [hunit, if_neg hodd])

end Sys2Proof.Proofs
end

section
/-! LOAD and COLLECT of the Frame Decoder: which answers of the Row Sampler a lane can hold, and the next state of each
operation on the path it takes (45_frame_decoder.md R191 to R193, R196). -/

namespace Sys2Proof.Machine

/-! ### The Row Sampler's answer, and the least failing frame -/

theorem usableRow_samples_of_le {p : Params} {row : List Sample} (hfits : row.length ≤ p.wmax) :
    usableRow p (.samples row) = some row :=
  if_neg (Nat.not_lt.mpr hfits)

/-- R193: the two ways in which a frame has no row. -/
theorem usableRow_eq_none_iff {p : Params} {ans : ScanAnswer} :
    usableRow p ans = none ↔ ans = .fail ∨ ∃ row, ans = .samples row ∧ p.wmax < row.length := by
  cases ans with
  | fail => simp [usableRow]
  | samples row => simp [usableRow]

theorem mergedErrIndex_of_no_error (errIndex : Reg Nat) (i : Nat) : mergedErrIndex false errIndex i = i := rfl

theorem mergedErrIndex_of_error (errIndex : Reg Nat) (i : Nat) :
    mergedErrIndex true errIndex i = min errIndex.read i := rfl

/-! ### LOAD on an idle lane -/

section Load
variable {s : State} {l i h : Nat} {ln : Lane}

theorem exec_load_of_idle (hl : s.lane? l = some ln) (hpc : ln.pc = .idle) :
    exec (.load l i) s = s.loadFrame l ln i := by
  show execLoad l i s = _
  simp [execLoad, hl, hpc]

/-- R191: the frame has a row. -/
theorem loadFrame_of_row {row : List Sample} (hfl : s.fl.read? i = some h)
    (hrow : usableRow s.cfg (s.readScanline h) = some row) :
    s.loadFrame l ln i = .next (s.setLane l (ln.loaded s.cfg i row)) := by
  simp [State.loadFrame, hfl, hrow]

/-- R193: the frame has none. -/
theorem loadFrame_of_no_row (hfl : s.fl.read? i = some h) (hrow : usableRow s.cfg (s.readScanline h) = none) :
    s.loadFrame l ln i = .next { s.setLane l (ln.unavailable s.cfg i) with
      errIndex := .val (mergedErrIndex s.rowError s.errIndex i), rowError := true } := by
  simp [State.loadFrame, hfl, hrow]

end Load

/-! ### COLLECT on a lane in a terminal state -/

/-- R196: the slot COLLECT makes of a lane. -/
def Lane.slot (ln : Lane) : Slot :=
  { full := true, valid := ln.valid, cause := ln.cause, byte1 := ln.byte1.read, byte0 := ln.byte0.read }

theorem collectAt_of_terminal {at_ : LaneState} {s : State} {l : Nat} {ln : Lane} (hl : s.lane? l = some ln)
    (hpc : ln.pc = at_) (hslot : ln.fidx.read < s.cfg.nmax) :
    collectAt at_ l s =
      .next { s.setLane l { ln with pc := .idle } with rs := s.rs.write ln.fidx.read ln.slot } := by
  simp [collectAt, hl, hpc, State.storeSlot, hslot, Lane.slot]

/-- The two codes that select COLLECT perform the same operation, each in its own terminal state. -/
theorem exec_collect {op : Instr} {s : State} {l : Nat} {ln : Lane} (hl : s.lane? l = some ln)
    (hop : ln.pc = .done ∧ op = .collectDone l ∨ ln.pc = .rejected ∧ op = .collectRejected l)
    (hslot : ln.fidx.read < s.cfg.nmax) :
    exec op s = .next { s.setLane l { ln with pc := .idle } with rs := s.rs.write ln.fidx.read ln.slot } := by
  obtain ⟨hpc, rfl⟩ | ⟨hpc, rfl⟩ := hop
  · exact collectAt_of_terminal hl hpc hslot
  · exact collectAt_of_terminal hl hpc hslot

end Sys2Proof.Machine

namespace Sys2Proof.Proofs

open Sys2Proof Sys2Proof.Machine

/-- Settles O9: the answer is usable, so LOAD replaces the lane by the loaded one, whose SR is written below the row's
length only. -/
theorem loadPlacesRow : Obligations.LoadPlacesRow := by
  unfold Obligations.LoadPlacesRow
  intro s l i h ln row hl hpc hfl hans hfits
  have husable : usableRow s.cfg (s.readScanline h) = some row := by rw [hans, usableRow_samples_of_le hfits]
  have hbelow (j : Nat) (hj : j < row.length) : (ln.sr.writePrefix row).read? j = row[j]? := by
    rw [Memory.read?_writePrefix, if_pos hj]
  have habove (j : Nat) (hj : row.length ≤ j) : (ln.sr.writePrefix row).read? j = ln.sr.read? j := by
    rw [Memory.read?_writePrefix, if_neg (Nat.not_lt.mpr hj)]
  refine ⟨_, ln.loaded s.cfg i row, (exec_load_of_idle hl hpc).trans (loadFrame_of_row hfl husable),
    State.lane?_setLane_self (State.lane?_lt hl) _, OnlyLane.of_setLane s l _, ?registers⟩
  case registers => simpa using ⟨hbelow, habove⟩

/-- Settles O10: both causes leave no usable row, so LOAD rejects the lane and merges the frame's index into
ERR_INDEX. -/
theorem loadWithoutRowRejects : Obligations.LoadWithoutRowRejects := by
  unfold Obligations.LoadWithoutRowRejects
  intro s l i h ln hl hpc hfl hans
  have hnone : usableRow s.cfg (s.readScanline h) = none := usableRow_eq_none_iff.mpr hans
  refine ⟨_, ln.unavailable s.cfg i, (exec_load_of_idle hl hpc).trans (loadFrame_of_no_row hfl hnone),
    State.lane?_setLane_self (State.lane?_lt hl) _, OnlyLane.of_setLane s l _, rfl, fun hfirst => ?first,
    fun hmerge => ?merge, ?registers⟩
  case first => rw [hfirst, mergedErrIndex_of_no_error]
  case merge => rw [hmerge, mergedErrIndex_of_error]
  case registers => simp

/-- Settles O11: in both terminal states COLLECT is the one write of the lane's slot, beside the lane's state
register. -/
theorem collectStoresSlot : Obligations.CollectStoresSlot := by
  unfold Obligations.CollectStoresSlot
  rintro s l i ln b0 b1 op hl rfl rfl rfl hslot hop
  have hrs (j : Nat) := Memory.read?_write s.rs ln.fidx.read j ln.slot
  exact ⟨_, exec_collect hl hop hslot, State.lane?_setLane_self (State.lane?_lt hl) _, OnlyLane.of_setLane s l _,
    (hrs _).trans (if_pos rfl), fun j hj => (hrs j).trans (if_neg hj)⟩

end Sys2Proof.Proofs
end

section
/-! The host's writes FLW and CSRW, the dispatcher's DISPATCH and the concatenator's BDONE: the next state of each where
it takes effect, and that a write the block does not take changes nothing (46_batch_array.md R210, R211, R216, R222). -/

namespace Sys2Proof.Machine

/-! ### FLW -/

/-- A handle as wide as the port arrives whole. -/
theorem portHandle_of_lt {p : Params} {h : Nat} (hwidth : h < 2 ^ p.hw) : portHandle p h = h := Nat.mod_eq_of_lt hwidth

theorem exec_flw_of_taken {s : State} {i : Nat} (h : Nat) (hb : s.busy = false) (hi : i < s.cfg.nmax) :
    exec (.flw i h) s = .next { s with fl := s.fl.write i (portHandle s.cfg h) } :=
  if_pos ⟨hb, hi⟩

/-- R210: the two grounds on which FLW is ignored. -/
theorem exec_flw_of_ignored {s : State} {i : Nat} (h : Nat) (hign : s.busy = true ∨ s.cfg.nmax ≤ i) :
    exec (.flw i h) s = .next s := by
  refine if_neg fun ⟨hb, hi⟩ => ?_
  obtain hbusy | hhigh := hign
  · rw [hb] at hbusy; cases hbusy
  · omega

/-! ### CSRW -/

section Csrw
variable {s : State}

theorem exec_csrw_of_busy (n : BitVec 3) (v : Nat) (hb : s.busy = true) : exec (.csrw n v) s = .next s := if_pos hb

theorem exec_csrw_batchN (v : Nat) (hb : s.busy = false) :
    exec (.csrw 0#3 v) s = .next { s with batchN := legalBatchN s.cfg v } :=
  if_neg (by simp [hb])

theorem exec_csrw_row (v : Nat) (hb : s.busy = false) :
    exec (.csrw 1#3 v) s = .next { s with row := legalRow s.cfg v } :=
  if_neg (by simp [hb])

theorem exec_csrw_parLimit (v : Nat) (hb : s.busy = false) :
    exec (.csrw 2#3 v) s = .next { s with parLimit := legalParLimit s.cfg v } :=
  if_neg (by simp [hb])

/-- R211: the numbers from 3 on are read-only or reserved. -/
theorem exec_csrw_of_not_writable {n : BitVec 3} (v : Nat) (hn : 3 ≤ n.toNat) : exec (.csrw n v) s = .next s := by
  show execCsrw n v s = _
  unfold execCsrw
  split
  case isTrue => rfl
  case isFalse =>
    split
    next h0 => omega
    next h1 => omega
    next h2 => omega
    next => rfl

end Csrw

/-! ### DISPATCH -/

/-- R191: a loaded lane's Sample Row is the row it was loaded with. -/
theorem Lane.loaded_sampleRowIs (p : Params) (ln : Lane) (i : Nat) (row : List Sample) :
    (ln.loaded p i row).sampleRowIs row :=
  ⟨rfl, fun j hj => by rw [Lane.loaded_sr, Memory.read?_writePrefix, if_pos hj]⟩

section Dispatch
variable {s : State} {l : Nat} {ln : Lane}

theorem exec_dispatch_of_enabled (hl : s.lane? l = some ln) (hen : s.dispatchEnabled) (hpc : ln.pc = .idle) :
    exec (.dispatch l) s = { s with disp := s.disp + 1 }.loadFrame l ln s.disp := by
  show execDispatch l s = _
  simp only [execDispatch, hl]
  exact if_pos ⟨hen, hpc⟩

/-- R216: DISPATCH and its LOAD are one step, whatever LOAD answers. -/
theorem exec_dispatch_eq_load (hl : s.lane? l = some ln) (hen : s.dispatchEnabled) (hpc : ln.pc = .idle) :
    exec (.dispatch l) s = exec (.load l s.disp) { s with disp := s.disp + 1 } :=
  (exec_dispatch_of_enabled hl hen hpc).trans (exec_load_of_idle (s := { s with disp := s.disp + 1 }) hl hpc).symm

/-- DISPATCH of a frame that has a row. -/
theorem exec_dispatch_of_row {h : Nat} {row : List Sample} (hl : s.lane? l = some ln) (hen : s.dispatchEnabled)
    (hpc : ln.pc = .idle) (hfl : s.fl.read? s.disp = some h)
    (hrow : usableRow s.cfg (s.readScanline h) = some row) :
    exec (.dispatch l) s = .next ({ s with disp := s.disp + 1 }.setLane l (ln.loaded s.cfg s.disp row)) :=
  (exec_dispatch_of_enabled hl hen hpc).trans (loadFrame_of_row (s := { s with disp := s.disp + 1 }) hfl hrow)

end Dispatch

/-! ### BDONE -/

theorem exec_bdone_of_enabled {s : State} (hb : s.busy = true) (hn : s.next = s.batchN) :
    exec .bdone s = .next s.finishBatch :=
  if_pos ⟨hb, hn⟩

end Sys2Proof.Machine

namespace Sys2Proof.Proofs

open Sys2Proof Sys2Proof.Machine

/-- Settles O34: both sides load frame `disp` into the same lane of the block whose `disp` is one further; where the
frame's row fits, that replaces the lane alone by the loaded one. -/
theorem dispatchLoadsNextFrame : Obligations.DispatchLoadsNextFrame := by
  unfold Obligations.DispatchLoadsNextFrame
  intro s l ln hl hpc hb hdisp hlim
  have hen : s.dispatchEnabled := ⟨hb, hdisp, hlim⟩
  refine ⟨exec_dispatch_eq_load hl hen hpc, fun h row hfl hans hfits => ?_⟩
  have husable : usableRow s.cfg (s.readScanline h) = some row := by rw [hans, usableRow_samples_of_le hfits]
  exact ⟨_, ln.loaded s.cfg s.disp row, exec_dispatch_of_row hl hen hpc hfl husable, rfl, OnlyLane.of_setLane s l _,
    State.lane?_setLane_self (State.lane?_lt hl) _, rfl, rfl, Lane.loaded_sampleRowIs s.cfg ln s.disp row⟩

/-- Settles O28: where FLW is taken, the frame list is read after one write of a handle that the port carries whole. -/
theorem flwWritesFrameList : Obligations.FlwWritesFrameList := by
  unfold Obligations.FlwWritesFrameList
  intro s i h hwidth
  refine ⟨fun hb hi => ?taken, exec_flw_of_ignored h⟩
  case taken =>
    have hfl (j : Nat) := Memory.read?_write s.fl i j h
    refine ⟨{ s with fl := s.fl.write i h }, ?_, rfl, (hfl i).trans (if_pos rfl), fun j hj => (hfl j).trans (if_neg hj)⟩
    rw [exec_flw_of_taken h hb hi, portHandle_of_lt hwidth]

/-- Settles O29: each writable register's number by its own equation; the other numbers, and every number while busy,
leave the state. -/
theorem csrwWritesLegalValues : Obligations.CsrwWritesLegalValues := by
  unfold Obligations.CsrwWritesLegalValues
  intro s v
  refine ⟨fun hb => ⟨exec_csrw_batchN v hb, exec_csrw_row v hb, exec_csrw_parLimit v hb⟩, fun n hign => ?ignored⟩
  case ignored =>
    obtain hb | hn := hign
    · exact exec_csrw_of_busy n v hb
    · exact exec_csrw_of_not_writable v hn

/-- Settles O37: BDONE ends the batch by its two flags. -/
theorem bdoneEndsBatch : Obligations.BdoneEndsBatch := by
  unfold Obligations.BdoneEndsBatch
  intro s hb hn
  exact exec_bdone_of_enabled hb hn

end Sys2Proof.Proofs
end

section
/-! The reject entry (60_exceptions.md R250, R252): a lane comes to `S_REJECTED` in a decoding operation only by the unit's
rejection, with one of the unit's own causes. -/

namespace Sys2Proof.Machine

/-! ### The units reject by the reject entry alone -/

/-- The causes 1 to 7 of 30_encoding.md R82, those that the units of a lane give: not NONE, and not LOAD's. -/
def DecodingCause (c : Cause) : Prop := c ≠ .none ∧ c ≠ .rowUnavailable

/-- A unit whose completion never leaves a lane in `S_REJECTED`, and whose rejection has one of the causes 1 to 7. -/
structure RejectsByEntry (u : Lane → Stage Lane) : Prop where
  ok_pc_ne : ∀ {ln x : Lane}, u ln = .ok x → x.pc ≠ .rejected
  reject_cause : ∀ {ln : Lane} {c : Cause}, u ln = .reject c → DecodingCause c

/-- A unit with a success state of its own that is not `S_REJECTED`. -/
theorem RejectsByEntry.of_success {u : Lane → Stage Lane} {st : LaneState} (hst : st ≠ .rejected)
    (hok : ∀ {ln x : Lane}, u ln = .ok x → x.pc = st ∧ x.fidx = ln.fidx)
    (hcause : ∀ {ln : Lane} {c : Cause}, u ln = .reject c → DecodingCause c) : RejectsByEntry u where
  ok_pc_ne hx := (hok hx).1.trans_ne hst
  reject_cause := hcause

theorem normUnit_rejectsByEntry : RejectsByEntry normUnit :=
  .of_success (by decide) normUnit_pc fun h => by
    obtain rfl := normUnit_cause h
    simp [DecodingCause]

theorem locateUnit_rejectsByEntry : RejectsByEntry locateUnit :=
  .of_success (by decide) locateUnit_pc fun h => by
    obtain rfl | rfl := locateUnit_cause h <;> simp [DecodingCause]

theorem calibUnit_rejectsByEntry : RejectsByEntry calibUnit :=
  .of_success (by decide) calibUnit_pc fun h => by
    obtain rfl := calibUnit_cause h
    simp [DecodingCause]

theorem sanityUnit_rejectsByEntry : RejectsByEntry sanityUnit :=
  .of_success (by decide) sanityUnit_pc fun h => by
    obtain rfl | rfl := sanityUnit_cause h <;> simp [DecodingCause]

theorem assembleUnit_rejectsByEntry : RejectsByEntry assembleUnit :=
  .of_success (by decide) assembleUnit_pc fun h => by
    obtain rfl := assembleUnit_cause h
    simp [DecodingCause]

theorem validateUnit_rejectsByEntry : RejectsByEntry validateUnit :=
  .of_success (by decide) validateUnit_pc fun h => by
    obtain rfl := validateUnit_cause h
    simp [DecodingCause]

/-- The six operations that can reject are each one lane operation of such a unit. -/
theorem exec_decoding_eq_laneOp {l : Nat} {op : Instr}
    (hop : op ∈ [Instr.norm l, .locate l, .calib l, .sanity l, .assemble l, .validate l]) :
    ∃ at_ u, RejectsByEntry u ∧ ∀ s, exec op s = laneOp at_ u l s := by
  simp only [List.mem_cons, List.not_mem_nil, or_false] at hop
  obtain rfl | rfl | rfl | rfl | rfl | rfl := hop
  · exact ⟨_, _, normUnit_rejectsByEntry, exec_norm l⟩
  case inr.inl => exact ⟨_, _, locateUnit_rejectsByEntry, exec_locate l⟩
  case inr.inr.inl => exact ⟨_, _, calibUnit_rejectsByEntry, exec_calib l⟩
  case inr.inr.inr.inl => exact ⟨_, _, sanityUnit_rejectsByEntry, exec_sanity l⟩
  case inr.inr.inr.inr.inl => exact ⟨_, _, assembleUnit_rejectsByEntry, exec_assemble l⟩
  case inr.inr.inr.inr.inr => exact ⟨_, _, validateUnit_rejectsByEntry, exec_validate l⟩

/-! ### The lane after a rejection -/

/-- R250: of the registers, the reject entry writes the two bytes and the cause. -/
theorem rejectEntry_sameRegsExcept (c : Cause) (ln : Lane) :
    SameRegsExcept [.byte0, .byte1, .cause] ln (rejectEntry c ln) := by
  simp [SameRegsExcept]

/-- A lane that a lane operation brings to `S_REJECTED` is the lane before it after the reject entry. -/
theorem laneOp_newly_rejected {at_ : LaneState} {u : Lane → Stage Lane} {l : Nat} {s t : State} {ln ln' : Lane}
    (hu : RejectsByEntry u) (ht : laneOp at_ u l s = .next t) (hl : s.lane? l = some ln) (hl' : t.lane? l = some ln')
    (hbefore : ln.pc ≠ .rejected) (hafter : ln'.pc = .rejected) :
    OnlyLane l s t ∧ ∃ c, DecodingCause c ∧ ln' = rejectEntry c ln := by
  obtain ⟨honly, ⟨_, rfl, _⟩ | ⟨_, hok, _⟩ | ⟨_, c, hrej, rfl, _⟩⟩ := laneOp_lane ht hl hl'
  · exact absurd hafter hbefore
  · exact absurd hafter (hu.ok_pc_ne hok)
  · exact ⟨honly, c, hu.reject_cause hrej, rfl⟩

end Sys2Proof.Machine

namespace Sys2Proof.Proofs

open Sys2Proof Sys2Proof.Machine

/-- Settles O41: the operation is one lane operation whose unit rejects by the reject entry alone, so the rejected lane is
the reject entry of the lane before, and every clause is one of its writes or a part that it leaves. -/
theorem rejectionIsPrecise : Obligations.RejectionIsPrecise := by
  unfold Obligations.RejectionIsPrecise
  intro s t l ln ln' op hop ht hl hl' hbefore hafter
  obtain ⟨at_, u, hu, hexec⟩ := exec_decoding_eq_laneOp hop
  obtain ⟨honly, c, ⟨hnone, hload⟩, rfl⟩ :=
    laneOp_newly_rejected hu ((hexec s).symm.trans ht) hl hl' hbefore hafter
  exact ⟨honly, rejectEntry_sameRegsExcept c ln, hnone, hload, rfl, rfl, rfl, fun _ => rfl, fun _ => rfl⟩

end Sys2Proof.Proofs
end

section
/-! Everything one operation can do when it completes, operation by operation, everything one step can do, and which turns
perform which operation (00_scope.md R6, R7, 30_encoding.md R88). -/

namespace Sys2Proof.Machine

/-! ### The effect of an operation that completes -/

/-- `t` is `s` but for the read port, the sampled value, the commands held, the turns to come and the free counter: the
lanes, the memories and the registers of the block are the same. -/
def SameBlock (s t : State) : Prop :=
  t = { s with csrRdata := t.csrRdata, sampleOut := t.sampleOut, cmdWaiting := t.cmdWaiting,
               turns := t.turns, free := t.free }

theorem SameButInputs.sameBlock {s t : State} (h : SameButInputs s t) : SameBlock s t := by
  obtain ⟨heq, -⟩ := h
  rw [heq]; rfl

/-- A lane state that selects a unit of the decoder (10_state.md R26). -/
def Decoding (st : LaneState) : Prop := st ≠ .idle ∧ st ≠ .done ∧ st ≠ .rejected

/-- The operations of lane `l` that run a unit of the decoder (R194). -/
def DecodingOp (l : Nat) (op : Instr) : Prop :=
  op ∈ [Instr.norm l, .locate l, .calib l, .sanity l, .assemble l, .validate l]

/-- The states of a lane that COLLECT takes its result from, with the operation selected there (R196). -/
def CollectedBy (l : Nat) (st : LaneState) (op : Instr) : Prop :=
  st = .done ∧ op = .collectDone l ∨ st = .rejected ∧ op = .collectRejected l

/-- The block after COLLECT of lane `l` (R196). -/
def State.collected (s : State) (l : Nat) (ln : Lane) : State :=
  { s.setLane l { ln with pc := .idle } with rs := s.rs.write ln.fidx.read ln.slot }

/-- What each operation can do when it answers a next state. -/
inductive Effect : Instr → State → State → Prop
  /-- The operation waits, or is ignored, or has nothing to do. -/
  | waits {op : Instr} {s : State} : Effect op s s
  /-- A lane's unit: its writes, or the reject entry. -/
  | unit {op : Instr} {s : State} {l : Nat} {ln ln' : Lane} (hop : DecodingOp l op) (hl : s.lane? l = some ln)
      (hpc : Decoding ln.pc) (hadv : ln.advance = some ln') : Effect op s (s.setLane l ln')
  | sampleBit {s : State} {l : Nat} {k : BitVec 5} (v : SVal) : Effect (.sampleBit l k) s { s with sampleOut := v }
  | collect {op : Instr} {s : State} {l : Nat} {ln : Lane} (hl : s.lane? l = some ln)
      (hop : CollectedBy l ln.pc op) (hslot : ln.fidx.read < s.cfg.nmax) : Effect op s (s.collected l ln)
  | load {s t : State} {l i : Nat} {ln : Lane} (hl : s.lane? l = some ln) (hpc : ln.pc = .idle)
      (hload : s.loadFrame l ln i = .next t) : Effect (.load l i) s t
  | dispatch {s t : State} {l : Nat} {ln : Lane} (hl : s.lane? l = some ln) (hpc : ln.pc = .idle)
      (hen : s.dispatchEnabled) (hload : { s with disp := s.disp + 1 }.loadFrame l ln s.disp = .next t) :
      Effect (.dispatch l) s t
  | csrwBatchN {s : State} {n : BitVec 3} {v : Nat} (hb : s.busy = false) :
      Effect (.csrw n v) s { s with batchN := legalBatchN s.cfg v }
  | csrwRow {s : State} {n : BitVec 3} {v : Nat} (hb : s.busy = false) :
      Effect (.csrw n v) s { s with row := legalRow s.cfg v }
  | csrwParLimit {s : State} {n : BitVec 3} {v : Nat} (hb : s.busy = false) :
      Effect (.csrw n v) s { s with parLimit := legalParLimit s.cfg v }
  | flw {s : State} {i h : Nat} (hb : s.busy = false) (hi : i < s.cfg.nmax) :
      Effect (.flw i h) s { s with fl := s.fl.write i (portHandle s.cfg h) }
  | csrr {s : State} {n : BitVec 3} (v free : Nat) : Effect (.csrr n) s { s with csrRdata := v, free := free }
  | bstart {s : State} (hb : s.busy = false) : Effect .bstart s s.startBatch
  /-- A BSTART offered while busy is held at the port. -/
  | bstartHeld {s : State} (hb : s.busy = true) : Effect .bstart s { s with cmdWaiting := s.cmdWaiting + 1 }
  | drain {s : State} {slot : Slot} (hb : s.busy = true) (hn : s.next < s.batchN)
      (hread : s.rs.read? s.next = some slot) (hfull : slot.full = true) :
      Effect .drain s
        { s with out := s.out ++ slotBeats slot (decide (s.next + 1 = s.batchN)), next := s.next + 1 }
  | bdone {s : State} (hb : s.busy = true) (hn : s.next = s.batchN) : Effect .bdone s s.finishBatch

/-! ### Each operation has its effect -/

/-- Each decoding operation is the lane operation of a state that selects a unit, and that unit is what the lane does next
on itself (R194). -/
theorem DecodingOp.exec_eq_laneOp {l : Nat} {op : Instr} (hop : DecodingOp l op) :
    ∃ at_ u, Decoding at_ ∧ (∀ ln : Lane, ln.pc = at_ → ln.advance = ln.settle (u ln)) ∧
      ∀ s, exec op s = laneOp at_ u l s := by
  simp only [DecodingOp, List.mem_cons, List.not_mem_nil, or_false] at hop
  obtain rfl | rfl | rfl | rfl | rfl | rfl := hop
  case inl => exact ⟨_, _, by simp [Decoding], fun ln hpc => by rw [Lane.advance, hpc], exec_norm l⟩
  case inr.inl => exact ⟨_, _, by simp [Decoding], fun ln hpc => by rw [Lane.advance, hpc], exec_locate l⟩
  case inr.inr.inl => exact ⟨_, _, by simp [Decoding], fun ln hpc => by rw [Lane.advance, hpc], exec_calib l⟩
  case inr.inr.inr.inl => exact ⟨_, _, by simp [Decoding], fun ln hpc => by rw [Lane.advance, hpc], exec_sanity l⟩
  case inr.inr.inr.inr.inl => exact ⟨_, _, by simp [Decoding], fun ln hpc => by rw [Lane.advance, hpc], exec_assemble l⟩
  case inr.inr.inr.inr.inr => exact ⟨_, _, by simp [Decoding], fun ln hpc => by rw [Lane.advance, hpc], exec_validate l⟩

theorem DecodingOp.effect {op : Instr} {l : Nat} {s t : State} (hop : DecodingOp l op) (h : exec op s = .next t) :
    Effect op s t := by
  obtain ⟨at_, u, hat, hadv, hexec⟩ := hop.exec_eq_laneOp
  rw [hexec] at h
  obtain ⟨ln, hl, ⟨_, rfl⟩ | ⟨hpc, ln', hu, rfl⟩ | ⟨hpc, c, hu, rfl⟩⟩ := laneOp_next h
  · exact .waits
  · exact .unit hop hl (hpc ▸ hat) (by rw [hadv ln hpc, hu]; rfl)
  · exact .unit hop hl (hpc ▸ hat) (by rw [hadv ln hpc, hu]; rfl)

theorem collectAt_effect {at_ : LaneState} {op : Instr} {l : Nat} {s t : State} (hat : CollectedBy l at_ op)
    (h : collectAt at_ l s = .next t) : Effect op s t := by
  obtain ⟨ln, hl, ⟨_, rfl⟩ | ⟨rfl, hslot, rfl⟩⟩ := collectAt_next h
  · exact .waits
  · exact .collect hl hat hslot

theorem execSampleBit_effect {l : Nat} {k : BitVec 5} {s t : State} (h : execSampleBit l k s = .next t) :
    Effect (.sampleBit l k) s t := by
  unfold execSampleBit at h
  split at h
  · cases h
  · split at h
    · split at h
      · cases h; exact .sampleBit _
      · cases h; exact .waits
      · cases h
    · cases h; exact .waits

theorem execCsrw_effect {n : BitVec 3} {v : Nat} {s t : State} (h : execCsrw n v s = .next t) :
    Effect (.csrw n v) s t := by
  unfold execCsrw at h
  split at h
  case isTrue => cases h; exact .waits
  case isFalse hb =>
    rw [Bool.not_eq_true] at hb
    split at h
    · cases h; exact .csrwBatchN hb
    · cases h; exact .csrwRow hb
    · cases h; exact .csrwParLimit hb
    · cases h; exact .waits

theorem execCsrr_effect {n : BitVec 3} {s t : State} (h : execCsrr n s = .next t) : Effect (.csrr n) s t := by
  unfold execCsrr at h
  split at h
  case h_5 => split at h <;> cases h <;> exact .csrr _ _
  all_goals cases h; exact .csrr _ s.free

theorem execDrain_effect {s t : State} (h : execDrain s = .next t) : Effect .drain s t := by
  unfold execDrain at h
  split at h
  case isTrue hen =>
    split at h
    case h_1 slot hread =>
      split at h
      · cases h; exact .drain hen.1 hen.2 hread ‹_›
      · cases h; exact .waits
    case h_2 => cases h; exact .waits
  case isFalse => cases h; exact .waits

theorem execDispatch_effect {l : Nat} {s t : State} (h : execDispatch l s = .next t) : Effect (.dispatch l) s t := by
  unfold execDispatch at h
  split at h
  · cases h
  · next ln hl =>
    split at h
    · next hen => exact .dispatch hl hen.2 hen.1 h
    · cases h; exact .waits

theorem execLoad_effect {l i : Nat} {s t : State} (h : execLoad l i s = .next t) : Effect (.load l i) s t := by
  unfold execLoad at h
  split at h
  · cases h
  · next ln hl =>
    split at h
    · next hpc => exact .load hl hpc h
    · cases h; exact .waits

/-- Everything an operation can do when it completes. -/
theorem exec_effect {op : Instr} {s t : State} (h : exec op s = .next t) : Effect op s t := by
  cases op with
  | load l i => exact execLoad_effect h
  | norm l => exact DecodingOp.effect (l := l) (by simp [DecodingOp]) h
  | locate l => exact DecodingOp.effect (l := l) (by simp [DecodingOp]) h
  | calib l => exact DecodingOp.effect (l := l) (by simp [DecodingOp]) h
  | sanity l => exact DecodingOp.effect (l := l) (by simp [DecodingOp]) h
  | assemble l => exact DecodingOp.effect (l := l) (by simp [DecodingOp]) h
  | validate l => exact DecodingOp.effect (l := l) (by simp [DecodingOp]) h
  | collectDone l => exact collectAt_effect (.inl ⟨rfl, rfl⟩) h
  | collectRejected l => exact collectAt_effect (.inr ⟨rfl, rfl⟩) h
  | sampleBit l k => exact execSampleBit_effect h
  | csrw n v => exact execCsrw_effect h
  | csrr n => exact execCsrr_effect h
  | flw i a =>
    change execFlw i a s = _ at h
    unfold execFlw at h
    split at h
    · next hen => cases h; exact .flw hen.1 hen.2
    · cases h; exact .waits
  | nop => cases h; exact .waits
  | bstart =>
    change execBstart s = _ at h
    unfold execBstart at h
    split at h
    · next hb => cases h; exact .bstartHeld hb
    · next hb => cases h; exact .bstart (by simpa using hb)
  | dispatch l => exact execDispatch_effect h
  | drain => exact execDrain_effect h
  | bdone =>
    change execBdone s = _ at h
    unfold execBdone at h
    split at h
    · next hen => cases h; exact .bdone hen.1 hen.2
    · cases h; exact .waits

/-! ### The turns that perform an operation -/

/-- The turns at which an operation is performed (30_encoding.md R88); LOAD has none (45_frame_decoder.md R191). -/
def PerformedAt (t : Turn) : Instr → Prop
  | .load _ _ => False
  | .norm l | .locate l | .calib l | .sanity l | .assemble l | .validate l | .collectDone l | .collectRejected l =>
    t = .own (.lane l)
  | .sampleBit l k => t = .innerSample l k
  | .csrw n v => t = .csrw n v
  | .csrr n => t = .csrr n
  | .flw i h => t = .flw i h
  | .nop | .bstart => (∃ op, t = .cmd op) ∨ t = .own .commandPort
  | .dispatch l => t = .own (.dispatcher l)
  | .drain | .bdone => ∃ ready, t = .own (.concatenator ready)

theorem performedAt_of_cmd {t : Turn} {op : BitVec 2} {i : Instr}
    (ht : (∃ op, t = .cmd op) ∨ t = .own .commandPort) (hd : decode (.cmd op) = .ok i) : PerformedAt t i := by
  simp only [decode] at hd
  split at hd <;> cases hd <;> exact ht

theorem performedAt_of_state {l : Nat} {st : LaneState} {i : Instr} (hd : decode (.state l st.code) = .ok i) :
    PerformedAt (.own (.lane l)) i := by
  rw [decode_state_code] at hd
  cases st <;> cases hd <;> rfl

theorem performedAt_of_agentSelects {s s' : State} {a : Agent} {sel : Selection} {i : Instr}
    (hs : s.agentSelects a = .selected sel s') (hd : decode sel = .ok i) : PerformedAt (.own a) i := by
  cases a with
  | lane l =>
    simp only [State.agentSelects] at hs
    split at hs <;> cases hs
    exact performedAt_of_state hd
  | dispatcher l =>
    simp only [State.agentSelects] at hs
    split at hs <;> cases hs
    cases hd; rfl
  | concatenator ready =>
    simp only [State.agentSelects] at hs
    split at hs
    · cases hs; cases hd; exact ⟨ready, rfl⟩
    · split at hs <;> cases hs
      cases hd; exact ⟨ready, rfl⟩
  | commandPort =>
    simp only [State.agentSelects] at hs
    split at hs <;> cases hs
    exact performedAt_of_cmd (.inr rfl) hd

theorem performedAt_of_turnSelects {s s' : State} {t : Turn} {sel : Selection} {i : Instr}
    (hs : s.turnSelects t = .selected sel s') (hd : decode sel = .ok i) : PerformedAt t i := by
  cases t with
  | own a => exact performedAt_of_agentSelects hs hd
  | csrw n v => cases hs; cases hd; rfl
  | csrr n => cases hs; cases hd; rfl
  | flw i h => cases hs; cases hd; rfl
  | cmd op => cases hs; exact performedAt_of_cmd (.inl ⟨op, rfl⟩) hd
  | innerSample l k =>
    simp only [State.turnSelects] at hs
    split at hs <;> cases hs
    cases hd; rfl
  | rst => cases hs

/-! ### Everything one step can do -/

theorem agentSelects_ne_rst (s s' : State) (a : Agent) : s.agentSelects a ≠ .rst s' := by
  cases a with
  | lane l => simp only [State.agentSelects]; split <;> simp
  | dispatcher l => simp only [State.agentSelects]; split <;> simp
  | concatenator ready => simp only [State.agentSelects]; split_ifs <;> simp
  | commandPort => simp only [State.agentSelects]; split <;> simp

theorem turnSelects_rst {s s' : State} {t : Turn} (h : s.turnSelects t = .rst s') : t = .rst ∧ s' = s := by
  cases t with
  | rst => cases h; exact ⟨rfl, rfl⟩
  | own a => exact absurd h (agentSelects_ne_rst s s' a)
  | innerSample l k => simp only [State.turnSelects] at h; split at h <;> cases h
  | csrw n v => cases h
  | csrr n => cases h
  | flw i h => cases h
  | cmd op => cases h

/-- A step is the reset, or a turn that passes, or the effect of an operation that the turn performs; the turn taken is
the one difference between `s` and the state the operation runs on. -/
theorem step_effect {s t : State} (h : step s = .next t) :
    (s.takeTurn.1 = .rst ∧ t = s.takeTurn.2.afterRst) ∨
    ∃ s', SameButInputs s s' ∧ (t = s' ∨ ∃ op, PerformedAt s.takeTurn.1 op ∧ Effect op s' t) := by
  have hinputs := fetch_inputs s
  obtain ⟨s', hf, rfl⟩ | ⟨s', hf, rfl⟩ | ⟨sel, s', i, hf, hd, hexec⟩ | ⟨sel, s', e, hf, hd, rfl⟩ := step_next h
  · obtain ⟨hturn, rfl⟩ := turnSelects_rst hf
    exact .inl ⟨hturn, rfl⟩
  · rw [hf] at hinputs
    exact .inr ⟨_, hinputs, .inl rfl⟩
  · rw [hf] at hinputs
    exact .inr ⟨_, hinputs, .inr ⟨i, performedAt_of_turnSelects hf hd, exec_effect hexec⟩⟩
  · rw [hf] at hinputs
    exact .inr ⟨_, hinputs, .inl rfl⟩

end Sys2Proof.Machine
end

section
/-! One operation of a lane on itself: the state and the causes it leads to (10_state.md R26), and that it keeps the
invariant of the lane, without a fault (R23). -/

namespace Sys2Proof.Machine

/-! ### The table of the state register -/

/-- The success column of R26, with COLLECT's rows. -/
def successOf : LaneState → LaneState
  | .idle => .start
  | .start => .normalized
  | .normalized => .runInFound
  | .runInFound => .calibrated
  | .calibrated => .sanityChecked
  | .sanityChecked => .bytesAssembled
  | .bytesAssembled => .done
  | .done => .idle
  | .rejected => .idle

/-- The causes that R26 lists for a lane state. -/
def causesOf : LaneState → List Cause
  | .idle => [.rowUnavailable]
  | .start => [.blankLine]
  | .normalized => [.runInNotFound, .runInOutOfRange]
  | .runInFound => [.startEdgeNotFound]
  | .calibrated => [.outOfRange, .sanityMismatch]
  | .sanityChecked => [.outOfRange]
  | .bytesAssembled => [.parityMismatch]
  | .done => []
  | .rejected => []

theorem Decoding.success_ne_idle {st : LaneState} (h : Decoding st) : successOf st ≠ .idle := by
  obtain ⟨-, hdone, hrej⟩ := h
  cases st <;> simp_all [successOf]

theorem Decoding.opsLeft_success {st : LaneState} (h : Decoding st) : opsLeft (successOf st) < opsLeft st := by
  obtain ⟨hidle, hdone, hrej⟩ := h
  cases st <;> simp_all [successOf, opsLeft]

theorem Decoding.opsLeft_rejected {st : LaneState} (h : Decoding st) : opsLeft .rejected < opsLeft st := by
  obtain ⟨hidle, hdone, hrej⟩ := h
  cases st <;> simp_all [opsLeft]

/-- A lane state is idle, or one from which COLLECT takes the result, or one that selects a unit. -/
theorem idle_or_terminal_or_decoding (st : LaneState) : st = .idle ∨ (st = .done ∨ st = .rejected) ∨ Decoding st := by
  cases st <;> simp [Decoding]

/-! ### Where one operation of a lane leads -/

theorem settle_cases {ln ln' : Lane} {u : Stage Lane} (h : ln.settle u = some ln') :
    u = .ok ln' ∨ ∃ c, u = .reject c ∧ ln' = rejectEntry c ln := by
  cases u with
  | ok x => cases h; exact .inl rfl
  | reject c => cases h; exact .inr ⟨c, rfl, rfl⟩
  | fault f => cases h

/-- A unit settled on its lane leads along the table, if its two outcomes do. -/
theorem settle_table {ln ln' : Lane} {u : Stage Lane} {st : LaneState} (h : ln.settle u = some ln')
    (hok : ∀ x, u = .ok x → x.pc = successOf st ∧ x.fidx = ln.fidx) (hrej : ∀ c, u = .reject c → c ∈ causesOf st) :
    (ln'.pc = successOf st ∧ ln'.fidx = ln.fidx) ∨ ∃ c ∈ causesOf st, ln' = rejectEntry c ln := by
  obtain hu | ⟨c, hu, rfl⟩ := settle_cases h
  · exact .inl (hok ln' hu)
  · exact .inr ⟨c, hrej c hu, rfl⟩

/-- R26: a lane that selects a unit goes to the unit's success state, or takes the reject entry with one of the causes of
its state. -/
theorem advance_table {ln ln' : Lane} (hpc : Decoding ln.pc) (h : ln.advance = some ln') :
    (ln'.pc = successOf ln.pc ∧ ln'.fidx = ln.fidx) ∨ ∃ c ∈ causesOf ln.pc, ln' = rejectEntry c ln := by
  obtain ⟨hidle, hdone, hrejected⟩ := hpc
  unfold Lane.advance at h
  cases hst : ln.pc with rw [hst] at h
  | idle => exact absurd hst hidle
  | done => exact absurd hst hdone
  | rejected => exact absurd hst hrejected
  | start => exact settle_table h (fun _ => normUnit_pc) (by rintro c hc; simp [causesOf, normUnit_cause hc])
  | normalized =>
    exact settle_table h (fun _ => locateUnit_pc) (by rintro c hc; simpa [causesOf] using locateUnit_cause hc)
  | runInFound =>
    exact settle_table h (fun _ => calibUnit_pc) (by rintro c hc; simp [causesOf, calibUnit_cause hc])
  | calibrated =>
    exact settle_table h (fun _ => sanityUnit_pc) (by rintro c hc; simpa [causesOf] using sanityUnit_cause hc)
  | sanityChecked =>
    exact settle_table h (fun _ => assembleUnit_pc) (by rintro c hc; simp [causesOf, assembleUnit_cause hc])
  | bytesAssembled =>
    exact settle_table h (fun _ => validateUnit_pc) (by rintro c hc; simp [causesOf, validateUnit_cause hc])

theorem advance_pc_ne_idle {ln ln' : Lane} (hpc : Decoding ln.pc) (h : ln.advance = some ln') : ln'.pc ≠ .idle := by
  obtain ⟨hst, -⟩ | ⟨c, -, rfl⟩ := advance_table hpc h
  · rw [hst]; exact hpc.success_ne_idle
  · simp

theorem advance_fidx {ln ln' : Lane} (hpc : Decoding ln.pc) (h : ln.advance = some ln') : ln'.fidx = ln.fidx := by
  obtain ⟨-, hf⟩ | ⟨c, -, rfl⟩ := advance_table hpc h
  · exact hf
  · rfl

/-- R194: a unit brings its lane nearer to being idle. -/
theorem opsLeft_advance {ln ln' : Lane} (hpc : Decoding ln.pc) (h : ln.advance = some ln') :
    opsLeft ln'.pc < opsLeft ln.pc := by
  obtain ⟨hst, -⟩ | ⟨c, -, rfl⟩ := advance_table hpc h
  · rw [hst]; exact hpc.opsLeft_success
  · exact hpc.opsLeft_rejected

/-! ### The invariant of the lane -/

/-- A unit that completes or rejects on a lane of the invariant, settled on it. -/
theorem settle_laneInv {p : Params} {ln : Lane} {u : Stage Lane} {st : LaneState} (h : LaneInv p ln)
    (hpc : ln.pc ≠ .idle)
    (hu : (∃ ln', u = .ok ln' ∧ LaneInv p ln' ∧ ln'.pc = st ∧ ln'.fidx = ln.fidx) ∨ ∃ c, u = .reject c ∧ c ≠ .none) :
    ∃ ln', ln.settle u = some ln' ∧ LaneInv p ln' := by
  obtain ⟨ln', rfl, hinv, -, -⟩ | ⟨c, rfl, hc⟩ := hu
  · exact ⟨ln', rfl, hinv⟩
  · exact ⟨rejectEntry c ln, rfl, rejectEntry_laneInv h hpc hc⟩

/-- R23: in the invariant a lane's operation reads no NONE, so it does not fault, and it keeps the invariant. -/
theorem advance_laneInv {p : Params} {ln : Lane} (h : LaneInv p ln) : ∃ ln', ln.advance = some ln' ∧ LaneInv p ln' := by
  unfold Lane.advance
  cases hst : ln.pc with dsimp only
  | idle => exact ⟨ln, rfl, h⟩
  | done => exact ⟨ln, rfl, h⟩
  | rejected => exact ⟨ln, rfl, h⟩
  | start => exact settle_laneInv h (by simp [hst]) (normUnit_laneInv h hst)
  | normalized => exact settle_laneInv h (by simp [hst]) (locateUnit_laneInv h hst)
  | runInFound => exact settle_laneInv h (by simp [hst]) (calibUnit_laneInv h hst)
  | calibrated => exact settle_laneInv h (by simp [hst]) (sanityUnit_laneInv h hst)
  | sanityChecked => exact settle_laneInv h (by simp [hst]) (assembleUnit_laneInv h hst)
  | bytesAssembled => exact settle_laneInv h (by simp [hst]) (validateUnit_laneInv h hst)

theorem LaneInv.of_advance {p : Params} {ln ln' : Lane} (h : LaneInv p ln) (hadv : ln.advance = some ln') :
    LaneInv p ln' := by
  obtain ⟨x, hx, hinv⟩ := advance_laneInv h
  rw [hadv] at hx
  cases hx; exact hinv

/-- COLLECT leaves a lane that meets the invariant: an idle lane is asked nothing but its ranges. -/
theorem LaneInv.idle {p : Params} {ln : Lane} (h : LaneInv p ln) : LaneInv p { ln with pc := .idle } where
  ranges := { h.ranges with }
  ready := trivial
  unwritten := by simp [LaneUnwritten]
  flags := fun hpc => absurd rfl hpc
  sr_wf := h.sr_wf
  br_wf := h.br_wf

theorem LaneInv.reset (p : Params) : LaneInv p (Lane.reset p) where
  ranges := by constructor <;> simp
  ready := trivial
  unwritten := by simp [LaneUnwritten]
  flags := fun hpc => absurd rfl hpc
  sr_wf := Memory.wf_empty _
  br_wf := Memory.wf_empty _

/-- A lane in use holds a frame. -/
theorem LaneInv.frame {p : Params} {ln : Lane} (h : LaneInv p ln) (hpc : ln.pc ≠ .idle) :
    ∃ i, ln.fidx.value? = some i := by
  obtain ⟨hframe, -, -⟩ := h.flags hpc
  exact hframe

/-- R84, R196: the slot COLLECT makes of a lane in a terminal state is well formed. -/
theorem LaneInv.slot_ok {p : Params} {ln : Lane} (h : LaneInv p ln) (hpc : ln.pc = .done ∨ ln.pc = .rejected) :
    SlotOk ln.slot := by
  have hne : ln.pc ≠ .idle := by rcases hpc with hpc | hpc <;> simp [hpc]
  obtain ⟨-, hvalid, hcause⟩ := h.flags hne
  have hready := h.ready
  rcases hpc with hpc | hpc <;> simp only [LaneReady, hpc] at hready
  case inl =>
    obtain ⟨b0, b1, h0, h1⟩ := hready
    have hnone : ln.cause = .none := by simpa [hpc] using hcause
    refine ⟨fun hfalse => ?_, fun _ => ⟨hnone, ?_, ?_⟩⟩
    · simp [Lane.slot, hvalid.mpr hpc] at hfalse
    · simpa [Lane.slot, Reg.read_of_value? h0] using h.ranges.byte0_le b0 h0
    · simpa [Lane.slot, Reg.read_of_value? h1] using h.ranges.byte1_le b1 h1
  case inr =>
    obtain ⟨h0, h1⟩ := hready
    refine ⟨fun _ => ⟨Reg.read_of_value? h0, Reg.read_of_value? h1, hcause.mpr hpc⟩, fun htrue => ?_⟩
    have hdone := hvalid.mp htrue
    rw [hpc] at hdone; cases hdone

end Sys2Proof.Machine
end

section
/-! The invariant of the machine, kept by every effect of an operation, by reset and by every step (O3, O53). -/

namespace Sys2Proof.Machine

/-! ### A block that is not busy -/

/-- An idle lane holds no frame. -/
theorem not_holds_of_idle {s : State} {l i : Nat} {ln : Lane} (hl : s.lane? l = some ln) (hpc : ln.pc = .idle) :
    ¬s.holds l i := by
  rintro ⟨x, hx, hne, -⟩
  rw [hl] at hx; cases hx
  exact hne hpc

theorem not_holds_of_all_idle {s : State} (hidle : ∀ l ln, s.lane? l = some ln → ln.pc = .idle) (l i : Nat) :
    ¬s.holds l i := by
  rintro ⟨ln, hl, hne, -⟩
  exact hne (hidle l ln hl)

theorem nonIdle_eq_zero {s : State} (hidle : ∀ l ln, s.lane? l = some ln → ln.pc = .idle) : s.nonIdle = 0 := by
  rw [State.nonIdle, List.length_eq_zero_iff, List.filter_eq_nil_iff]
  intro ln hmem
  obtain ⟨l, hl⟩ := List.mem_iff_getElem?.mp hmem
  simp [hidle l ln hl]

/-! ### Effects that no clause of the invariant speaks of -/

theorem Inv.of_sameBlock {s t : State} (h : Inv s) (hst : SameBlock s t) : Inv t := by
  rw [hst]; exact { h with }

/-- A failing LOAD's row-error cells. -/
theorem Inv.setErrIndex {s : State} (h : Inv s) (e : Nat) : Inv { s with errIndex := .val e, rowError := true } :=
  { h with errIndex_set := fun _ => ⟨e, rfl⟩ }

/-! ### The host's writes, on a block that is not busy -/

section HostWrites
variable {s : State} (h : Inv s)
include h

theorem Inv.csrwBatchN (hb : s.busy = false) (v : Nat) : Inv { s with batchN := legalBatchN s.cfg v } :=
  { h with
    batchN_le := Nat.min_le_right _ _
    counters := fun hbusy => absurd (hb.symm.trans hbusy) (by simp) }

theorem Inv.csrwRow (v : Nat) : Inv { s with row := legalRow s.cfg v } :=
  { h with row_lt := Nat.mod_lt _ (Nat.two_pow_pos _) }

theorem legalParLimit_range (v : Nat) : 1 ≤ legalParLimit s.cfg v ∧ legalParLimit s.cfg v ≤ s.cfg.p := by
  obtain ⟨-, hp, -⟩ := h.cfg_ok
  unfold legalParLimit
  split <;> omega

theorem Inv.csrwParLimit (hb : s.busy = false) (v : Nat) : Inv { s with parLimit := legalParLimit s.cfg v } :=
  { h with
    parLimit_range := legalParLimit_range h v
    limit := by
      have hzero : s.nonIdle = 0 := nonIdle_eq_zero (h.idle_unless_busy hb)
      show s.nonIdle ≤ _
      omega }

theorem Inv.flw {i : Nat} (hi : i < s.cfg.nmax) (a : Nat) :
    Inv { s with fl := s.fl.write i (portHandle s.cfg a) } :=
  { h with
    fl_wf := Memory.wf_write _ hi h.fl_wf
    fl_handle := fun j x hx => by
      rw [Memory.read?_write] at hx
      split at hx
      · cases hx; exact Nat.mod_lt _ (Nat.two_pow_pos _)
      · exact h.fl_handle j x hx }

end HostWrites

/-! ### BSTART, DRAIN and BDONE -/

/-- R213: BSTART leaves no slot full. -/
theorem slotFull_startBatch (s : State) (i : Nat) : s.startBatch.slotFull i = false := by
  simp only [State.slotFull, State.startBatch_rs, Memory.read?_clearFull]
  cases s.rs.read? i <;> rfl

theorem Inv.startBatch {s : State} (h : Inv s) (hb : s.busy = false) : Inv s.startBatch :=
  { h with
    rs_wf := Memory.wf_clearFull h.rs_wf
    slots_ok := fun i slot hslot => by
      simp only [State.startBatch_rs, Memory.read?_clearFull, Option.map_eq_some_iff] at hslot
      obtain ⟨old, hold, rfl⟩ := hslot
      exact h.slots_ok i old hold
    not_busy_and_done := by simp
    errIndex_set := by simp
    out_length := rfl
    idle_unless_busy := by simp
    counters := fun _ => ⟨Nat.le_refl 0, Nat.zero_le _⟩
    emitted_full := fun _ i hi => absurd hi (Nat.not_lt_zero i)
    undispatched_empty := fun _ i _ => slotFull_startBatch s i
    held_pending := fun _ l i hholds => absurd hholds (not_holds_of_all_idle (h.idle_unless_busy hb) l i)
    dispatched_accounted := fun _ i hi => absurd hi (Nat.not_lt_zero i) }

/-- R218: a frame whose slot is full has been dispatched. -/
theorem Inv.lt_disp_of_slotFull {s : State} (h : Inv s) (hb : s.busy = true) {i : Nat} (hfull : s.slotFull i = true) :
    i < s.disp := by
  by_contra hge
  rw [h.undispatched_empty hb i (Nat.not_lt.mp hge)] at hfull
  cases hfull

theorem slotFull_of_read {s : State} {i : Nat} {slot : Slot} (hread : s.rs.read? i = some slot) :
    s.slotFull i = slot.full := by
  simp [State.slotFull, hread]

theorem Inv.drain {s : State} {slot : Slot} (h : Inv s) (hb : s.busy = true) (hread : s.rs.read? s.next = some slot)
    (hfull : slot.full = true) (last : Bool) :
    Inv { s with out := s.out ++ slotBeats slot last, next := s.next + 1 } := by
  have hslot : s.slotFull s.next = true := (slotFull_of_read hread).trans hfull
  exact { h with
    out_length := by
      show (s.out ++ slotBeats slot last).length = 2 * (s.next + 1)
      rw [List.length_append, h.out_length]; rfl
    counters := fun _ => ⟨h.lt_disp_of_slotFull hb hslot, (h.counters hb).2⟩
    emitted_full := fun _ i hi => by
      obtain hlt | rfl := Nat.lt_succ_iff_lt_or_eq.mp hi
      · exact h.emitted_full hb i hlt
      · exact hslot }

/-- R222: with every frame drained, no lane holds one. -/
theorem Inv.all_idle_of_drained {s : State} (h : Inv s) (hb : s.busy = true) (hn : s.next = s.batchN) :
    ∀ l ln, s.lane? l = some ln → ln.pc = .idle := by
  intro l ln hl
  by_contra hpc
  obtain ⟨i, hi⟩ := (h.lane_inv l ln hl).frame hpc
  obtain ⟨hlt, hempty⟩ := h.held_pending hb l i ⟨ln, hl, hpc, hi⟩
  obtain ⟨hnd, hdn⟩ := h.counters hb
  rw [h.emitted_full hb i (by omega)] at hempty
  cases hempty

theorem Inv.finishBatch {s : State} (h : Inv s) (hb : s.busy = true) (hn : s.next = s.batchN) : Inv s.finishBatch :=
  { h with
    not_busy_and_done := by simp
    idle_unless_busy := fun _ => h.all_idle_of_drained hb hn
    counters := by simp
    emitted_full := by simp
    undispatched_empty := by simp
    held_pending := by simp
    dispatched_accounted := by simp }

/-! ### A lane in use -/

section LaneInUse
variable {s : State} {l : Nat} {ln : Lane}

/-- A lane in use means that a batch runs. -/
theorem Inv.busy_of_lane_in_use (h : Inv s) (hl : s.lane? l = some ln) (hpc : ln.pc ≠ .idle) : s.busy = true := by
  by_contra hb
  exact hpc (h.idle_unless_busy (Bool.not_eq_true _ ▸ hb) l ln hl)

/-- The frame that a lane in use holds. -/
theorem Inv.holds_of_lane_in_use (h : Inv s) (hl : s.lane? l = some ln) (hpc : ln.pc ≠ .idle) :
    s.holds l ln.fidx.read := by
  obtain ⟨f, hf⟩ := (h.lane_inv l ln hl).frame hpc
  rw [Reg.read_of_value? hf]
  exact ⟨ln, hl, hpc, hf⟩

theorem holds_eq_read {i : Nat} (hl : s.lane? l = some ln) (hholds : s.holds l i) : ln.fidx.read = i := by
  obtain ⟨x, hx, -, hxi⟩ := hholds
  rw [hl] at hx; cases hx
  exact Reg.read_of_value? hxi

end LaneInUse

/-! ### One lane replaced -/

/-- The lanes' invariant after one lane was replaced by one that meets it. -/
theorem lane_inv_setLane {p : Params} {s : State} {l : Nat} {ln ln' : Lane}
    (h : ∀ m x, s.lane? m = some x → LaneInv p x) (hl : s.lane? l = some ln) (hinv : LaneInv p ln') (m : Nat) (x : Lane)
    (hx : (s.setLane l ln').lane? m = some x) : LaneInv p x := by
  rw [State.lane?_setLane hl] at hx
  split at hx
  · cases hx; exact hinv
  · exact h m x hx

theorem nonIdle_setLane {s : State} {l : Nat} {ln : Lane} (hl : s.lane? l = some ln) (ln' : Lane) :
    (s.setLane l ln').nonIdle + (if ln.pc = .idle then 0 else 1) =
      s.nonIdle + (if ln'.pc = .idle then 0 else 1) :=
  nonIdle_length_set s.lanes l ln ln' hl

/-- A unit of a lane in use: the frames are held as before. -/
theorem holds_setLane_same_frame {s : State} {l : Nat} {ln ln' : Lane} (hl : s.lane? l = some ln) (hpc : ln.pc ≠ .idle)
    (hpc' : ln'.pc ≠ .idle) (hf : ln'.fidx = ln.fidx) (m i : Nat) : (s.setLane l ln').holds m i ↔ s.holds m i := by
  rw [State.holds_setLane hl]
  split
  next heq => subst heq; simp [State.holds, hl, hpc, hpc', hf]
  next => rfl

theorem Inv.unit {s : State} {l : Nat} {ln ln' : Lane} (h : Inv s) (hl : s.lane? l = some ln) (hpc : Decoding ln.pc)
    (hadv : ln.advance = some ln') : Inv (s.setLane l ln') := by
  obtain ⟨hne, -, -⟩ := id hpc
  have hne' := advance_pc_ne_idle hpc hadv
  have hholds := holds_setLane_same_frame hl hne hne' (advance_fidx hpc hadv)
  have hbusy := h.busy_of_lane_in_use hl hne
  exact { h with
    lanes_length := by simpa using h.lanes_length
    lane_inv := lane_inv_setLane h.lane_inv hl ((h.lane_inv l ln hl).of_advance hadv)
    idle_unless_busy := fun hb => absurd (hb.symm.trans hbusy) (by simp)
    held_pending := fun hb m i hm => h.held_pending hb m i ((hholds m i).mp hm)
    held_once := fun m m' i hm hm' => h.held_once m m' i ((hholds m i).mp hm) ((hholds m' i).mp hm')
    dispatched_accounted := fun hb i hi =>
      (h.dispatched_accounted hb i hi).imp id fun ⟨m, hm⟩ => ⟨m, (hholds m i).mpr hm⟩
    limit := by
      have hcount := nonIdle_setLane hl ln'
      rw [if_neg hne, if_neg hne'] at hcount
      have hlim := h.limit
      show (s.setLane l ln').nonIdle ≤ s.parLimit
      omega }

/-! ### COLLECT -/

theorem CollectedBy.terminal {l : Nat} {st : LaneState} {op : Instr} (h : CollectedBy l st op) :
    st = .done ∨ st = .rejected :=
  h.imp And.left And.left

theorem terminal_ne_idle {st : LaneState} (h : st = .done ∨ st = .rejected) : st ≠ .idle := by
  rcases h with rfl | rfl <;> simp

section Collected
variable {s : State} {l : Nat} {ln : Lane}

theorem lane?_collected (hl : s.lane? l = some ln) (m : Nat) :
    (s.collected l ln).lane? m = if m = l then some { ln with pc := .idle } else s.lane? m :=
  State.lane?_setLane hl _ m

theorem holds_collected (hl : s.lane? l = some ln) (m i : Nat) :
    (s.collected l ln).holds m i ↔ m ≠ l ∧ s.holds m i := by
  unfold State.holds
  rw [lane?_collected hl]
  by_cases hm : m = l <;> simp [hm]

theorem slotFull_collected (i : Nat) :
    (s.collected l ln).slotFull i = if i = ln.fidx.read then true else s.slotFull i :=
  State.slotFull_write (slot := ln.slot) (s.collected l ln) rfl i

theorem nonIdle_collected (hl : s.lane? l = some ln) (hpc : ln.pc ≠ .idle) :
    (s.collected l ln).nonIdle + 1 = s.nonIdle := by
  have hcount := nonIdle_setLane hl { ln with pc := .idle }
  rw [if_neg hpc, if_pos rfl] at hcount
  exact hcount

theorem Inv.collect (h : Inv s) (hl : s.lane? l = some ln) (hpc : ln.pc = .done ∨ ln.pc = .rejected)
    (hslot : ln.fidx.read < s.cfg.nmax) : Inv (s.collected l ln) := by
  have hne := terminal_ne_idle hpc
  have hbusy := h.busy_of_lane_in_use hl hne
  have hlane := h.lane_inv l ln hl
  have hheld := h.holds_of_lane_in_use hl hne
  have hlt := (h.held_pending hbusy l _ hheld).1
  exact { h with
    lanes_length := by simpa [State.collected] using h.lanes_length
    lane_inv := lane_inv_setLane h.lane_inv hl hlane.idle
    rs_wf := Memory.wf_write _ hslot h.rs_wf
    slots_ok := fun i slot hi => by
      replace hi : (s.rs.write ln.fidx.read ln.slot).read? i = some slot := hi
      rw [Memory.read?_write] at hi
      split at hi
      · cases hi; exact hlane.slot_ok hpc
      · exact h.slots_ok i slot hi
    idle_unless_busy := fun hb => absurd (hb.symm.trans hbusy) (by simp)
    emitted_full := fun _ i hi => by
      rw [slotFull_collected, h.emitted_full hbusy i hi, ite_self]
    undispatched_empty := fun _ i hi => by
      replace hi : s.disp ≤ i := hi
      rw [slotFull_collected, if_neg (by omega), h.undispatched_empty hbusy i hi]
    held_pending := fun _ m i hm => by
      obtain ⟨hml, hm⟩ := (holds_collected hl m i).mp hm
      obtain ⟨hi, hempty⟩ := h.held_pending hbusy m i hm
      have hother : i ≠ ln.fidx.read := fun heq => hml (h.held_once m l i hm (heq ▸ hheld))
      exact ⟨hi, by rw [slotFull_collected, if_neg hother, hempty]⟩
    held_once := fun m m' i hm hm' =>
      h.held_once m m' i ((holds_collected hl m i).mp hm).2 ((holds_collected hl m' i).mp hm').2
    dispatched_accounted := fun _ i hi => by
      by_cases hown : i = ln.fidx.read
      · exact .inl (by rw [slotFull_collected, if_pos hown])
      · obtain hs | ⟨m, hm⟩ := h.dispatched_accounted hbusy i hi
        · exact .inl (by rw [slotFull_collected, if_neg hown, hs])
        · have hml : m ≠ l := by rintro rfl; exact hown (holds_eq_read hl hm).symm
          exact .inr ⟨m, (holds_collected hl m i).mpr ⟨hml, hm⟩⟩
    limit := by
      have hcount := nonIdle_collected hl hne
      have hlim := h.limit
      show (s.collected l ln).nonIdle ≤ s.parLimit
      omega }

end Collected

/-! ### DISPATCH -/

/-- The block after DISPATCH gave frame `disp` to lane `l`, which became `ln'` (R216), but for the row-error cells. -/
def State.dispatched (s : State) (l : Nat) (ln' : Lane) : State := { s with disp := s.disp + 1 }.setLane l ln'

section Dispatched
variable {s : State} {l : Nat} {ln ln' : Lane}

theorem lane?_dispatched (hl : s.lane? l = some ln) (m : Nat) :
    (s.dispatched l ln').lane? m = if m = l then some ln' else s.lane? m :=
  State.lane?_setLane (s := { s with disp := s.disp + 1 }) hl _ m

theorem holds_dispatched (hl : s.lane? l = some ln) (hpc' : ln'.pc ≠ .idle) (hf : ln'.fidx = .val s.disp) (m i : Nat) :
    (s.dispatched l ln').holds m i ↔ if m = l then i = s.disp else s.holds m i := by
  unfold State.holds
  rw [lane?_dispatched hl]
  by_cases hm : m = l <;> simp [hm, hpc', hf, eq_comm (a := i)]

/-- A DISPATCH of an enabled block to an idle lane, which holds frame `disp` afterwards. -/
theorem Inv.dispatch (h : Inv s) (hl : s.lane? l = some ln) (hpc : ln.pc = .idle) (hen : s.dispatchEnabled)
    (hinv : LaneInv s.cfg ln') (hpc' : ln'.pc ≠ .idle) (hf : ln'.fidx = .val s.disp) : Inv (s.dispatched l ln') := by
  obtain ⟨hbusy, hdisp, hlim⟩ := hen
  have hholds := holds_dispatched hl hpc' hf
  have hnew (m : Nat) : ¬s.holds m s.disp := fun hm => Nat.lt_irrefl _ (h.held_pending hbusy m _ hm).1
  exact { h with
    lanes_length := by simpa [State.dispatched] using h.lanes_length
    lane_inv := lane_inv_setLane (s := { s with disp := s.disp + 1 }) h.lane_inv hl hinv
    idle_unless_busy := fun hb => absurd (hb.symm.trans hbusy) (by simp)
    counters := fun _ => ⟨Nat.le_succ_of_le (h.counters hbusy).1, hdisp⟩
    undispatched_empty := fun _ i hi => h.undispatched_empty hbusy i (Nat.le_of_succ_le hi)
    held_pending := fun _ m i hm => by
      rw [hholds] at hm
      split at hm
      · subst hm
        exact ⟨Nat.lt_succ_self _, h.undispatched_empty hbusy _ (Nat.le_refl _)⟩
      · obtain ⟨hi, hempty⟩ := h.held_pending hbusy m i hm
        exact ⟨Nat.lt_succ_of_lt hi, hempty⟩
    held_once := fun m m' i hm hm' => by
      rw [hholds] at hm hm'
      split at hm <;> split at hm'
      next hml hml' => rw [hml, hml']
      next => subst hm; exact absurd hm' (hnew m')
      next => subst hm'; exact absurd hm (hnew m)
      next => exact h.held_once m m' i hm hm'
    dispatched_accounted := fun _ i hi => by
      obtain hlt | rfl := Nat.lt_succ_iff_lt_or_eq.mp hi
      · refine (h.dispatched_accounted hbusy i hlt).imp id fun ⟨m, hm⟩ => ⟨m, (hholds m i).mpr ?_⟩
        have hml : m ≠ l := by rintro rfl; exact not_holds_of_idle hl hpc hm
        rwa [if_neg hml]
      · exact .inr ⟨l, (hholds l _).mpr (by rw [if_pos rfl])⟩
    limit := by
      have hcount := nonIdle_setLane (s := { s with disp := s.disp + 1 }) hl ln'
      rw [if_pos hpc, if_neg hpc'] at hcount
      replace hcount : (s.dispatched l ln').nonIdle + 0 = s.nonIdle + 1 := hcount
      show (s.dispatched l ln').nonIdle ≤ s.parLimit
      omega }

end Dispatched

/-- R191, R193: the two ways in which a LOAD inside DISPATCH completes. -/
theorem loadFrame_dispatched {s t : State} {l : Nat} {ln : Lane}
    (h : { s with disp := s.disp + 1 }.loadFrame l ln s.disp = .next t) :
    ∃ handle, s.fl.read? s.disp = some handle ∧
      ((∃ row, usableRow s.cfg (s.readScanline handle) = some row ∧
          t = s.dispatched l (ln.loaded s.cfg s.disp row)) ∨
       (usableRow s.cfg (s.readScanline handle) = none ∧
          t = { s.dispatched l (ln.unavailable s.cfg s.disp) with
            errIndex := .val (mergedErrIndex s.rowError s.errIndex s.disp), rowError := true })) :=
  loadFrame_next h

/-! ### Reset, and every step -/

theorem Inv.resetWith {p : Params} (hp : p.Ok) : Inv (State.resetWith p) := by
  have hidle : ∀ l ln, (State.resetWith p).lane? l = some ln → ln.pc = .idle :=
    (State.resetWith_quiescent p).lane_idle
  exact {
    cfg_ok := hp
    lanes_length := by simp
    lane_inv := fun l ln hl => by
      rw [State.resetWith_lane?] at hl
      split at hl
      · cases hl; exact LaneInv.reset p
      · cases hl
    fl_wf := Memory.wf_empty _
    fl_handle := by simp
    rs_wf := Memory.wf_empty _
    slots_ok := by simp
    batchN_le := Nat.zero_le _
    row_lt := Nat.two_pow_pos _
    parLimit_range := ⟨hp.2.1, Nat.le_refl _⟩
    not_busy_and_done := by simp
    errIndex_set := by simp
    out_length := rfl
    idle_unless_busy := fun _ => hidle
    counters := by simp
    emitted_full := by simp
    undispatched_empty := by simp
    held_pending := by simp
    held_once := fun l _ i hholds => absurd hholds (not_holds_of_all_idle hidle l i)
    dispatched_accounted := by simp
    limit := by rw [nonIdle_eq_zero hidle]; exact Nat.zero_le _ }

theorem Inv.afterRst {s : State} (h : Inv s) : Inv s.afterRst := { Inv.resetWith h.cfg_ok with }

/-- The LOAD of a DISPATCH, with a row or without. -/
theorem Inv.dispatch_load {s t : State} {l : Nat} {ln : Lane} (h : Inv s) (hl : s.lane? l = some ln)
    (hpc : ln.pc = .idle) (hen : s.dispatchEnabled)
    (hload : { s with disp := s.disp + 1 }.loadFrame l ln s.disp = .next t) : Inv t := by
  have hlane := h.lane_inv l ln hl
  obtain ⟨_, -, ⟨row, hrow, rfl⟩ | ⟨-, rfl⟩⟩ := loadFrame_dispatched hload
  · exact h.dispatch hl hpc hen (loaded_laneInv hlane _ (usableRow_le hrow)) (by simp) rfl
  · exact (h.dispatch hl hpc hen (unavailable_laneInv hlane _) (by simp) rfl).setErrIndex _

/-- Every effect but that of LOAD alone, which no turn performs, keeps the invariant. -/
theorem Inv.of_effect {op : Instr} {s t : State} (h : Inv s) (he : Effect op s t) (hop : ∀ l i, op ≠ .load l i) :
    Inv t := by
  cases he with
  | waits => exact h
  | sampleBit v => exact h.of_sameBlock rfl
  | csrr v free => exact h.of_sameBlock rfl
  | bstartHeld hb => exact h.of_sameBlock rfl
  | unit hop hl hpc hadv => exact h.unit hl hpc hadv
  | collect hl hby hslot => exact h.collect hl hby.terminal hslot
  | load hl hpc hload => exact absurd rfl (hop _ _)
  | dispatch hl hpc hen hload => exact h.dispatch_load hl hpc hen hload
  | csrwBatchN hb => exact h.csrwBatchN hb _
  | csrwRow hb => exact h.csrwRow _
  | csrwParLimit hb => exact h.csrwParLimit hb _
  | flw hb hi => exact h.flw hi _
  | bstart hb => exact h.startBatch hb
  | drain hb hn hread hfull => exact h.drain hb hread hfull _
  | bdone hb hn => exact h.finishBatch hb hn

/-- R191: no turn performs LOAD. -/
theorem PerformedAt.ne_load {t : Turn} {op : Instr} (h : PerformedAt t op) (l i : Nat) : op ≠ .load l i := by
  rintro rfl; exact h

end Sys2Proof.Machine

namespace Sys2Proof.Proofs

open Sys2Proof Sys2Proof.Machine

/-- Settles O3: the reset state meets the invariant, and it is not busy, so no batch has any content. -/
theorem resetMeetsBatchInvariant : Obligations.ResetMeetsBatchInvariant := by
  unfold Obligations.ResetMeetsBatchInvariant
  have hreset (p : Params) (hp : p.Ok) : BatchInv (State.resetWith p) := ⟨Inv.resetWith hp, by simp⟩
  exact ⟨hreset, hreset Config.params Config.params_ok⟩

/-- Settles O53: a step resets the block, or changes nothing but the inputs and has the effect of one operation, each of
which keeps the invariant. -/
theorem everyStepKeepsInvariant : Obligations.EveryStepKeepsInvariant := by
  unfold Obligations.EveryStepKeepsInvariant
  intro s t h hstep
  obtain ⟨-, rfl⟩ | ⟨s', hinputs, rfl | ⟨op, hturn, heffect⟩⟩ := step_effect hstep
  · exact (h.of_sameBlock (takeTurn_inputs s).sameBlock).afterRst
  · exact h.of_sameBlock hinputs.sameBlock
  · exact (h.of_sameBlock hinputs.sameBlock).of_effect heffect hturn.ne_load

end Sys2Proof.Proofs
end

section
/-! One lane computes `decodeFrame` of its row (45_frame_decoder.md R194 to R198): `decodeFrame` unit by unit, and the lane
at each of its states on its way to the result. -/

namespace Sys2Proof.Machine

/-! ### `decodeFrame`, unit by unit -/

/-- The result of a unit that answers `x`, where `k` decodes the rest of the frame (R197). -/
def resultOf {α : Type} (x : Except Cause α) (k : α → FrameResult) : FrameResult :=
  match x with
  | .error c => rejectedResult c
  | .ok a => k a

@[simp] theorem resultOf_ok {α : Type} (a : α) (k : α → FrameResult) : resultOf (.ok a) k = k a := rfl
@[simp] theorem resultOf_error {α : Type} (c : Cause) (k : α → FrameResult) :
    resultOf (.error c) k = rejectedResult c := rfl

/-- The result from VALIDATE on. -/
def validateResult (b0 b1 : RByte) (par : BitVec 2) : FrameResult :=
  resultOf (validate b0 b1 par) fun _ => { byte0 := b0, byte1 := b1, valid := true, cause := .none }

/-- The result from ASSEMBLE on. -/
def assembleResult (br : List Bin) (bs bw : Nat) : FrameResult :=
  resultOf (assemble br bs bw) fun (b0, b1, par) => validateResult b0 b1 par

/-- The result from SANITY on. -/
def sanityResult (br : List Bin) (bs bw : Nat) : FrameResult :=
  resultOf (sanity br bs bw) fun _ => assembleResult br bs bw

/-- The result from CALIB on. -/
def calibResult (br : List Bin) (start stop : Nat) : FrameResult :=
  resultOf (calibrate br start stop) fun (bw, bs) => sanityResult br bs bw

/-- The result from LOCATE on. -/
def locateResult (br : List Bin) : FrameResult :=
  resultOf (locate br) fun (start, stop) => calibResult br start stop

/-- R197: `decodeFrame` is the composition of the units' functions. -/
theorem decodeFrame_eq (row : List Sample) : decodeFrame row = resultOf (normalize row) locateResult := by
  unfold decodeFrame
  cases normalize row with
  | error c => rfl
  | ok br =>
    dsimp only [resultOf_ok, locateResult]
    cases locate br with
    | error c => rfl
    | ok run =>
      dsimp only [resultOf_ok, calibResult]
      cases calibrate br run.1 run.2 with
      | error c => rfl
      | ok timing =>
        dsimp only [resultOf_ok, sanityResult]
        cases sanity br timing.2 timing.1 with
        | error c => rfl
        | ok _ =>
          dsimp only [resultOf_ok, assembleResult]
          cases assemble br timing.2 timing.1 with
          | error c => rfl
          | ok bytes =>
            dsimp only [resultOf_ok, validateResult]
            cases validate bytes.1 bytes.2.1 bytes.2.2 <;> rfl

/-! ### A lane on its way to a result -/

/-- At most `n` operations bring the lane to a terminal state, with the result `r`. -/
def Lane.EndsWith (ln : Lane) (n : Nat) (r : FrameResult) : Prop :=
  ∃ ln', ln.advanceN n = some ln' ∧ ln'.hasResult r ∧
    ((ln'.pc = .done ∧ ln'.valid = true) ∨ (ln'.pc = .rejected ∧ ln'.valid = false))

/-- What a unit's answer makes of its lane. -/
def Stage.ofExcept {α : Type} (x : Except Cause α) (k : α → Lane) : Stage Lane :=
  match x with
  | .error c => .reject c
  | .ok a => .ok (k a)

/-- A unit that answers as the function of the row does: its rejection ends the lane, its success hands on. -/
theorem Lane.EndsWith.of_unit {α : Type} {ln : Lane} {u : Stage Lane} {n : Nat} {x : Except Cause α} {next : α → Lane}
    {k : α → FrameResult} (hadv : ln.advance = ln.settle u) (hu : u = Stage.ofExcept x next)
    (hk : ∀ a, x = .ok a → (next a).EndsWith n (k a)) : ln.EndsWith (n + 1) (resultOf x k) := by
  cases x with
  | error c => exact finish_reject (by rw [hadv, hu]; rfl)
  | ok a =>
    obtain ⟨ln', hrun, hres⟩ := hk a rfl
    exact ⟨ln', by rw [advanceN_succ_of (ln' := next a) (by rw [hadv, hu]; rfl), hrun], hres⟩

section Stages
variable {ln : Lane} {bits : List Bin} {bs bw : Nat} {b0 b1 : RByte} {par : BitVec 2}

theorem Lane.EndsWith.validate (hpc : ln.pc = .bytesAssembled) (hc : ln.cause = .none) (h0 : ln.byte0 = .val b0)
    (h1 : ln.byte1 = .val b1) (hp : ln.par = .val par) : ln.EndsWith 1 (validateResult b0 b1 par) := by
  refine .of_unit (u := validateUnit ln) (next := fun _ => { ln with valid := true, pc := .done })
    (by rw [Lane.advance, hpc]) ?unit fun _ _ => ?ends
  case unit =>
    rw [validateUnit_row (b0 := b0) (b1 := b1) (par := par) (by rw [h0]; rfl) (by rw [h1]; rfl) (by rw [hp]; rfl)]
    cases Machine.validate b0 b1 par <;> rfl
  case ends => exact ⟨_, rfl, ⟨by rw [h0]; rfl, by rw [h1]; rfl, rfl, hc⟩, .inl ⟨rfl, rfl⟩⟩

theorem Lane.EndsWith.assemble (hpc : ln.pc = .sanityChecked) (hc : ln.cause = .none) (hrow : ln.binaryRow bits)
    (hbs : ln.bitStart.read = bs) (hbw : ln.bitWidth.read = bw) : ln.EndsWith 2 (assembleResult bits bs bw) := by
  refine .of_unit (u := assembleUnit ln)
    (next := fun (b0, b1, par) =>
      { ln with byte0 := .val b0, byte1 := .val b1, par := .val par, pc := .bytesAssembled })
    (by rw [Lane.advance, hpc]) ?unit fun (b0, b1, par) _ => Lane.EndsWith.validate rfl hc rfl rfl rfl
  case unit =>
    rw [assembleUnit_row hrow hbs hbw]
    cases Machine.assemble bits bs bw <;> rfl

theorem Lane.EndsWith.sanity (hpc : ln.pc = .calibrated) (hc : ln.cause = .none) (hrow : ln.binaryRow bits)
    (hbs : ln.bitStart.read = bs) (hbw : ln.bitWidth.read = bw) : ln.EndsWith 3 (sanityResult bits bs bw) := by
  refine .of_unit (u := sanityUnit ln) (next := fun _ => { ln with pc := .sanityChecked })
    (by rw [Lane.advance, hpc]) ?unit fun _ _ => Lane.EndsWith.assemble rfl hc hrow hbs hbw
  case unit =>
    rw [sanityUnit_row hrow hbs hbw]
    cases Machine.sanity bits bs bw <;> rfl

theorem Lane.EndsWith.calib {start stop : Nat} (hpc : ln.pc = .runInFound) (hc : ln.cause = .none)
    (hrow : ln.binaryRow bits) (hstart : ln.startRunIn.read = start) (hstop : ln.stopRunIn.read = stop) :
    ln.EndsWith 4 (calibResult bits start stop) := by
  have hunit := calibUnit_row hrow.1 hstart hstop fun j _ hj => hrow.2 j hj
  unfold calibResult calibrate
  cases hone : firstOne bits stop with
  | none =>
    rw [hone] at hunit
    exact finish_reject (by rw [Lane.advance, hpc]; simp only [hunit]; rfl)
  | some rise =>
    rw [hone] at hunit
    obtain ⟨ln', hrun, hres⟩ := Lane.EndsWith.sanity (bits := bits) (ln := { ln with
      runInLength := .val (stop - start)
      bitWidth := .val (bitWidthOf (stop - start))
      riseIdx := .val rise
      bitStart := .val (rise + bitWidthOf (stop - start))
      pc := .calibrated }) rfl hc hrow rfl rfl
    refine ⟨ln', ?_, hres⟩
    rw [advanceN_succ_of (by rw [Lane.advance, hpc]; simp only [hunit]; rfl), hrun]

theorem Lane.EndsWith.locate (hpc : ln.pc = .normalized) (hc : ln.cause = .none) (hrow : ln.binaryRow bits) :
    ln.EndsWith 5 (locateResult bits) := by
  refine .of_unit (u := locateUnit ln)
    (next := fun (start, stop) => { ln with startRunIn := .val start, stopRunIn := .val stop, pc := .runInFound })
    (by rw [Lane.advance, hpc]) ?unit fun (start, stop) _ => Lane.EndsWith.calib rfl hc hrow rfl rfl
  case unit =>
    rw [locateUnit_row hrow]
    cases Machine.locate bits <;> rfl

/-- R101: NORM leaves a lane that holds the classified row. -/
theorem binaryRow_of_norm {row : List Sample} (hw : ln.w.read = row.length) (m : Nat) (mx : Reg (BitVec 8)) :
    Lane.binaryRow { ln with
      br := ln.br.writePrefix (binarise m false row), maxluma := mx, pc := .normalized } (binarise m false row) :=
  ⟨by rw [binarise_length]; exact hw, fun j hj => by rw [Memory.read?_writePrefix, if_pos hj]⟩

theorem Lane.EndsWith.norm {row : List Sample} (hpc : ln.pc = .start) (hc : ln.cause = .none)
    (hrow : ln.sampleRowIs row) : ln.EndsWith 6 (decodeFrame row) := by
  rw [decodeFrame_eq]
  refine .of_unit (u := normUnit ln)
    (next := fun br => { ln with
      br := ln.br.writePrefix br, maxluma := .val (BitVec.ofNat 8 (peak row)), pc := .normalized })
    (by rw [Lane.advance, hpc]) ?unit fun br hbr => ?ends
  case unit =>
    rw [normUnit_row hrow, normalize]
    split <;> rfl
  case ends =>
    have hbr : br = binarise (peak row) false row := by
      unfold normalize at hbr
      split at hbr <;> cases hbr
      rfl
    subst hbr
    exact Lane.EndsWith.locate rfl hc (binaryRow_of_norm hrow.1 _ _)

end Stages

/-! ### A lane's turn -/

/-- A lane operation is the lane's own operation, put on the block. -/
theorem laneOp_settle {at_ : LaneState} {u : Lane → Stage Lane} {s : State} {l : Nat} {ln ln' : Lane}
    (hl : s.lane? l = some ln) (hpc : ln.pc = at_) (hset : ln.settle (u ln) = some ln') :
    laneOp at_ u l s = .next (s.setLane l ln') := by
  obtain hu | ⟨c, hu, rfl⟩ := settle_cases hset
  · exact laneOp_ok hl hpc hu
  · exact laneOp_reject hl hpc hu

theorem fetch_withAgent_lane {s : State} {l : Nat} {ln : Lane} (hl : s.lane? l = some ln) :
    (s.withAgent (.lane l)).fetch = .selected (.state l ln.pc.code) s := by
  rw [fetch_withAgent]; simp only [State.agentSelects, hl]

/-- R194: the turn of a lane in `S_IDLE` or in a state that selects a unit. -/
theorem step_withAgent_lane {s : State} {l : Nat} {ln ln' : Lane} (hl : s.lane? l = some ln)
    (hadv : ln.advance = some ln') (hdone : ln.pc ≠ .done) (hrej : ln.pc ≠ .rejected) :
    step (s.withAgent (.lane l)) = .next (s.setLane l ln') := by
  have hf := fetch_withAgent_lane hl
  have hd := decode_state_code l ln.pc
  unfold Lane.advance at hadv
  cases hst : ln.pc with rw [hst] at hf hd hadv
  | done => exact absurd hst hdone
  | rejected => exact absurd hst hrej
  | idle =>
    cases hadv
    rw [step_of_fetch_idle_lane hf, State.setLane_same hl]
  | start => exact (step_of_fetch_selected hf hd).trans (laneOp_settle hl hst hadv)
  | normalized => exact (step_of_fetch_selected hf hd).trans (laneOp_settle hl hst hadv)
  | runInFound => exact (step_of_fetch_selected hf hd).trans (laneOp_settle hl hst hadv)
  | calibrated => exact (step_of_fetch_selected hf hd).trans (laneOp_settle hl hst hadv)
  | sanityChecked => exact (step_of_fetch_selected hf hd).trans (laneOp_settle hl hst hadv)
  | bytesAssembled => exact (step_of_fetch_selected hf hd).trans (laneOp_settle hl hst hadv)

/-- R198 (d): what the lane held before does not enter its result. -/
theorem endsWith_loaded (p : Params) (ln : Lane) (i : Nat) (row : List Sample) :
    (ln.loaded p i row).EndsWith 6 (decodeFrame row) :=
  Lane.EndsWith.norm rfl rfl (Lane.loaded_sampleRowIs p ln i row)

end Sys2Proof.Machine

namespace Sys2Proof.Proofs

open Sys2Proof Sys2Proof.Machine

/-- Settles O48: the pc selects the unit, and the lane operation is the lane's own, put on the block. -/
theorem laneTurnAdvancesLane : Obligations.LaneTurnAdvancesLane := by
  unfold Obligations.LaneTurnAdvancesLane
  intro s l ln ln' hl hadv hdone hrej
  exact step_withAgent_lane hl hadv hdone hrej

/-- Settles O49: unit after unit, the lane hands on what the functions of the row hand on. -/
theorem laneComputesDecodeFrame : Obligations.LaneComputesDecodeFrame := by
  unfold Obligations.LaneComputesDecodeFrame
  intro ln row hpc hc hrow
  exact Lane.EndsWith.norm hpc hc hrow

/-- Settles O50: both lanes end with `decodeFrame` of the row, in which neither what they held nor the index occurs. -/
theorem laneHistoryIsIrrelevant : Obligations.LaneHistoryIsIrrelevant := by
  unfold Obligations.LaneHistoryIsIrrelevant
  intro p ln1 ln2 i j row
  obtain ⟨a, hrun1, hres1, -⟩ := endsWith_loaded p ln1 i row
  obtain ⟨b, hrun2, hres2, -⟩ := endsWith_loaded p ln2 j row
  exact ⟨a, b, decodeFrame row, hrun1, hrun2, hres1, hres2⟩

end Sys2Proof.Proofs
end

section
/-! The content of a running batch (46_batch_array.md R225): every effect of an operation keeps it, and at the end of the
batch it is the stream of the frames' results (O54, O55). -/

namespace Sys2Proof.Machine

/-! ### The Decode Result of a frame -/

section FrameResult
variable {s : State} {i h : Nat}

theorem frameResult_of_row {row : List Sample} (hfl : s.fl.read? i = some h)
    (hrow : usableRow s.cfg (s.readScanline h) = some row) : s.frameResult i = some (decodeFrame row) := by
  simp [State.frameResult, hfl, answerResult, hrow]

theorem frameResult_of_no_row (hfl : s.fl.read? i = some h) (hrow : usableRow s.cfg (s.readScanline h) = none) :
    s.frameResult i = some (rejectedResult .rowUnavailable) := by
  simp [State.frameResult, hfl, answerResult, hrow]

theorem frameUnavailable_of_row {row : List Sample} (hfl : s.fl.read? i = some h)
    (hrow : usableRow s.cfg (s.readScanline h) = some row) : s.frameUnavailable i = false := by
  simp [State.frameUnavailable, hfl, hrow]

theorem frameUnavailable_of_no_row (hfl : s.fl.read? i = some h)
    (hrow : usableRow s.cfg (s.readScanline h) = none) : s.frameUnavailable i = true := by
  simp [State.frameUnavailable, hfl, hrow]

end FrameResult

/-- A full slot is there. -/
theorem exists_slot_of_slotFull {s : State} {i : Nat} (h : s.slotFull i = true) :
    ∃ slot, s.rs.read? i = some slot ∧ slot.full = true := by
  unfold State.slotFull at h
  split at h
  · next slot hread => exact ⟨slot, hread, h⟩
  · cases h

/-- R221: the stream of one frame more. -/
theorem expectedStream_succ {s : State} {n : Nat} {r : FrameResult} (hr : s.frameResult n = some r) :
    s.expectedStream (n + 1) = s.expectedStream n ++ slotBeats r.slot (decide (n + 1 = s.batchN)) := by
  simp [State.expectedStream, List.range_succ, hr]

/-- R196: in a terminal state, the slot of a lane is that of its result. -/
theorem slot_of_hasResult {ln : Lane} {r : FrameResult} (h : ln.hasResult r) : ln.slot = r.slot := by
  obtain ⟨h0, h1, hvalid, hcause⟩ := h
  simp [Lane.slot, FrameResult.slot, Reg.read_of_value? h0, Reg.read_of_value? h1, hvalid, hcause]

/-! ### Each effect keeps the content -/

section Content
variable {s : State} {l : Nat} {ln : Lane}

theorem BatchContent.of_sameBlock {t : State} (h : BatchContent s) (hst : SameBlock s t) : BatchContent t := by
  rw [hst]; exact { h with }

theorem BatchContent.unit {ln' : Lane} (h : BatchContent s) (hl : s.lane? l = some ln) (hpc : Decoding ln.pc)
    (hadv : ln.advance = some ln') : BatchContent (s.setLane l ln') :=
  { h with
    lanes := fun m x i hx hne hf => by
      rw [State.lane?_setLane hl] at hx
      split at hx
      · cases hx
        rw [finish_advance hadv]
        exact h.lanes l ln i hl hpc.1 (by rw [← advance_fidx hpc hadv, hf])
      · exact h.lanes m x i hx hne hf }

/-- A lane in a terminal state has its frame's result. -/
theorem BatchContent.result_of_terminal (h : BatchContent s) (hinv : Inv s) (hl : s.lane? l = some ln)
    (hpc : ln.pc = .done ∨ ln.pc = .rejected) : ∃ r, s.frameResult ln.fidx.read = some r ∧ ln.hasResult r := by
  have hne := terminal_ne_idle hpc
  obtain ⟨f, hf⟩ := (hinv.lane_inv l ln hl).frame hne
  obtain ⟨ln', r, hrun, hr, hres⟩ := h.lanes l ln f hl hne hf
  have hstay : ln.finish = some ln := advanceN_terminal hpc 6
  rw [hstay] at hrun; cases hrun
  exact ⟨r, by rwa [Reg.read_of_value? hf], hres⟩

theorem BatchContent.collect (h : BatchContent s) (hinv : Inv s) (hl : s.lane? l = some ln)
    (hpc : ln.pc = .done ∨ ln.pc = .rejected) : BatchContent (s.collected l ln) :=
  { h with
    lanes := fun m x i hx hne hf => by
      rw [lane?_collected hl] at hx
      split at hx
      · cases hx; exact absurd rfl hne
      · exact h.lanes m x i hx hne hf
    slots := fun i slot hi hfull => by
      replace hi : (s.rs.write ln.fidx.read ln.slot).read? i = some slot := hi
      rw [Memory.read?_write] at hi
      split at hi
      next hown =>
        cases hi; subst hown
        obtain ⟨r, hr, hres⟩ := h.result_of_terminal hinv hl hpc
        exact ⟨r, hr, slot_of_hasResult hres⟩
      next => exact h.slots i slot hi hfull }

theorem BatchContent.startBatch (hidle : ∀ l ln, s.lane? l = some ln → ln.pc = .idle) : BatchContent s.startBatch where
  lanes l ln i hl hne _ := absurd (hidle l ln hl) hne
  slots i slot hi hfull := by
    have hempty := slotFull_startBatch s i
    rw [slotFull_of_read hi, hfull] at hempty
    cases hempty
  stream := rfl
  rowError := by simp
  errIndex := by simp

theorem BatchContent.drain {slot : Slot} (h : BatchContent s) (hread : s.rs.read? s.next = some slot)
    (hfull : slot.full = true) :
    BatchContent { s with
      out := s.out ++ slotBeats slot (decide (s.next + 1 = s.batchN)), next := s.next + 1 } :=
  { h with
    stream := by
      obtain ⟨r, hr, rfl⟩ := h.slots s.next slot hread hfull
      show s.out ++ _ = s.expectedStream (s.next + 1)
      rw [expectedStream_succ hr, h.stream] }

/-! ### DISPATCH: the lane, and the row-error cells -/

/-- The lanes after frame `disp` was given to lane `l`, which becomes `ln'` and ends with the frame's result. -/
theorem BatchContent.lanes_dispatched {ln' : Lane} {r : FrameResult} (h : BatchContent s)
    (hl : s.lane? l = some ln) (hf' : ln'.fidx = .val s.disp) (hr : s.frameResult s.disp = some r)
    (hends : ln'.EndsWith 6 r) (m : Nat) (x : Lane) (i : Nat) (hx : (s.dispatched l ln').lane? m = some x)
    (hne : x.pc ≠ .idle) (hf : x.fidx.value? = some i) :
    ∃ x' r, x.finish = some x' ∧ s.frameResult i = some r ∧ x'.hasResult r := by
  rw [lane?_dispatched hl] at hx
  split at hx
  · cases hx
    rw [hf'] at hf; cases hf
    obtain ⟨x', hrun, hres, -⟩ := hends
    exact ⟨x', r, hrun, hr, hres⟩
  · exact h.lanes m x i hx hne hf

/-- A frame without a row among the first `n + 1` is among the first `n`, or is the last. -/
theorem exists_unavailable_succ_iff (s : State) (n : Nat) :
    (∃ i, i < n + 1 ∧ s.frameUnavailable i = true) ↔
      (∃ i, i < n ∧ s.frameUnavailable i = true) ∨ s.frameUnavailable n = true := by
  simp only [Nat.lt_succ_iff_lt_or_eq, or_and_right, exists_or, exists_eq_left]

theorem BatchContent.dispatch_row {handle : Nat} {row : List Sample} (h : BatchContent s) (hl : s.lane? l = some ln)
    (hfl : s.fl.read? s.disp = some handle) (hrow : usableRow s.cfg (s.readScanline handle) = some row) :
    BatchContent (s.dispatched l (ln.loaded s.cfg s.disp row)) := by
  have havail := frameUnavailable_of_row hfl hrow
  exact { h with
    lanes := h.lanes_dispatched hl rfl (frameResult_of_row hfl hrow) (endsWith_loaded s.cfg ln s.disp row)
    rowError := by
      refine h.rowError.trans (Iff.trans ?_ (exists_unavailable_succ_iff s s.disp).symm)
      simp [havail]
    errIndex := fun herr => by
      obtain ⟨e, he, hlt, hun, hleast⟩ := h.errIndex herr
      refine ⟨e, he, Nat.lt_succ_of_lt hlt, hun, fun i hi hi' => ?_⟩
      obtain hlt | rfl := Nat.lt_succ_iff_lt_or_eq.mp hi
      · exact hleast i hlt hi'
      · exact absurd (hi'.symm.trans havail) (by simp) }

/-- R34: the merged index is the least of the frames without a row, the new one included. -/
theorem BatchContent.mergedErrIndex_least (h : BatchContent s) (hnew : s.frameUnavailable s.disp = true) :
    mergedErrIndex s.rowError s.errIndex s.disp < s.disp + 1 ∧
      s.frameUnavailable (mergedErrIndex s.rowError s.errIndex s.disp) = true ∧
      ∀ i, i < s.disp + 1 → s.frameUnavailable i = true → mergedErrIndex s.rowError s.errIndex s.disp ≤ i := by
  cases herr : s.rowError with
  | false =>
    have hnone : ¬∃ i, i < s.disp ∧ s.frameUnavailable i = true := by rw [← h.rowError, herr]; simp
    rw [mergedErrIndex_of_no_error]
    refine ⟨Nat.lt_succ_self _, hnew, fun i hi hi' => ?_⟩
    by_contra hlt
    exact hnone ⟨i, Nat.not_le.mp hlt, hi'⟩
  | true =>
    obtain ⟨e, he, hlt, hun, hleast⟩ := h.errIndex herr
    have hmin : mergedErrIndex true s.errIndex s.disp = e := by
      rw [mergedErrIndex_of_error, Reg.read_of_value? he]
      exact Nat.min_eq_left (Nat.le_of_lt hlt)
    rw [hmin]
    refine ⟨Nat.lt_succ_of_lt hlt, hun, fun i hi hi' => ?_⟩
    obtain hi | rfl := Nat.lt_succ_iff_lt_or_eq.mp hi
    · exact hleast i hi hi'
    · exact Nat.le_of_lt hlt

/-- R193: LOAD without a row leaves the lane in its terminal state. -/
theorem endsWith_unavailable (p : Params) (ln : Lane) (i n : Nat) :
    (ln.unavailable p i).EndsWith n (rejectedResult .rowUnavailable) :=
  ⟨_, advanceN_terminal (.inr rfl) n, ⟨rfl, rfl, rfl, rfl⟩, .inr ⟨rfl, rfl⟩⟩

theorem BatchContent.dispatch_no_row {handle : Nat} (h : BatchContent s) (hl : s.lane? l = some ln)
    (hfl : s.fl.read? s.disp = some handle) (hrow : usableRow s.cfg (s.readScanline handle) = none) :
    BatchContent { s.dispatched l (ln.unavailable s.cfg s.disp) with
      errIndex := .val (mergedErrIndex s.rowError s.errIndex s.disp), rowError := true } := by
  have hun := frameUnavailable_of_no_row hfl hrow
  exact { h with
    lanes := h.lanes_dispatched hl rfl (frameResult_of_no_row hfl hrow) (endsWith_unavailable s.cfg ln s.disp 6)
    rowError := ⟨fun _ => ⟨s.disp, Nat.lt_succ_self _, hun⟩, fun _ => rfl⟩
    errIndex := fun _ => ⟨_, rfl, h.mergedErrIndex_least hun⟩ }

end Content

/-! ### Every effect, and the end of the batch -/

/-- Every effect on a running batch keeps its content, and BSTART's makes it. -/
theorem BatchInv.of_effect {op : Instr} {s t : State} (h : BatchInv s) (he : Effect op s t)
    (hop : ∀ l i, op ≠ .load l i) : BatchInv t := by
  obtain ⟨hinv, hcontent⟩ := h
  refine ⟨hinv.of_effect he hop, fun hbusy => ?_⟩
  cases he with
  | waits => exact hcontent hbusy
  | sampleBit v => exact (hcontent hbusy).of_sameBlock rfl
  | csrr v free => exact (hcontent hbusy).of_sameBlock rfl
  | bstartHeld hb => exact (hcontent hb).of_sameBlock rfl
  | unit hop hl hpc hadv => exact (hcontent hbusy).unit hl hpc hadv
  | collect hl hby hslot => exact (hcontent hbusy).collect hinv hl hby.terminal
  | load hl hpc hload => exact absurd rfl (hop _ _)
  | dispatch hl hpc hen hload =>
    have hc := hcontent hen.1
    obtain ⟨handle, hfl, ⟨row, hrow, rfl⟩ | ⟨hrow, rfl⟩⟩ := loadFrame_dispatched hload
    · exact hc.dispatch_row hl hfl hrow
    · exact hc.dispatch_no_row hl hfl hrow
  | csrwBatchN hb => exact absurd (hb.symm.trans hbusy) (by simp)
  | csrwRow hb => exact absurd (hb.symm.trans hbusy) (by simp)
  | csrwParLimit hb => exact absurd (hb.symm.trans hbusy) (by simp)
  | flw hb hi => exact absurd (hb.symm.trans hbusy) (by simp)
  | bstart hb => exact BatchContent.startBatch (hinv.idle_unless_busy hb)
  | drain hb hn hread hfull => exact (hcontent hb).drain hread hfull
  | bdone hb hn => cases hbusy

theorem BatchInv.of_sameBlock {s t : State} (h : BatchInv s) (hst : SameBlock s t) : BatchInv t := by
  obtain ⟨hinv, hcontent⟩ := h
  refine ⟨hinv.of_sameBlock hst, fun hbusy => ?_⟩
  have hb : s.busy = true := by rw [hst] at hbusy; exact hbusy
  exact (hcontent hb).of_sameBlock hst

end Sys2Proof.Machine

namespace Sys2Proof.Proofs

open Sys2Proof Sys2Proof.Machine

/-- Settles O54: a step resets the block, which ends the batch, or changes nothing but the inputs and has the effect of one
operation, each of which keeps the content. -/
theorem everyStepKeepsBatchContent : Obligations.EveryStepKeepsBatchContent := by
  unfold Obligations.EveryStepKeepsBatchContent
  intro s t h hstep
  obtain ⟨-, rfl⟩ | ⟨s', hinputs, rfl | ⟨op, hturn, heffect⟩⟩ := step_effect hstep
  · exact ⟨(h.1.of_sameBlock (takeTurn_inputs s).sameBlock).afterRst, by simp⟩
  · exact h.of_sameBlock hinputs.sameBlock
  · exact (h.of_sameBlock hinputs.sameBlock).of_effect heffect hturn.ne_load

/-- Settles O55: with every frame drained the counters meet at `N`, every slot is full, and the batch's content is read
off there. -/
theorem finishedBatchStream : Obligations.FinishedBatchStream := by
  unfold Obligations.FinishedBatchStream
  rintro s ⟨hinv, hcontent⟩ hb hn
  have hc := hcontent hb
  obtain ⟨hnd, hdn⟩ := hinv.counters hb
  have hdisp : s.disp = s.batchN := by omega
  refine ⟨by rw [hc.stream, hn], by rw [hinv.out_length, hn], fun i hi => ?slots, hinv.all_idle_of_drained hb hn, hdisp,
    by rw [hc.rowError, hdisp], fun herr => ?errIndex⟩
  case slots =>
    obtain ⟨slot, hread, hfull⟩ := exists_slot_of_slotFull (hinv.emitted_full hb i (by omega))
    obtain ⟨r, hr, rfl⟩ := hc.slots i slot hread hfull
    exact ⟨r, hr, hread⟩
  case errIndex =>
    obtain ⟨e, he, -, hun, hleast⟩ := hc.errIndex herr
    exact ⟨e, he, hun, fun i hi => hleast i (by omega)⟩

end Sys2Proof.Proofs
end

section
/-! What one step makes of one lane, and of the inputs of a running batch (10_state.md R26, R27, 20_memory.md R60,
46_batch_array.md R216, R228). -/

namespace Sys2Proof.Machine

/-! ### One lane under one operation -/

/-- What an operation that a turn can perform makes of lane `l`, which is `ln` before. -/
inductive LaneChange (op : Instr) (s t : State) (l : Nat) (ln : Lane) : Lane → Prop
  | stays : LaneChange op s t l ln ln
  | unit {ln' : Lane} (hpc : Decoding ln.pc) (hadv : ln.advance = some ln') : LaneChange op s t l ln ln'
  | collect (hop : CollectedBy l ln.pc op) (hfull : t.slotFull ln.fidx.read = true) :
      LaneChange op s t l ln { ln with pc := .idle }
  | loaded {row : List Sample} (hop : op = .dispatch l) (hpc : ln.pc = .idle) (hen : s.dispatchEnabled)
      (hdisp : t.disp = s.disp + 1) : LaneChange op s t l ln (ln.loaded s.cfg s.disp row)
  | unavailable (hop : op = .dispatch l) (hpc : ln.pc = .idle) (hen : s.dispatchEnabled)
      (hdisp : t.disp = s.disp + 1) : LaneChange op s t l ln (ln.unavailable s.cfg s.disp)

/-- A change of lane `m` is one of lane `l`, where they are the same, and leaves it otherwise. -/
theorem laneChange_of_set {op : Instr} {s t : State} {l m : Nat} {ln x new : Lane} (hl : s.lane? l = some ln)
    (hm : s.lane? m = some x) (ht : ∀ k, t.lane? k = if k = m then some new else s.lane? k)
    (hchange : LaneChange op s t m x new) : ∃ ln', t.lane? l = some ln' ∧ LaneChange op s t l ln ln' := by
  rw [ht]
  split
  next heq =>
    subst heq
    rw [hl] at hm; cases hm
    exact ⟨new, rfl, hchange⟩
  next => exact ⟨ln, hl, .stays⟩

theorem slotFull_collected_self {s : State} {l : Nat} {ln : Lane} :
    (s.collected l ln).slotFull ln.fidx.read = true := by
  rw [slotFull_collected, if_pos rfl]

/-- Every lane after an operation that a turn can perform. -/
theorem Effect.laneChange {op : Instr} {s t : State} {l : Nat} {ln : Lane} (he : Effect op s t)
    (hop : ∀ l i, op ≠ .load l i) (hl : s.lane? l = some ln) :
    ∃ ln', t.lane? l = some ln' ∧ LaneChange op s t l ln ln' := by
  cases he with
  | waits => exact ⟨ln, hl, .stays⟩
  | sampleBit v => exact ⟨ln, hl, .stays⟩
  | csrr v free => exact ⟨ln, hl, .stays⟩
  | bstartHeld hb => exact ⟨ln, hl, .stays⟩
  | unit hdec hm hpc hadv => exact laneChange_of_set hl hm (State.lane?_setLane hm _) (.unit hpc hadv)
  | collect hm hby hslot => exact laneChange_of_set hl hm (lane?_collected hm) (.collect hby slotFull_collected_self)
  | load hm hpc hload => exact absurd rfl (hop _ _)
  | dispatch hm hpc hen hload =>
    obtain ⟨_, -, ⟨row, -, rfl⟩ | ⟨-, rfl⟩⟩ := loadFrame_dispatched hload
    · exact laneChange_of_set hl hm (lane?_dispatched hm) (.loaded rfl hpc hen rfl)
    · exact laneChange_of_set hl hm (lane?_dispatched hm) (.unavailable rfl hpc hen rfl)
  | csrwBatchN hb => exact ⟨ln, hl, .stays⟩
  | csrwRow hb => exact ⟨ln, hl, .stays⟩
  | csrwParLimit hb => exact ⟨ln, hl, .stays⟩
  | flw hb hi => exact ⟨ln, hl, .stays⟩
  | bstart hb => exact ⟨ln, hl, .stays⟩
  | drain hb hn hread hfull => exact ⟨ln, hl, .stays⟩
  | bdone hb hn => exact ⟨ln, hl, .stays⟩

/-- Every lane after a step that is no reset. -/
theorem step_laneChange {s t : State} {l : Nat} {ln : Lane} (h : step s = .next t) (hturn : s.takeTurn.1 ≠ .rst)
    (hl : s.lane? l = some ln) :
    ∃ ln', t.lane? l = some ln' ∧ (ln' = ln ∨ ∃ op, PerformedAt s.takeTurn.1 op ∧ LaneChange op s t l ln ln') := by
  obtain ⟨hrst, -⟩ | ⟨s', hinputs, hs'⟩ := step_effect h
  · exact absurd hrst hturn
  obtain ⟨hsame, -⟩ := hinputs
  have hl' : s'.lane? l = some ln := by rw [hsame]; exact hl
  obtain rfl | ⟨op, hperf, heffect⟩ := hs'
  · exact ⟨ln, hl', .inl rfl⟩
  · obtain ⟨ln', ht, hchange⟩ := heffect.laneChange hperf.ne_load hl'
    refine ⟨ln', ht, .inr ⟨op, hperf, ?_⟩⟩
    rw [hsame] at hchange
    cases hchange with
    | stays => exact .stays
    | unit hpc hadv => exact .unit hpc hadv
    | collect hop hfull => exact .collect hop hfull
    | loaded hop hpc hen hdisp => exact .loaded hop hpc hen hdisp
    | unavailable hop hpc hen hdisp => exact .unavailable hop hpc hen hdisp

/-! ### The table of the state register -/

/-- The rows of R26 that a lane's `pc` can follow, with the cause that the lane holds afterwards. -/
def FollowsTable (st st' : LaneState) (cause : Cause) : Prop :=
  (st, st') ∈ [(LaneState.idle, LaneState.start), (.start, .normalized), (.normalized, .runInFound),
    (.runInFound, .calibrated), (.calibrated, .sanityChecked), (.sanityChecked, .bytesAssembled),
    (.bytesAssembled, .done), (.done, .idle), (.rejected, .idle)] ∨
  (st' = .rejected ∧ (st, cause) ∈ [(LaneState.idle, Cause.rowUnavailable), (.start, .blankLine),
    (.normalized, .runInNotFound), (.normalized, .runInOutOfRange), (.runInFound, .startEdgeNotFound),
    (.calibrated, .outOfRange), (.calibrated, .sanityMismatch), (.sanityChecked, .outOfRange),
    (.bytesAssembled, .parityMismatch)])

theorem followsTable_success (st : LaneState) (cause : Cause) : FollowsTable st (successOf st) cause := by
  cases st <;> simp [FollowsTable, successOf]

theorem followsTable_reject {st : LaneState} {cause : Cause} (hc : cause ∈ causesOf st) :
    FollowsTable st .rejected cause := by
  cases st <;> simp_all [FollowsTable, causesOf]

theorem LaneChange.followsTable {op : Instr} {s t : State} {l : Nat} {ln ln' : Lane}
    (h : LaneChange op s t l ln ln') (hne : ln'.pc ≠ ln.pc) : FollowsTable ln.pc ln'.pc ln'.cause := by
  cases h with
  | stays => exact absurd rfl hne
  | unit hpc hadv =>
    obtain ⟨hst, -⟩ | ⟨c, hc, rfl⟩ := advance_table hpc hadv
    · rw [hst]; exact followsTable_success _ _
    · exact followsTable_reject hc
  | collect hop hfull => obtain hpc | hpc := hop.terminal <;> rw [hpc] <;> exact followsTable_success _ _
  | loaded hop hpc hen hdisp => rw [hpc]; exact followsTable_success _ _
  | unavailable hop hpc hen hdisp => rw [hpc]; exact followsTable_reject (by simp [causesOf])

/-! ### The inputs of a running batch -/

/-- R60 (a), R281: while busy, no operation writes an input of the batch. -/
theorem Effect.inputs_frozen {op : Instr} {s t : State} (he : Effect op s t) (hop : ∀ l i, op ≠ .load l i)
    (hb : s.busy = true) :
    t.fl = s.fl ∧ t.batchN = s.batchN ∧ t.row = s.row ∧ t.parLimit = s.parLimit ∧ t.cfg = s.cfg ∧
      t.sampler = s.sampler := by
  cases he with
  | waits => simp
  | sampleBit v => simp
  | csrr v free => simp
  | bstartHeld hbusy => simp
  | unit hdec hl hpc hadv => simp
  | collect hl hby hslot => simp [State.collected]
  | load hl hpc hload => exact absurd rfl (hop _ _)
  | dispatch hl hpc hen hload =>
    obtain ⟨_, -, ⟨row, -, rfl⟩ | ⟨-, rfl⟩⟩ := loadFrame_dispatched hload <;> simp [State.dispatched]
  | csrwBatchN hidle => exact absurd (hidle.symm.trans hb) (by simp)
  | csrwRow hidle => exact absurd (hidle.symm.trans hb) (by simp)
  | csrwParLimit hidle => exact absurd (hidle.symm.trans hb) (by simp)
  | flw hidle hi => exact absurd (hidle.symm.trans hb) (by simp)
  | bstart hidle => simp
  | drain hbusy hn hread hfull => simp
  | bdone hbusy hn => simp

end Sys2Proof.Machine

namespace Sys2Proof.Proofs

open Sys2Proof Sys2Proof.Machine

/-- Settles O45: a lane changes by a unit, a COLLECT or a DISPATCH, each of which is a row of the table. -/
theorem laneStatesFollowTable : Obligations.LaneStatesFollowTable := by
  unfold Obligations.LaneStatesFollowTable
  intro s t l ln ln' hstep hturn hl hl' hne
  obtain ⟨x, hx, rfl | ⟨op, -, hchange⟩⟩ := step_laneChange hstep hturn hl
  · rw [hl'] at hx; cases hx; exact absurd rfl hne
  · rw [hl'] at hx; cases hx
    exact hchange.followsTable hne

/-- Settles O46: of what a step can do to a lane, only COLLECT applies in a terminal state, and it writes `pc` alone. -/
theorem terminalResultStays : Obligations.TerminalResultStays := by
  unfold Obligations.TerminalResultStays
  intro s t l ln hstep hturn hl hpc
  obtain ⟨ln', hl', rfl | ⟨op, -, hchange⟩⟩ := step_laneChange hstep hturn hl
  · exact ⟨ln', hl', rfl, rfl, rfl, rfl⟩
  refine ⟨ln', hl', ?_⟩
  cases hchange with
  | stays => exact ⟨rfl, rfl, rfl, rfl⟩
  | collect hop hfull => exact ⟨rfl, rfl, rfl, rfl⟩
  | unit hdec hadv =>
    obtain ⟨-, hdone, hrej⟩ := hdec
    exact (hpc.elim hdone hrej).elim
  | loaded hop hidle hen hdisp => exact absurd hidle (terminal_ne_idle hpc)
  | unavailable hop hidle hen hdisp => exact absurd hidle (terminal_ne_idle hpc)

/-- Settles O47: the effects that write an input of the batch are those of a block that is not busy. -/
theorem inputsFrozenWhileBusy : Obligations.InputsFrozenWhileBusy := by
  unfold Obligations.InputsFrozenWhileBusy
  intro s t hstep hturn hb
  obtain ⟨hrst, -⟩ | ⟨s', ⟨hsame, -⟩, hs'⟩ := step_effect hstep
  · exact absurd hrst hturn
  rw [hsame] at hs'
  obtain rfl | ⟨op, hperf, heffect⟩ := hs'
  · simp
  · exact heffect.inputs_frozen hperf.ne_load hb

/-- Settles O60: of what a step can do to a lane, only DISPATCH's LOAD takes it out of `S_IDLE` and only its COLLECT takes
it back, and each has one turn that performs it. -/
theorem lanesStartOnlyByDispatch : Obligations.LanesStartOnlyByDispatch := by
  unfold Obligations.LanesStartOnlyByDispatch
  intro s t l ln ln' hstep hturn hl hl'
  obtain ⟨x, hx, rfl | ⟨op, hperf, hchange⟩⟩ := step_laneChange hstep hturn hl
  · rw [hl'] at hx; cases hx
    exact ⟨fun hidle hne => absurd hidle hne, fun hne hidle => absurd hidle hne⟩
  rw [hl'] at hx; cases hx
  cases hchange with
  | stays => exact ⟨fun hidle hne => absurd hidle hne, fun hne hidle => absurd hidle hne⟩
  | unit hpc hadv =>
    exact ⟨fun hidle => absurd hidle hpc.1, fun _ hidle => absurd hidle (advance_pc_ne_idle hpc hadv)⟩
  | collect hop hfull =>
    refine ⟨fun _ hne => absurd rfl hne, fun _ _ => ⟨?turn, hop.terminal, hfull⟩⟩
    case turn => obtain ⟨-, rfl⟩ | ⟨-, rfl⟩ := hop <;> exact hperf
  | loaded hop hpc hen hdisp =>
    subst hop
    exact ⟨fun _ _ => ⟨hperf, hen.1, hen.2.1, hen.2.2, rfl, hdisp⟩, fun hne => absurd hpc hne⟩
  | unavailable hop hpc hen hdisp =>
    subst hop
    exact ⟨fun _ _ => ⟨hperf, hen.1, hen.2.1, hen.2.2, rfl, hdisp⟩, fun hne => absurd hpc hne⟩

end Sys2Proof.Proofs
end

section
/-! Where a step stops: nowhere by a refusal, in any state, and from the invariant only at an unwritten frame handle (R92,
R23, U1); and that a running batch always has a step that brings it nearer to its end (46_batch_array.md R226). -/

namespace Sys2Proof.Machine

/-! ### No refusal -/

theorem laneOp_ne_refused (at_ : LaneState) (u : Lane → Stage Lane) (l : Nat) (s : State) (r : Refusal) :
    laneOp at_ u l s ≠ .refused r := by
  unfold laneOp
  split
  · simp
  · split
    · split <;> simp
    · simp

theorem collectAt_ne_refused (at_ : LaneState) (l : Nat) (s : State) (r : Refusal) :
    collectAt at_ l s ≠ .refused r := by
  unfold collectAt State.storeSlot
  split
  · simp
  · split
    · split <;> simp
    · simp

theorem loadFrame_ne_refused (s : State) (l : Nat) (ln : Lane) (i : Nat) (r : Refusal) :
    s.loadFrame l ln i ≠ .refused r := by
  unfold State.loadFrame
  split
  · simp
  · split <;> simp

/-- The lane an operation of a lane is for. -/
def laneOf : Instr → Option Nat
  | .load l _ | .norm l | .locate l | .calib l | .sanity l | .assemble l | .validate l | .collectDone l
  | .collectRejected l | .sampleBit l _ | .dispatch l => some l
  | .csrw _ _ | .csrr _ | .flw _ _ | .nop | .bstart | .drain | .bdone => none

/-- The host's operations and the concatenator's complete in every state. -/
theorem exec_completes_of_no_lane {op : Instr} (hop : laneOf op = none) (s : State) : ∃ t, exec op s = .next t := by
  cases op with
  | csrw n v =>
    show ∃ t, execCsrw n v s = _
    unfold execCsrw
    split
    · exact ⟨_, rfl⟩
    · split <;> exact ⟨_, rfl⟩
  | csrr n =>
    show ∃ t, execCsrr n s = _
    unfold execCsrr
    split
    case h_5 => split <;> exact ⟨_, rfl⟩
    all_goals exact ⟨_, rfl⟩
  | flw i h => show ∃ t, execFlw i h s = _; unfold execFlw; split <;> exact ⟨_, rfl⟩
  | nop => exact ⟨_, rfl⟩
  | bstart => show ∃ t, execBstart s = _; unfold execBstart; split <;> exact ⟨_, rfl⟩
  | drain =>
    show ∃ t, execDrain s = _
    unfold execDrain
    split
    · split
      · split <;> exact ⟨_, rfl⟩
      · exact ⟨_, rfl⟩
    · exact ⟨_, rfl⟩
  | bdone => show ∃ t, execBdone s = _; unfold execBdone; split <;> exact ⟨_, rfl⟩
  | _ => cases hop

theorem DecodingOp.ne_refused {l : Nat} {op : Instr} (hop : DecodingOp l op) (s : State) (r : Refusal) :
    exec op s ≠ .refused r := by
  obtain ⟨at_, u, -, -, hexec⟩ := hop.exec_eq_laneOp
  rw [hexec]
  exact laneOp_ne_refused at_ u l s r

theorem exec_ne_refused (op : Instr) (s : State) (r : Refusal) : exec op s ≠ .refused r := by
  have hno_lane (h : laneOf op = none) : exec op s ≠ .refused r := by
    obtain ⟨t, ht⟩ := exec_completes_of_no_lane h s
    simp [ht]
  cases op with
  | load l i =>
    show execLoad l i s ≠ _
    unfold execLoad
    split
    · simp
    · split
      · exact loadFrame_ne_refused _ _ _ _ _
      · simp
  | norm l => exact DecodingOp.ne_refused (l := l) (by simp [DecodingOp]) s r
  | locate l => exact DecodingOp.ne_refused (l := l) (by simp [DecodingOp]) s r
  | calib l => exact DecodingOp.ne_refused (l := l) (by simp [DecodingOp]) s r
  | sanity l => exact DecodingOp.ne_refused (l := l) (by simp [DecodingOp]) s r
  | assemble l => exact DecodingOp.ne_refused (l := l) (by simp [DecodingOp]) s r
  | validate l => exact DecodingOp.ne_refused (l := l) (by simp [DecodingOp]) s r
  | collectDone l => exact collectAt_ne_refused _ _ _ _
  | collectRejected l => exact collectAt_ne_refused _ _ _ _
  | sampleBit l k =>
    show execSampleBit l k s ≠ _
    unfold execSampleBit
    split
    · simp
    · split
      · split <;> simp
      · simp
  | dispatch l =>
    show execDispatch l s ≠ _
    unfold execDispatch
    split
    · simp
    · split
      · exact loadFrame_ne_refused _ _ _ _ _
      · simp
  | csrw n v => exact hno_lane rfl
  | csrr n => exact hno_lane rfl
  | flw i h => exact hno_lane rfl
  | nop => exact hno_lane rfl
  | bstart => exact hno_lane rfl
  | drain => exact hno_lane rfl
  | bdone => exact hno_lane rfl

theorem decode_cmd_ne_error (op : BitVec 2) (e : DecodeError) : decode (.cmd op) ≠ .error e := by
  unfold decode
  dsimp only
  split <;> simp

/-- R92: what a turn selects is a lane's `pc`, which is no reserved code, or a selection that every code is legal in. -/
theorem decode_ne_reserved_of_turnSelects {s s' : State} {t : Turn} {sel : Selection}
    (hs : s.turnSelects t = .selected sel s') : decode sel ≠ .error .reservedState := by
  cases t with
  | own a =>
    cases a with
    | lane l =>
      simp only [State.turnSelects, State.agentSelects] at hs
      split at hs <;> cases hs
      next ln _ => rw [decode_state_code]; cases ln.pc <;> simp
    | dispatcher l =>
      simp only [State.turnSelects, State.agentSelects] at hs
      split at hs <;> cases hs
      simp [decode]
    | concatenator ready =>
      simp only [State.turnSelects, State.agentSelects] at hs
      split at hs
      · cases hs; simp [decode]
      · split at hs <;> cases hs
        simp [decode]
    | commandPort =>
      simp only [State.turnSelects, State.agentSelects] at hs
      split at hs <;> cases hs
      exact decode_cmd_ne_error _ _
  | csrw n v => cases hs; simp [decode]
  | csrr n => cases hs; simp [decode]
  | flw i h => cases hs; simp [decode]
  | cmd op => cases hs; exact decode_cmd_ne_error _ _
  | innerSample l k =>
    simp only [State.turnSelects] at hs
    split at hs <;> cases hs
    simp [decode]
  | rst => cases hs

/-- A step that does not complete is an operation that does not. -/
theorem step_stops {s : State} {f : Fault} (h : step s = .fault f) :
    ∃ sel s' op, s.fetch = .selected sel s' ∧ decode sel = .ok op ∧ exec op s' = .fault f := by
  unfold step at h
  split at h
  · cases h
  · cases h
  · next sel s' hf =>
    split at h
    · next op hd => exact ⟨sel, s', op, hf, hd, h⟩
    · next e hd => cases e <;> cases h

/-! ### Faults, from the invariant -/

theorem exists_lane {s : State} {l : Nat} (h : l < s.lanes.length) : ∃ ln, s.lane? l = some ln :=
  ⟨s.lanes[l], List.getElem?_eq_getElem h⟩

theorem laneOf_eq_none_of_cmd {op : BitVec 2} {i : Instr} (hd : decode (.cmd op) = .ok i) : laneOf i = none := by
  simp only [decode] at hd
  split at hd <;> cases hd <;> rfl

/-- A turn selects an operation of a lane only where the block has that lane. -/
theorem exists_lane_of_turnSelects {s s' : State} {t : Turn} {sel : Selection} {op : Instr} {l : Nat}
    (hlen : s.lanes.length = s.cfg.p) (hs : s.turnSelects t = .selected sel s') (hd : decode sel = .ok op)
    (hop : laneOf op = some l) : ∃ ln, s'.lane? l = some ln := by
  cases t with
  | own a =>
    cases a with
    | lane m =>
      simp only [State.turnSelects, State.agentSelects] at hs
      split at hs <;> cases hs
      next ln hm =>
        rw [decode_state_code] at hd
        have hlm : l = m := by cases hst : ln.pc <;> rw [hst] at hd <;> cases hd <;> cases hop <;> rfl
        exact ⟨ln, hlm ▸ hm⟩
    | dispatcher m =>
      simp only [State.turnSelects, State.agentSelects] at hs
      split at hs <;> cases hs
      cases hd; cases hop
      exact exists_lane (by omega)
    | concatenator ready =>
      simp only [State.turnSelects, State.agentSelects] at hs
      split at hs
      · cases hs; cases hd; cases hop
      · split at hs <;> cases hs
        cases hd; cases hop
    | commandPort =>
      simp only [State.turnSelects, State.agentSelects] at hs
      split at hs <;> cases hs
      rw [laneOf_eq_none_of_cmd hd] at hop; cases hop
  | csrw n v => cases hs; cases hd; cases hop
  | csrr n => cases hs; cases hd; cases hop
  | flw i h => cases hs; cases hd; cases hop
  | cmd op => cases hs; rw [laneOf_eq_none_of_cmd hd] at hop; cases hop
  | innerSample m k =>
    simp only [State.turnSelects] at hs
    split at hs <;> cases hs
    cases hd; cases hop
    exact exists_lane (by omega)
  | rst => cases hs

section Faults
variable {s : State} {l : Nat} {ln : Lane} {f : Fault}

/-- R23: on a lane of the invariant, its operation does not fault. -/
theorem DecodingOp.ne_fault {op : Instr} (hop : DecodingOp l op) (h : Inv s) (hl : s.lane? l = some ln) :
    exec op s ≠ .fault f := by
  obtain ⟨at_, u, -, hadv, hexec⟩ := hop.exec_eq_laneOp
  rw [hexec]
  by_cases hpc : ln.pc = at_
  · obtain ⟨ln', hrun, -⟩ := advance_laneInv (h.lane_inv l ln hl)
    rw [laneOp_settle hl hpc ((hadv ln hpc).symm.trans hrun)]
    simp
  · rw [laneOp_waits hl hpc]; simp

/-- R218: the frame of a lane in use has a slot. -/
theorem Inv.fidx_lt (h : Inv s) (hl : s.lane? l = some ln) (hpc : ln.pc ≠ .idle) : ln.fidx.read < s.cfg.nmax := by
  have hbusy := h.busy_of_lane_in_use hl hpc
  obtain ⟨hlt, -⟩ := h.held_pending hbusy l _ (h.holds_of_lane_in_use hl hpc)
  obtain ⟨-, hdn⟩ := h.counters hbusy
  have hmax := h.batchN_le
  omega

theorem collectAt_ne_fault {at_ : LaneState} (h : Inv s) (hl : s.lane? l = some ln) (hat : at_ ≠ .idle) :
    collectAt at_ l s ≠ .fault f := by
  by_cases hpc : ln.pc = at_
  · rw [collectAt_of_terminal hl hpc (h.fidx_lt hl (hpc ▸ hat))]; simp
  · simp [collectAt, hl, hpc]

/-- A lane of the invariant in a state that takes samples holds its Binary Row and its timing. -/
theorem LaneInv.exists_binaryRow {p : Params} (h : LaneInv p ln) (hpc : ln.pc = .calibrated ∨ ln.pc = .sanityChecked) :
    ∃ bits, ln.binaryRow bits := by
  have hready := h.ready
  rcases hpc with hpc | hpc <;> simp only [LaneReady, hpc] at hready <;>
  · obtain ⟨w, _, _, hw, -, -, hbr⟩ := hready
    obtain ⟨bits, hbits, -⟩ := Machine.exists_binaryRow hw hbr
    exact ⟨bits, hbits⟩

theorem execSampleBit_ne_fault (h : Inv s) (hl : s.lane? l = some ln) (k : BitVec 5) :
    execSampleBit l k s ≠ .fault f := by
  by_cases hpc : ln.pc = .calibrated ∨ ln.pc = .sanityChecked
  · obtain ⟨bits, hbits⟩ := (h.lane_inv l ln hl).exists_binaryRow hpc
    simp [execSampleBit, hl, hpc, sampleBitUnit_row hbits rfl rfl]
  · simp [execSampleBit, hl, hpc]

theorem execDispatch_fault (hl : s.lane? l = some ln) (hx : execDispatch l s = .fault f) :
    f = .readNoneFL ∧ s.dispatchEnabled ∧ s.fl.read? s.disp = none := by
  simp only [execDispatch, hl] at hx
  split at hx
  next hen =>
    unfold State.loadFrame at hx
    split at hx
    next hfl => cases hx; exact ⟨rfl, hen.1, hfl⟩
    next => split at hx <;> cases hx
  next => cases hx

/-- From the invariant, an operation of a lane that the block has faults only as DISPATCH of an unwritten handle. -/
theorem exec_fault {op : Instr} (h : Inv s) (hlane : ∀ l, laneOf op = some l → ∃ ln, s.lane? l = some ln)
    (hop : ∀ l i, op ≠ .load l i) (hx : exec op s = .fault f) :
    f = .readNoneFL ∧ s.dispatchEnabled ∧ s.fl.read? s.disp = none := by
  cases hlaneOf : laneOf op with
  | none =>
    obtain ⟨t, ht⟩ := exec_completes_of_no_lane hlaneOf s
    rw [ht] at hx; cases hx
  | some l =>
    obtain ⟨ln, hl⟩ := hlane l hlaneOf
    have hdec (hdec : DecodingOp l op) : exec op s ≠ .fault f := hdec.ne_fault h hl
    cases op with
    | load m i => exact absurd rfl (hop m i)
    | norm m => cases hlaneOf; exact absurd hx (hdec (by simp [DecodingOp]))
    | locate m => cases hlaneOf; exact absurd hx (hdec (by simp [DecodingOp]))
    | calib m => cases hlaneOf; exact absurd hx (hdec (by simp [DecodingOp]))
    | sanity m => cases hlaneOf; exact absurd hx (hdec (by simp [DecodingOp]))
    | assemble m => cases hlaneOf; exact absurd hx (hdec (by simp [DecodingOp]))
    | validate m => cases hlaneOf; exact absurd hx (hdec (by simp [DecodingOp]))
    | collectDone m => cases hlaneOf; exact absurd hx (collectAt_ne_fault h hl (by simp))
    | collectRejected m => cases hlaneOf; exact absurd hx (collectAt_ne_fault h hl (by simp))
    | sampleBit m k => cases hlaneOf; exact absurd hx (execSampleBit_ne_fault h hl k)
    | dispatch m => cases hlaneOf; exact execDispatch_fault hl hx
    | _ => cases hlaneOf

end Faults

/-! ### Progress -/

/-- The operations that the lanes still have to do, after one lane was replaced. -/
theorem opsLeft_sum_set (lanes : List Lane) (l : Nat) (ln ln' : Lane) (h : lanes[l]? = some ln) :
    ((lanes.set l ln').map fun x => opsLeft x.pc).sum + opsLeft ln.pc =
      (lanes.map fun x => opsLeft x.pc).sum + opsLeft ln'.pc := by
  induction lanes generalizing l with
  | nil => simp at h
  | cons first rest ih =>
    cases l with
    | zero =>
      obtain rfl : first = ln := by simpa using h
      simp only [List.set_cons_zero, List.map_cons, List.sum_cons]
      omega
    | succ l =>
      have hrest := ih l (by simpa using h)
      simp only [List.set_cons_succ, List.map_cons, List.sum_cons]
      omega

section Progress
variable {s : State} {l : Nat} {ln : Lane}

/-- A lane nearer to being idle is less work. -/
theorem work_setLane_lt {ln' : Lane} (hl : s.lane? l = some ln) (hlt : opsLeft ln'.pc < opsLeft ln.pc) :
    (s.setLane l ln').work < s.work := by
  have hsum := opsLeft_sum_set s.lanes l ln ln' hl
  simp only [State.work, State.setLane_lanes, State.setLane_batchN, State.setLane_disp, State.setLane_next,
    State.setLane_busy]
  omega

theorem work_collected_lt (hl : s.lane? l = some ln) (hpc : ln.pc = .done ∨ ln.pc = .rejected) :
    (s.collected l ln).work < s.work := by
  refine work_setLane_lt (ln' := { ln with pc := .idle }) hl ?_
  rcases hpc with hpc | hpc <;> simp [hpc, opsLeft]

theorem opsLeft_le (st : LaneState) : opsLeft st ≤ 7 := by
  cases st <;> simp [opsLeft]

/-- A frame dispatched is eight operations less to wait for and at most seven more to do. -/
theorem work_dispatched_lt {ln' : Lane} (hl : s.lane? l = some ln) (hdisp : s.disp < s.batchN) :
    (s.dispatched l ln').work < s.work := by
  have hsum := opsLeft_sum_set s.lanes l ln ln' hl
  have hle := opsLeft_le ln'.pc
  simp only [State.work, State.dispatched, State.setLane_lanes, State.setLane_batchN, State.setLane_disp,
    State.setLane_next, State.setLane_busy]
  omega

/-- The turn of a lane that holds a decided frame collects it. -/
theorem step_withAgent_collect (hl : s.lane? l = some ln) (hpc : ln.pc = .done ∨ ln.pc = .rejected)
    (hslot : ln.fidx.read < s.cfg.nmax) : step (s.withAgent (.lane l)) = .next (s.collected l ln) := by
  have hf := fetch_withAgent_lane hl
  have hd := decode_state_code l ln.pc
  rcases hpc with hpc | hpc <;> rw [hpc] at hf hd
  · exact (step_of_fetch_selected hf hd).trans (exec_collect hl (.inl ⟨hpc, rfl⟩) hslot)
  · exact (step_of_fetch_selected hf hd).trans (exec_collect hl (.inr ⟨hpc, rfl⟩) hslot)

/-- R194, R196: a lane in use has a turn that brings it nearer to being idle. -/
theorem lane_in_use_progresses (h : Inv s) (hl : s.lane? l = some ln) (hpc : ln.pc ≠ .idle) :
    ∃ a t, step (s.withAgent a) = .next t ∧ t.work < s.work := by
  refine ⟨.lane l, ?_⟩
  obtain hidle | hterm | hdec := idle_or_terminal_or_decoding ln.pc
  · exact absurd hidle hpc
  · exact ⟨_, step_withAgent_collect hl hterm (h.fidx_lt hl hpc), work_collected_lt hl hterm⟩
  · obtain ⟨-, hdone, hrej⟩ := id hdec
    obtain ⟨ln', hadv, -⟩ := advance_laneInv (h.lane_inv l ln hl)
    exact ⟨_, step_withAgent_lane hl hadv hdone hrej, work_setLane_lt hl (opsLeft_advance hdec hadv)⟩

theorem step_withAgent_dispatcher (hl : l < s.cfg.p) : step (s.withAgent (.dispatcher l)) = exec (.dispatch l) s :=
  step_of_fetch_selected (sel := .dispatch l) (by rw [fetch_withAgent]; simp [State.agentSelects, hl]) rfl

/-- R216: with an idle lane to choose and the next handle written, DISPATCH completes. -/
theorem dispatch_progresses {handle : Nat} (hp : l < s.cfg.p) (hl : s.lane? l = some ln) (hpc : ln.pc = .idle)
    (hen : s.dispatchEnabled) (hfl : s.fl.read? s.disp = some handle) :
    ∃ a t, step (s.withAgent a) = .next t ∧ t.work < s.work := by
  refine ⟨.dispatcher l, ?_⟩
  rw [step_withAgent_dispatcher hp, exec_dispatch_of_enabled hl hen hpc]
  cases hrow : usableRow s.cfg (s.readScanline handle) with
  | some row =>
    exact ⟨_, loadFrame_of_row (s := { s with disp := s.disp + 1 }) hfl hrow, work_dispatched_lt hl hen.2.1⟩
  | none =>
    exact ⟨_, loadFrame_of_no_row (s := { s with disp := s.disp + 1 }) hfl hrow,
      work_dispatched_lt (ln' := ln.unavailable s.cfg s.disp) hl hen.2.1⟩

theorem exec_drain_of_full {slot : Slot} (hb : s.busy = true) (hn : s.next < s.batchN)
    (hread : s.rs.read? s.next = some slot) (hfull : slot.full = true) :
    exec .drain s = .next { s with
      out := s.out ++ slotBeats slot (decide (s.next + 1 = s.batchN)), next := s.next + 1 } := by
  show execDrain s = _
  simp [execDrain, hb, hn, hread, hfull]

/-- R220: a full slot is drained at the concatenator's turn, where the host accepts. -/
theorem drain_progresses (hb : s.busy = true) (hn : s.next < s.batchN) (hfull : s.slotFull s.next = true) :
    ∃ a t, step (s.withAgent a) = .next t ∧ t.work < s.work := by
  obtain ⟨slot, hread, hslot⟩ := exists_slot_of_slotFull hfull
  have hf : (s.withAgent (.concatenator true)).fetch = .selected .drain s := by
    rw [fetch_withAgent]; simp [State.agentSelects, Nat.ne_of_lt hn]
  refine ⟨.concatenator true, _, (step_of_fetch_selected hf rfl).trans (exec_drain_of_full hb hn hread hslot), ?_⟩
  simp only [State.work]
  omega

/-- R222: with every frame drained, the concatenator's turn ends the batch. -/
theorem bdone_progresses (hb : s.busy = true) (hn : s.next = s.batchN) :
    ∃ a t, step (s.withAgent a) = .next t ∧ t.work < s.work := by
  have hf : (s.withAgent (.concatenator true)).fetch = .selected .bdone s := by
    rw [fetch_withAgent]; simp [State.agentSelects, hn]
  refine ⟨.concatenator true, _, (step_of_fetch_selected hf rfl).trans (exec_bdone_of_enabled hb hn), ?_⟩
  simp [State.work, hb]

end Progress

end Sys2Proof.Machine

namespace Sys2Proof.Proofs

open Sys2Proof Sys2Proof.Machine

/-- Settles O8: no operation is refused, and no turn presents a reserved code. -/
theorem stepNeverRefuses : Obligations.StepNeverRefuses := by
  unfold Obligations.StepNeverRefuses
  intro s r h
  unfold step at h
  split at h
  · cases h
  · cases h
  · next sel s' hf =>
    split at h
    · exact exec_ne_refused _ _ _ h
    · next e hd =>
      have hlegal := decode_ne_reserved_of_turnSelects hf
      cases e with
      | idleOutsideDispatch => cases h
      | laneNotIdle => cases h
      | reservedState => exact hlegal hd

/-- Settles O56: the operation that a turn selects is one of a lane the block has, and of these only DISPATCH can fault in
the invariant. -/
theorem onlyUnwrittenHandleFaults : Obligations.OnlyUnwrittenHandleFaults := by
  unfold Obligations.OnlyUnwrittenHandleFaults
  intro s f h hstep
  obtain ⟨sel, s', op, hf, hd, hexec⟩ := step_stops hstep
  have hinputs := fetch_inputs s
  rw [hf] at hinputs
  obtain ⟨hsame, -⟩ := id hinputs
  have hinv := h.of_sameBlock (takeTurn_inputs s).sameBlock
  obtain ⟨hfault, ⟨hb, hdisp, -⟩, hfl⟩ := exec_fault (h.of_sameBlock hinputs.sameBlock)
    (fun l hl => exists_lane_of_turnSelects hinv.lanes_length hf hd hl) (performedAt_of_turnSelects hf hd).ne_load hexec
  simp only [Fetched.state] at hsame
  rw [hsame] at hb hdisp hfl
  exact ⟨hfault, hb, hdisp, hfl⟩

/-- Settles O57: a lane in use progresses; with every lane idle the dispatcher does while a frame is left, and then every
slot is full and the concatenator does. -/
theorem someAgentAlwaysProgresses : Obligations.SomeAgentAlwaysProgresses := by
  unfold Obligations.SomeAgentAlwaysProgresses
  intro s h hb hwritten
  by_cases hidle : ∀ l ln, s.lane? l = some ln → ln.pc = .idle
  case neg =>
    simp only [not_forall] at hidle
    obtain ⟨l, ln, hl, hpc⟩ := hidle
    exact lane_in_use_progresses h hl hpc
  obtain ⟨hnd, hdn⟩ := h.counters hb
  obtain hdisp | hdisp := Nat.lt_or_eq_of_le hdn
  case inl =>
    obtain ⟨-, hp, -⟩ := h.cfg_ok
    obtain ⟨ln, hl⟩ := exists_lane (s := s) (l := 0) (by rw [h.lanes_length]; omega)
    obtain ⟨handle, hfl⟩ := hwritten s.disp hdisp
    have hroom : s.nonIdle < s.parLimit := by rw [nonIdle_eq_zero hidle]; exact h.parLimit_range.1
    exact dispatch_progresses (by omega) hl (hidle 0 ln hl) ⟨hb, hdisp, hroom⟩ hfl
  obtain hnext | hnext := Nat.lt_or_eq_of_le (hdisp ▸ hnd)
  case inl =>
    obtain hfull | ⟨l, hheld⟩ := h.dispatched_accounted hb s.next (by omega)
    · exact drain_progresses hb hnext hfull
    · exact absurd hheld (not_holds_of_all_idle hidle l _)
  case inr => exact bdone_progresses hb hnext

end Sys2Proof.Proofs
end

section
/-! The decoder and the encoder (30_encoding.md R74, R82 to R88, R93), the slot word (R84), and which operation a turn
selects. -/

namespace Sys2Proof.Machine

open Sys2Proof.Laws

/-! ### Decoder and encoder -/

theorem decode_encode (i : Instr) : decode (encode i) = .ok i := by
  cases i with
  | load l i => exact RoundTrip.load l i
  | norm l => exact RoundTrip.norm l
  | locate l => exact RoundTrip.locate l
  | calib l => exact RoundTrip.calib l
  | sanity l => exact RoundTrip.sanity l
  | assemble l => exact RoundTrip.assemble l
  | validate l => exact RoundTrip.validate l
  | collectDone l => exact RoundTrip.collectDone l
  | collectRejected l => exact RoundTrip.collectRejected l
  | sampleBit l k => exact RoundTrip.sampleBit l k
  | csrw n v => exact RoundTrip.csrw n v
  | csrr n => exact RoundTrip.csrr n
  | flw i h => exact RoundTrip.flw i h
  | nop => exact RoundTrip.nop
  | bstart => exact RoundTrip.bstart
  | dispatch l => exact RoundTrip.dispatch l
  | drain => exact RoundTrip.drain
  | bdone => exact RoundTrip.bdone

theorem encode_of_decode_state {l : Nat} {code : BitVec 4} {i : Instr} (hd : decode (.state l code) = .ok i) :
    encode i = .state l code := by
  simp only [decode] at hd
  split at hd <;> cases hd <;> exact congrArg (Selection.state l) (BitVec.eq_of_toNat_eq (by simp_all))

theorem encode_of_decode_load {l n : Nat} {code : BitVec 4} {i : Instr} (hd : decode (.load l code n) = .ok i) :
    encode i = .load l code n := by
  simp only [decode] at hd
  split at hd
  next hcode => cases hd; exact congrArg (Selection.load l · n) (BitVec.eq_of_toNat_eq (by simp [hcode]))
  next => split at hd <;> cases hd

/-- R93: the two reserved commands act as NOP. -/
theorem encode_of_decode_cmd {op : BitVec 2} {i : Instr} (hd : decode (.cmd op) = .ok i) :
    encode i = .cmd op ∨ (i = .nop ∧ (op = 0b10#2 ∨ op = 0b11#2)) := by
  have hall : ∀ op : BitVec 2, op = 0b00#2 ∨ op = 0b01#2 ∨ op = 0b10#2 ∨ op = 0b11#2 := by decide
  obtain rfl | rfl | rfl | rfl := hall op <;> cases hd
  · exact .inl rfl
  · exact .inl rfl
  · exact .inr ⟨rfl, .inl rfl⟩
  · exact .inr ⟨rfl, .inr rfl⟩

/-! ### The slot word -/

theorem ofCode_code (c : Cause) : Cause.ofCode c.code = some c := by cases c <;> rfl

theorem code_of_ofCode {code : BitVec 4} {c : Cause} (h : Cause.ofCode code = some c) : c.code = code := by
  unfold Cause.ofCode at h
  split at h <;> cases h <;> exact BitVec.eq_of_toNat_eq (by simp_all [Cause.code])

section SlotWord
variable (slot : Slot)

theorem toWord_full : slot.toWord.getLsbD 21 = slot.full := by
  rw [Slot.toWord, BitVec.getLsbD_append]; simp

theorem toWord_valid : slot.toWord.getLsbD 20 = slot.valid := by
  rw [Slot.toWord, BitVec.getLsbD_append, if_pos (by decide), BitVec.getLsbD_append]; simp

theorem toWord_cause : slot.toWord.extractLsb' 16 4 = slot.cause.code := by
  rw [Slot.toWord, BitVec.extractLsb'_append_eq_of_add_le (by decide),
    BitVec.extractLsb'_append_eq_of_add_le (by decide)]
  exact BitVec.extractLsb'_append_eq_left

/-- The bytes are the low 16 bits of the word. -/
theorem toWord_bytes {start len : Nat} (h : start + len ≤ 16) :
    slot.toWord.extractLsb' start len = (slot.byte1 ++ slot.byte0).extractLsb' start len := by
  rw [Slot.toWord, BitVec.extractLsb'_append_eq_of_add_le (by omega),
    BitVec.extractLsb'_append_eq_of_add_le (by omega), BitVec.extractLsb'_append_eq_of_add_le h]

theorem toWord_byte1 : slot.toWord.extractLsb' 8 8 = slot.byte1 :=
  (toWord_bytes slot (by decide)).trans BitVec.extractLsb'_append_eq_left

theorem toWord_byte0 : slot.toWord.extractLsb' 0 8 = slot.byte0 :=
  (toWord_bytes slot (by decide)).trans BitVec.extractLsb'_append_eq_right

theorem ofWord_toWord : Slot.ofWord slot.toWord = some slot := by
  simp only [Slot.ofWord, toWord_full, toWord_valid, toWord_cause, toWord_byte1, toWord_byte0, ofCode_code]

end SlotWord

theorem ofBool_getLsbD {w : Nat} (x : BitVec w) (i : Nat) : BitVec.ofBool (x.getLsbD i) = x.extractLsb' i 1 := by
  refine BitVec.eq_of_getLsbD_eq fun j hj => ?_
  obtain rfl : j = 0 := by omega
  simp

/-- The five fields, read from their places and put together again, are the word. -/
theorem toWord_of_ofWord {word : BitVec 22} {slot : Slot} (h : Slot.ofWord word = some slot) : slot.toWord = word := by
  unfold Slot.ofWord at h
  split at h <;> cases h
  next c hc =>
    rw [Slot.toWord]
    dsimp only
    rw [code_of_ofCode hc, ofBool_getLsbD, ofBool_getLsbD]
    calc word.extractLsb' 21 1 ++ (word.extractLsb' 20 1 ++
          (word.extractLsb' 16 4 ++ (word.extractLsb' 8 8 ++ word.extractLsb' 0 8)))
      _ = word.extractLsb' 21 1 ++ (word.extractLsb' 20 1 ++ (word.extractLsb' 16 4 ++ word.extractLsb' 0 16)) := by
        rw [BitVec.extractLsb'_append_extractLsb'_eq_extractLsb' (by rfl)]
      _ = word.extractLsb' 21 1 ++ (word.extractLsb' 20 1 ++ word.extractLsb' 0 20) := by
        rw [BitVec.extractLsb'_append_extractLsb'_eq_extractLsb' (by rfl)]
      _ = word.extractLsb' 21 1 ++ word.extractLsb' 0 21 := by
        rw [BitVec.extractLsb'_append_extractLsb'_eq_extractLsb' (by rfl)]
      _ = word.extractLsb' 0 22 := by
        rw [BitVec.extractLsb'_append_extractLsb'_eq_extractLsb' (by rfl)]
      _ = word := BitVec.extractLsb'_eq_self

/-! ### Odd parity -/

/-- R180: a group's eight sampled bits, counted and summed. -/
theorem oddParity_eq_xor (byte : RByte) (parityBit : Bool) (h7 : byte.getLsbD 7 = false) :
    oddParity byte parityBit =
      (byte.getLsbD 0 ^^ byte.getLsbD 1 ^^ byte.getLsbD 2 ^^ byte.getLsbD 3 ^^ byte.getLsbD 4 ^^ byte.getLsbD 5 ^^
        byte.getLsbD 6 ^^ parityBit) := by
  have hbits : ∀ b0 b1 b2 b3 b4 b5 b6 p : Bool,
      decide ((([b0, b1, b2, b3, b4, b5, b6, false].filter id).length + p.toNat) % 2 = 1) =
        (b0 ^^ b1 ^^ b2 ^^ b3 ^^ b4 ^^ b5 ^^ b6 ^^ p) := by decide
  have hcount : popcount byte = (((List.range 8).map byte.getLsbD).filter id).length := by
    rw [List.filter_map, List.length_map]; rfl
  rw [← hbits, oddParity, hcount, ← h7]
  rfl

/-! ### What the first turn selects -/

section Turns
variable {s : State} {rest : List Turn}

theorem fetch_of_turns {t : Turn} (h : s.turns = t :: rest) : s.fetch = { s with turns := rest }.turnSelects t := by
  simp only [State.fetch, State.takeTurn, h]

theorem step_of_turn {t : Turn} {sel : Selection} {i : Instr} (h : s.turns = t :: rest)
    (hsel : { s with turns := rest }.turnSelects t = .selected sel { s with turns := rest }) (hd : decode sel = .ok i) :
    step s = exec i { s with turns := rest } :=
  step_of_fetch_selected ((fetch_of_turns h).trans hsel) hd

theorem lane_turn_selects {l : Nat} {ln : Lane} (hl : s.lane? l = some ln) :
    { s with turns := rest }.turnSelects (.own (.lane l)) =
      .selected (.state l ln.pc.code) { s with turns := rest } := by
  have hl' : { s with turns := rest }.lane? l = some ln := hl
  simp only [State.turnSelects, State.agentSelects, hl']

theorem step_of_concatenator_turn {ready : Bool} (h : s.turns = .own (.concatenator ready) :: rest) :
    step s = if s.next = s.batchN then exec .bdone { s with turns := rest }
      else if ready then exec .drain { s with turns := rest } else .next { s with turns := rest } := by
  have hf := fetch_of_turns h
  simp only [State.turnSelects, State.agentSelects] at hf
  split_ifs at hf ⊢
  · exact step_of_fetch_selected hf rfl
  · exact step_of_fetch_selected hf rfl
  · exact step_of_fetch_idle hf

theorem decode_cmd (op : BitVec 2) : decode (.cmd op) = .ok (if op = 0b01#2 then .bstart else .nop) := by
  revert op; decide

/-- Log entry 1: with no turn listed, the free schedule's agent moves. -/
theorem step_of_no_turn (h : s.turns = []) :
    step s = step { s with turns := [.own (Config.schedule s.free)], free := s.free + 1 } := by
  have hfetch : s.fetch = { s with turns := [.own (Config.schedule s.free)], free := s.free + 1 }.fetch := by
    simp only [State.fetch, State.takeTurn, h]
  simp only [step, hfetch]

end Turns

end Sys2Proof.Machine

namespace Sys2Proof.Proofs

open Sys2Proof Sys2Proof.Machine

/-- Settles O4: each kind of turn by what it selects. -/
theorem stepRunsSelectedOperation : Obligations.StepRunsSelectedOperation := by
  unfold Obligations.StepRunsSelectedOperation
  refine ⟨fun s s' sel i hf hd => step_of_fetch_selected hf hd, fun s l ln rest h hl => ⟨fun i hd => ?lane, fun hpc => ?idle⟩,
    fun s l rest h hl => ?dispatcher, fun s ready rest h => step_of_concatenator_turn h, fun s n v rest h => ?csrw,
    fun s n rest h => ?csrr, fun s i a rest h => ?flw, fun s op rest h => ?cmd, fun s h => step_of_no_turn h⟩
  case lane => exact step_of_turn h (lane_turn_selects hl) hd
  case idle =>
    have hsel := lane_turn_selects (rest := rest) hl
    rw [hpc] at hsel
    exact step_of_fetch_idle_lane ((fetch_of_turns h).trans hsel)
  case dispatcher =>
    exact step_of_turn (sel := .dispatch l) h (by simp [State.turnSelects, State.agentSelects, hl]) rfl
  case csrw => exact step_of_turn (sel := .csrWrite n v) h rfl rfl
  case csrr => exact step_of_turn (sel := .csrRead n) h rfl rfl
  case flw => exact step_of_turn (sel := .flWrite i a) h rfl rfl
  case cmd => exact step_of_turn (sel := .cmd op) h rfl (decode_cmd op)

/-- Settles O5: each code is computed. -/
theorem selectingCodesDecode : Obligations.SelectingCodesDecode := by
  unfold Obligations.SelectingCodesDecode
  decide

/-- Settles O6: one way by the operations, the other by the kinds of selection, of which only the commands have codes that
are no operation's own. -/
theorem decodedSelectionReencodes : Obligations.DecodedSelectionReencodes := by
  unfold Obligations.DecodedSelectionReencodes
  refine ⟨decode_encode, fun sel i hd => ?_⟩
  cases sel with
  | state l code => exact .inl (encode_of_decode_state hd)
  | load l code n => exact .inl (encode_of_decode_load hd)
  | cmd op =>
    obtain henc | ⟨rfl, hop⟩ := encode_of_decode_cmd hd
    · exact .inl henc
    · exact .inr ⟨rfl, hop.imp (congrArg _) (congrArg _)⟩
  | bitIdx l k => cases hd; exact .inl rfl
  | csrWrite n v => cases hd; exact .inl rfl
  | csrRead n => cases hd; exact .inl rfl
  | flWrite i h => cases hd; exact .inl rfl
  | dispatch l => cases hd; exact .inl rfl
  | drain => cases hd; exact .inl rfl
  | bdone => cases hd; exact .inl rfl

/-- Settles O7: the fields are read off the concatenation, and put together again. -/
theorem slotWordRoundTrip : Obligations.SlotWordRoundTrip := by
  unfold Obligations.SlotWordRoundTrip
  exact ⟨fun slot => ⟨toWord_full slot, toWord_valid slot, toWord_cause slot, toWord_byte1 slot, toWord_byte0 slot,
    ofWord_toWord slot⟩, fun _ _ => toWord_of_ofWord⟩

/-- Settles O27: the count of eight bits is odd exactly where their exclusive-or is 1. -/
theorem oddParityIsExclusiveOr : Obligations.OddParityIsExclusiveOr := by
  unfold Obligations.OddParityIsExclusiveOr
  exact oddParity_eq_xor

end Sys2Proof.Proofs
end

section
/-! The functions of a row: the classification without division and where a normalized row has its first 1, the run-in that
the locator finds, and the offsets of the Bit Sampler (40_normalizer.md R105, R107, 41_runin_locator.md R120 to R127,
43_bit_sampler.md R160 to R166). -/

namespace Sys2Proof.Machine

/-! ### The classification without division (R105) -/

section Classify
variable {m s : Nat} {prev : Bin}

theorem classify_of_lt (hm : 0 < m) (h : 100 * s < 45 * m) : classify m s prev = false :=
  classify_of_le (Nat.le_of_lt_succ ((Nat.div_lt_iff_lt_mul hm).mpr h))

theorem classify_of_reaches (hm : 0 < m) (h : 56 * m ≤ 100 * s) : classify m s prev = true :=
  classify_of_ge ((Nat.le_div_iff_mul_le hm).mpr h)

theorem classify_of_between (hm : 0 < m) (hlo : 45 * m ≤ 100 * s) (hhi : 100 * s < 56 * m) :
    classify m s prev = prev :=
  classify_of_band ((Nat.le_div_iff_mul_le hm).mpr hlo) (Nat.le_of_lt_succ ((Nat.div_lt_iff_lt_mul hm).mpr hhi))

/-- A sample that does not reach 56 hundredths of the peak keeps the level 0. -/
theorem classify_false_of_not_reaches (hm : 0 < m) (h : 100 * s < 56 * m) : classify m s false = false := by
  obtain hlo | hlo := Nat.lt_or_ge (100 * s) (45 * m)
  · exact classify_of_lt hm hlo
  · exact classify_of_between hm hlo h

end Classify

/-! ### The first 1 of a normalized row (R107) -/

/-- Before the first sample that reaches 56 hundredths of `m`, every bit is 0. -/
theorem bitAt_binarise_before {m i : Nat} {row : List Sample} (hm : 0 < m) (hi : i ≤ row.length)
    (hbefore : ∀ j s, j < i → row[j]? = some s → 100 * s.toNat < 56 * m) :
    ∀ j, j < i → bitAt (binarise m false row) j = false := by
  intro j
  induction j with
  | zero =>
    intro hj
    have hs : row[0]? = some row[0] := List.getElem?_eq_getElem (by omega)
    rw [bitAt_binarise hs, bitAt_cons_zero]
    exact classify_false_of_not_reaches hm (hbefore 0 _ hj hs)
  | succ j ih =>
    intro hj
    have hs : row[j + 1]? = some row[j + 1] := List.getElem?_eq_getElem (by omega)
    rw [bitAt_binarise hs, bitAt_cons_succ, ih (by omega)]
    exact classify_false_of_not_reaches hm (hbefore (j + 1) _ hj hs)

/-- The sample at `i` reaches 56 hundredths of the row's peak. -/
def Reaches (row : List Sample) (i : Nat) : Prop := ∃ s, row[i]? = some s ∧ 56 * peak row ≤ 100 * s.toNat

/-- The peak is a sample, and reaches itself. -/
theorem exists_reaches {row : List Sample} (hpeak : 32 ≤ peak row) : ∃ i, Reaches row i := by
  have hne : row ≠ [] := by rintro rfl; exact absurd hpeak (by decide)
  obtain ⟨s, hs, heq⟩ := exists_mem_toNat_eq_peak hne
  obtain ⟨i, hi⟩ := List.mem_iff_getElem?.mp hs
  exact ⟨i, s, hi, by omega⟩

/-- There is a first sample that reaches 56 hundredths of the peak. -/
theorem exists_first_reaches {row : List Sample} (hpeak : 32 ≤ peak row) :
    ∃ i, Reaches row i ∧ ∀ j s, j < i → row[j]? = some s → 100 * s.toNat < 56 * peak row := by
  classical
  refine ⟨Nat.find (exists_reaches hpeak), Nat.find_spec (exists_reaches hpeak), fun j s hj hs => ?_⟩
  by_contra hge
  exact Nat.find_min (exists_reaches hpeak) hj ⟨s, hs, Nat.not_lt.mp hge⟩

theorem firstOneAt_of_first_reaches {row : List Sample} {i : Nat} (hpeak : 32 ≤ peak row) (hreach : Reaches row i)
    (hbefore : ∀ j s, j < i → row[j]? = some s → 100 * s.toNat < 56 * peak row) :
    FirstOneAt (binarise (peak row) false row) 0 i := by
  have hm : 0 < peak row := by omega
  obtain ⟨s, hs, hge⟩ := hreach
  have hlen : i < row.length := (List.getElem?_eq_some_iff.mp hs).1
  refine ⟨Nat.zero_le _, by rwa [binarise_length], ?_, fun j _ hj => ?_⟩
  · rw [bitAt_binarise hs, classify_of_reaches hm hge]
  · exact bitAt_binarise_before hm (Nat.le_of_lt hlen) hbefore j hj

/-! ### The locator's success (R120 to R125) -/

theorem locate_of_run_in {bits : List Bin} {start stop : Nat} (hone : FirstOneAt bits 0 start)
    (hgood : 20 * start ≤ bits.length) (hstop : ThirteenthAt bits start stop) (hband : stopInBand bits.length stop) :
    locate bits = .ok (start, stop) := by
  rw [locate_of_good_start hone hgood, transitionsAfter_getElem?.mpr hstop]
  exact if_pos hband

/-! ### The locator on any register contents (R124, R127) -/

/-- The locator completes past its two scans and its two tests. -/
theorem locateUnit_ok {ln ln' : Lane} (h : locateUnit ln = .ok ln') :
    ∃ start stop, firstOneFrom ln.br.read? ln.w.read 0 = some (some start) ∧
      transitionFrom ln.br.read? (ln.w.read - (start + 1)) (start + 1) 0 = some (some stop) ∧
      stopInBand ln.w.read stop ∧ ln' = { ln with startRunIn := .val start, stopRunIn := .val stop, pc := .runInFound } := by
  unfold locateUnit at h
  obtain ⟨found, hfound, h⟩ := need_eq_ok h
  split at h
  · cases h
  · next start =>
    split at h
    · cases h
    · obtain ⟨end_, hend, h⟩ := need_eq_ok h
      split at h
      · cases h
      · next stop =>
        split at h
        · next hband => cases h; exact ⟨start, stop, hfound, hend, hband, rfl⟩
        · cases h

/-- A reading that agrees with `rd` wherever `rd` has an element. -/
def Extends (rd rd' : Nat → Option Bin) : Prop := ∀ j b, rd j = some b → rd' j = some b

theorem firstOneFrom_extends {rd rd' : Nat → Option Bin} (hext : Extends rd rd') {n i : Nat} {r : Option Nat}
    (h : firstOneFrom rd n i = some r) : firstOneFrom rd' n i = some r := by
  induction n generalizing i with
  | zero => exact h
  | succ n ih =>
    unfold firstOneFrom at h ⊢
    cases hi : rd i with
    | none => rw [hi] at h; cases h
    | some b =>
      rw [hi] at h
      rw [hext i b hi]
      cases b with
      | true => exact h
      | false => exact ih h

theorem transitionFrom_extends {rd rd' : Nat → Option Bin} (hext : Extends rd rd') {n i count : Nat} {r : Option Nat}
    (h : transitionFrom rd n i count = some r) : transitionFrom rd' n i count = some r := by
  induction n generalizing i count with
  | zero => exact h
  | succ n ih =>
    unfold transitionFrom at h ⊢
    cases hi : rd i with
    | none => rw [hi] at h; cases h
    | some new =>
      cases hp : rd (i - 1) with
      | none => rw [hi, hp] at h; cases h
      | some old =>
        rw [hi, hp] at h
        rw [hext i new hi, hext (i - 1) old hp]
        dsimp only at h ⊢
        split_ifs at h ⊢
        · exact ih h
        · exact h
        · exact ih h

theorem read_of_firstOneFrom {rd : Nat → Option Bin} {n i x : Nat} (h : firstOneFrom rd n i = some (some x)) :
    rd x = some true := by
  induction n generalizing i with
  | zero => cases h
  | succ n ih =>
    unfold firstOneFrom at h
    split at h
    · cases h
    · next hi => cases h; exact hi
    · exact ih h

theorem exists_read_of_transitionFrom {rd : Nat → Option Bin} {n i count x : Nat}
    (h : transitionFrom rd n i count = some (some x)) : ∃ b, rd x = some b := by
  induction n generalizing i count with
  | zero => cases h
  | succ n ih =>
    unfold transitionFrom at h
    split at h
    · next new old hi _ =>
      split_ifs at h
      · exact ih h
      · cases h; exact ⟨new, hi⟩
      · exact ih h
    · cases h

/-- The first `w` elements that `rd` reads, a NONE taken for 0. -/
def filledRow (rd : Nat → Option Bin) (w : Nat) : List Bin := (List.range w).map fun j => (rd j).getD false

theorem filledRow_length (rd : Nat → Option Bin) (w : Nat) : (filledRow rd w).length = w := by
  simp [filledRow]

theorem bitAt_filledRow {rd : Nat → Option Bin} {w j : Nat} {b : Bin} (hj : j < w) (hb : rd j = some b) :
    bitAt (filledRow rd w) j = b := by
  simp [bitAt, filledRow, hj, hb]

theorem filledRow_getElem? {rd : Nat → Option Bin} {w j : Nat} (hj : j < w) :
    some ((rd j).getD false) = (filledRow rd w)[j]? := by
  simp [filledRow, hj]

theorem extends_filled (rd : Nat → Option Bin) : Extends rd fun j => some ((rd j).getD false) := by
  intro j b hb
  simp [hb]

/-- Where the scans complete, they find what they find in the filled row. -/
theorem scans_filledRow {rd : Nat → Option Bin} {w start stop : Nat} (hone : firstOneFrom rd w 0 = some (some start))
    (hstop : transitionFrom rd (w - (start + 1)) (start + 1) 0 = some (some stop)) :
    FirstOneAt (filledRow rd w) 0 start ∧ ThirteenthAt (filledRow rd w) start stop := by
  have hread : ∀ j, j < (filledRow rd w).length → some ((rd j).getD false) = (filledRow rd w)[j]? := by
    intro j hj
    rw [filledRow_length] at hj
    exact filledRow_getElem? hj
  have h1 := firstOneFrom_row (low := 0) fun j _ hj => hread j hj
  have h2 := transitionFrom_row (start := start) fun j _ hj => hread j hj
  rw [filledRow_length] at h1 h2
  rw [Nat.sub_zero, firstOneFrom_extends (extends_filled rd) hone] at h1
  rw [transitionFrom_extends (extends_filled rd) hstop] at h2
  exact ⟨firstOne_eq_some.mp (Option.some.inj h1).symm, transitionsAfter_getElem?.mp (Option.some.inj h2).symm⟩

/-! ### The Bit Sampler (R160 to R166) -/

section SampleRow
variable {bits : List Bin} {bs bw : Nat} {k : Int}

/-- R161: the offset lies in the row. -/
theorem sampleRow_of_offset {o : Nat} (ho : o < bits.length) (heq : (o : Int) = bs + k * bw + bw / 2) :
    sampleRow bits bs bw k = sampledValue (bitAt bits o) := by
  have hoff : (bs : Int) + k * bw + ((bw / 2 : Nat) : Int) = o := by push_cast; omega
  simp only [sampleRow, hoff]
  rw [if_neg (by omega), Int.toNat_natCast]

/-- R162: it lies outside. -/
theorem sampleRow_of_outside (h : bs + k * bw + bw / 2 < 0 ∨ (bits.length : Int) ≤ bs + k * bw + bw / 2) :
    sampleRow bits bs bw k = .outOfRange :=
  if_pos (by push_cast; exact h)

end SampleRow

theorem exec_sampleBit_row {s : State} {l : Nat} {ln : Lane} {bits : List Bin} (k : BitVec 5) (hl : s.lane? l = some ln)
    (hpc : ln.pc = .calibrated ∨ ln.pc = .sanityChecked) (hrow : ln.binaryRow bits) :
    exec (.sampleBit l k) s =
      .next { s with sampleOut := sampleRow bits ln.bitStart.read ln.bitWidth.read k.toInt } := by
  show execSampleBit l k s = _
  simp [execSampleBit, hl, hpc, sampleBitUnit_row hrow rfl rfl]

theorem sampledValue_eq (b : Bin) : sampledValue b = if b then .one else .zero := by cases b <;> rfl

/-- R165: two bit widths fit between the stop of the run-in and its start, so an offset from -3 on stays above 0. -/
theorem offset_pos {a b r bw : Nat} {k : Int} (hlen : a + 13 ≤ b) (hr : b < r) (hbw : bw = bitWidthOf (b - a))
    (hk : -3 ≤ k) : 0 < ((r + bw : Nat) : Int) + k * bw + bw / 2 := by
  have hup := bitWidthOf_upper (b - a)
  rw [← hbw] at hup
  have hmul : -3 * (bw : Int) ≤ k * bw := Int.mul_le_mul_of_nonneg_right hk (Int.natCast_nonneg _)
  omega

end Sys2Proof.Machine

namespace Sys2Proof.Proofs

open Sys2Proof Sys2Proof.Machine

/-- Settles O14: the three ranges of the percentage, multiplied out. -/
theorem classificationNeedsNoDivision : Obligations.ClassificationNeedsNoDivision := by
  unfold Obligations.ClassificationNeedsNoDivision
  intro m s prev hm
  split_ifs with hlo hhi
  · exact classify_of_lt hm hlo
  · exact classify_of_reaches hm hhi
  · exact classify_of_between hm (Nat.not_lt.mp hlo) (Nat.not_le.mp hhi)

/-- Settles O15: the first sample that reaches 56 hundredths of the peak is classified as a 1, and the bits before it keep
the carry 0. -/
theorem normalizedRowHoldsOne : Obligations.NormalizedRowHoldsOne := by
  unfold Obligations.NormalizedRowHoldsOne
  intro row hpeak
  obtain ⟨i, hreach, hbefore⟩ := exists_first_reaches hpeak
  exact ⟨i, firstOneAt_of_first_reaches hpeak hreach hbefore, hreach, hbefore⟩

/-- Settles O16: the locator passes its four tests. -/
theorem locateFindsRunIn : Obligations.LocateFindsRunIn := by
  unfold Obligations.LocateFindsRunIn
  intro s l ln bits start stop hl hpc hrow hone hgood hstop hlo hhi
  have hunit := locateUnit_row hrow
  rw [locate_of_run_in hone hgood hstop ⟨hlo, hhi⟩] at hunit
  exact laneOp_ok hl hpc hunit

/-- Settles O18: the scans read what stands at the two indices, and their findings are those of the row with each NONE taken
for a 0, where the shape of a run-in is known. -/
theorem locatedRunInShape : Obligations.LocatedRunInShape := by
  unfold Obligations.LocatedRunInShape
  intro ln ln' h
  obtain ⟨start, stop, hone, hstop, ⟨_, hhi⟩, rfl⟩ := locateUnit_ok h
  obtain ⟨hfirst, hthirteenth⟩ := scans_filledRow hone hstop
  obtain ⟨-, -, hlevel, -⟩ := hfirst
  obtain ⟨hzero, hlen⟩ := thirteenthAt_shape hlevel hthirteenth
  obtain ⟨b, hb⟩ := exists_read_of_transitionFrom hstop
  obtain ⟨-, hlt, -⟩ := hthirteenth
  rw [filledRow_length] at hlt
  rw [bitAt_filledRow hlt hb] at hzero
  exact ⟨start, stop, rfl, rfl, read_of_firstOneFrom hone, hzero ▸ hb, hlen, by omega⟩

/-- Settles O21: SAMPLEBIT answers as the function of the row does, by its offset. -/
theorem sampleBitReadsMidpoint : Obligations.SampleBitReadsMidpoint := by
  unfold Obligations.SampleBitReadsMidpoint
  rintro s l ln bits bs bw k hl hpc hrow rfl rfl
  rw [exec_sampleBit_row k hl hpc hrow]
  refine ⟨fun o ho heq => ?inside, fun hout => ?outside⟩
  case inside => rw [sampleRow_of_offset ho heq, sampledValue_eq]
  case outside => rw [sampleRow_of_outside hout]

/-- Settles O24: the offset grows with the Bit Index. -/
theorem dataOutOfRangeIffLast : Obligations.DataOutOfRangeIffLast := by
  unfold Obligations.DataOutOfRangeIffLast
  intro bits bs bw
  refine ⟨fun ⟨k, hk, hout⟩ => ?mono, fun hout => ⟨15, by decide, hout⟩⟩
  case mono =>
    rw [sampleRow_outOfRange_iff] at hout
    refine (sampleRow_outOfRange_iff bits bs bw 15).mpr ?_
    have hle : k * bw ≤ 15 * bw := Nat.mul_le_mul_right bw (Nat.le_of_lt_succ hk)
    omega

/-- Settles O25: the ranges of the registers give the run-in its length and the rising edge its place. -/
theorem sampleOffsetsArePositive : Obligations.SampleOffsetsArePositive := by
  unfold Obligations.SampleOffsetsArePositive
  intro p ln bs bw k hr hbs hbw hlow _
  obtain ⟨r, bw', hrise, hbw', rfl⟩ := hr.bitStart_eq bs hbs
  rw [hbw] at hbw'; cases hbw'
  obtain ⟨len, hlen, hwidth⟩ := hr.width_eq bw hbw
  obtain ⟨a, b, ha, hb, rfl⟩ := hr.length_eq len hlen
  obtain ⟨w, a', -, ha', hab, -⟩ := hr.stop_range b hb
  rw [ha] at ha'; cases ha'
  obtain ⟨b', w', hb', -, hbr, -⟩ := hr.rise_range r hrise
  rw [hb] at hb'; cases hb'
  exact offset_pos hab hbr hwidth hlow

end Sys2Proof.Proofs
end

section
/-! `decodeFrame`: the shape of its results, and exactly which rows decode to given bytes (45_frame_decoder.md R198, R199). -/

namespace Sys2Proof.Machine

/-! ### The shape of a result (R198 b, c) -/

/-- R198 (b): the sentinel with a cause from 1 to 7, or two bytes below 128 with none. -/
def FrameResult.WellShaped (r : FrameResult) : Prop :=
  (r.valid = false → r.byte0 = 0#8 ∧ r.byte1 = 0#8 ∧ DecodingCause r.cause) ∧
  (r.valid = true → r.cause = .none ∧ r.byte0.toNat ≤ 127 ∧ r.byte1.toNat ≤ 127)

theorem rejectedResult_wellShaped {c : Cause} (hc : DecodingCause c) : (rejectedResult c).WellShaped :=
  ⟨fun _ => ⟨rfl, rfl, hc⟩, fun h => (by cases h)⟩

theorem resultOf_wellShaped {α : Type} {x : Except Cause α} {k : α → FrameResult}
    (herr : ∀ c, x = .error c → DecodingCause c) (hok : ∀ a, x = .ok a → (k a).WellShaped) :
    (resultOf x k).WellShaped := by
  cases x with
  | error c => exact rejectedResult_wellShaped (herr c rfl)
  | ok a => exact hok a rfl

theorem normalize_error {row : List Sample} {c : Cause} (h : normalize row = .error c) : c = .blankLine := by
  unfold normalize at h
  split at h <;> cases h
  rfl

theorem calibrate_error {br : List Bin} {start stop : Nat} {c : Cause} (h : calibrate br start stop = .error c) :
    c = .startEdgeNotFound := by
  unfold calibrate at h
  split at h <;> cases h
  rfl

/-- An assembly that completes gives the bytes and the parity pair of its sixteen samples, all in range. -/
theorem assemble_ok_iff {br : List Bin} {bs bw : Nat} {bytes : RByte × RByte × BitVec 2} :
    assemble br bs bw = .ok bytes ↔
      (∀ k : Nat, k < 16 → sampleRow br bs bw k ≠ .outOfRange) ∧
        bytes = (groupByte (dataSamples br bs bw) 0, groupByte (dataSamples br bs bw) 8,
          parityBits (dataSamples br bs bw)) := by
  by_cases hin : ∀ k : Nat, k < 16 → sampleRow br bs bw k ≠ .outOfRange
  · rw [assemble_of_inRange hin, Except.ok.injEq, eq_comm]
    exact (and_iff_right hin).symm
  · have hout : ∃ k : Nat, k < 16 ∧ sampleRow br bs bw k = .outOfRange := by simpa using hin
    rw [assemble_of_outOfRange hout]
    simp [hin]

theorem validateResult_wellShaped {b0 b1 : RByte} {par : BitVec 2} (h0 : b0.toNat ≤ 127) (h1 : b1.toNat ≤ 127) :
    (validateResult b0 b1 par).WellShaped :=
  resultOf_wellShaped (fun c hc => by rw [validate_error hc]; simp [DecodingCause])
    fun _ _ => ⟨fun h => (by cases h), fun _ => ⟨rfl, h0, h1⟩⟩

theorem assembleResult_wellShaped (br : List Bin) (bs bw : Nat) : (assembleResult br bs bw).WellShaped :=
  resultOf_wellShaped (fun c hc => by rw [assemble_error hc]; simp [DecodingCause]) fun bytes hok => by
    obtain ⟨-, rfl⟩ := assemble_ok_iff.mp hok
    exact validateResult_wellShaped (groupByte_le _ _) (groupByte_le _ _)

theorem sanityResult_wellShaped (br : List Bin) (bs bw : Nat) : (sanityResult br bs bw).WellShaped :=
  resultOf_wellShaped (fun c hc => by obtain rfl | rfl := sanity_error hc <;> simp [DecodingCause])
    fun _ _ => assembleResult_wellShaped br bs bw

theorem calibResult_wellShaped (br : List Bin) (start stop : Nat) : (calibResult br start stop).WellShaped :=
  resultOf_wellShaped (fun c hc => by rw [calibrate_error hc]; simp [DecodingCause])
    fun timing _ => sanityResult_wellShaped br timing.2 timing.1

theorem locateResult_wellShaped (br : List Bin) : (locateResult br).WellShaped :=
  resultOf_wellShaped (fun c hc => by obtain rfl | rfl := locate_error hc <;> simp [DecodingCause])
    fun run _ => calibResult_wellShaped br run.1 run.2

theorem decodeFrame_wellShaped (row : List Sample) : (decodeFrame row).WellShaped := by
  rw [decodeFrame_eq]
  exact resultOf_wellShaped (fun c hc => by rw [normalize_error hc]; simp [DecodingCause])
    fun br _ => locateResult_wellShaped br

theorem decodeFrame_of_blank {row : List Sample} (h : peak row < 32) : decodeFrame row = rejectedResult .blankLine := by
  have hnorm : normalize row = .error .blankLine := if_pos h
  rw [decodeFrame_eq, hnorm, resultOf_error]

/-! ### When each unit's function completes -/

/-- A valid result comes from a unit that completes. -/
theorem resultOf_eq_iff {α : Type} {x : Except Cause α} {k : α → FrameResult} {r : FrameResult} (hr : r.valid = true) :
    resultOf x k = r ↔ ∃ a, x = .ok a ∧ k a = r := by
  cases x with
  | error c =>
    have hne : rejectedResult c ≠ r := by rintro rfl; cases hr
    simp [hne]
  | ok a => simp

theorem normalize_ok_iff {row : List Sample} {br : List Bin} :
    normalize row = .ok br ↔ 32 ≤ peak row ∧ br = binarise (peak row) false row := by
  by_cases h : peak row < 32
  · have hnorm : normalize row = .error .blankLine := if_pos h
    simp [hnorm, h]
  · have hnorm : normalize row = .ok (binarise (peak row) false row) := if_neg h
    simp [hnorm, Nat.not_lt.mp h, eq_comm]

theorem locate_ok_iff {br : List Bin} {start stop : Nat} :
    locate br = .ok (start, stop) ↔
      FirstOneAt br 0 start ∧ 20 * start ≤ br.length ∧ ThirteenthAt br start stop ∧ stopInBand br.length stop :=
  ⟨locate_ok, fun ⟨hone, hgood, hstop, hband⟩ => locate_of_run_in hone hgood hstop hband⟩

theorem calibrate_ok_iff {br : List Bin} {start stop : Nat} {timing : Nat × Nat} :
    calibrate br start stop = .ok timing ↔
      ∃ rise, FirstOneAt br stop rise ∧ timing = (bitWidthOf (stop - start), rise + bitWidthOf (stop - start)) := by
  simp only [← firstOne_eq_some, calibrate]
  cases firstOne br stop with
  | none => simp
  | some rise => simp [eq_comm]

theorem sanity_ok_iff {br : List Bin} {bs bw : Nat} {u : Unit} :
    sanity br bs bw = .ok u ↔
      sampleRow br bs bw (-3) = .zero ∧ sampleRow br bs bw (-2) = .zero ∧ sampleRow br bs bw (-1) = .one := by
  constructor
  · intro h
    by_contra hpat
    by_cases hout : sampleRow br bs bw (-3) = .outOfRange ∨ sampleRow br bs bw (-2) = .outOfRange ∨
        sampleRow br bs bw (-1) = .outOfRange
    · rw [sanity_of_outOfRange hout] at h; cases h
    · rw [sanity_of_mismatch hout hpat] at h; cases h
  · exact fun ⟨h3, h2, h1⟩ => sanity_of_pattern h3 h2 h1

theorem validate_ok_iff {b0 b1 : RByte} {par : BitVec 2} {u : Unit} :
    validate b0 b1 par = .ok u ↔
      (popcount b0 + (par.getLsbD 0).toNat) % 2 = 1 ∧ (popcount b1 + (par.getLsbD 1).toNat) % 2 = 1 := by
  rw [validate_eq]
  split_ifs with h
  · exact iff_of_true rfl h
  · exact iff_of_false (by simp) h

/-! ### The rows with a valid result, unit by unit -/

section Valid
variable {br : List Bin} {bs bw : Nat} {b0 b1 : RByte}

theorem validateResult_eq_iff {v0 v1 : RByte} {par : BitVec 2} :
    validateResult v0 v1 par = ⟨b0, b1, true, .none⟩ ↔
      v0 = b0 ∧ v1 = b1 ∧
        (popcount b0 + (par.getLsbD 0).toNat) % 2 = 1 ∧ (popcount b1 + (par.getLsbD 1).toNat) % 2 = 1 := by
  rw [validateResult, resultOf_eq_iff rfl]
  simp only [validate_ok_iff, exists_const, FrameResult.mk.injEq, and_true]
  constructor
  · rintro ⟨hpar, rfl, rfl⟩; exact ⟨rfl, rfl, hpar⟩
  · rintro ⟨rfl, rfl, hpar⟩; exact ⟨hpar, rfl, rfl⟩

theorem assembleResult_eq_iff :
    assembleResult br bs bw = ⟨b0, b1, true, .none⟩ ↔
      (∀ k : Nat, k < 16 → sampleRow br bs bw k ≠ .outOfRange) ∧ groupByte (dataSamples br bs bw) 0 = b0 ∧
        groupByte (dataSamples br bs bw) 8 = b1 ∧
        (popcount b0 + ((parityBits (dataSamples br bs bw)).getLsbD 0).toNat) % 2 = 1 ∧
        (popcount b1 + ((parityBits (dataSamples br bs bw)).getLsbD 1).toNat) % 2 = 1 := by
  rw [assembleResult, resultOf_eq_iff rfl]
  simp only [assemble_ok_iff, and_assoc, exists_and_left, exists_eq_left, validateResult_eq_iff]

theorem sanityResult_eq_iff {r : FrameResult} (hr : r.valid = true) :
    sanityResult br bs bw = r ↔
      (sampleRow br bs bw (-3) = .zero ∧ sampleRow br bs bw (-2) = .zero ∧ sampleRow br bs bw (-1) = .one) ∧
        assembleResult br bs bw = r := by
  rw [sanityResult, resultOf_eq_iff hr]
  simp only [sanity_ok_iff, exists_const]

theorem locateResult_eq_iff {r : FrameResult} (hr : r.valid = true) :
    locateResult br = r ↔
      ∃ s t rise, FirstOneAt br 0 s ∧ 20 * s ≤ br.length ∧ ThirteenthAt br s t ∧ stopInBand br.length t ∧
        FirstOneAt br t rise ∧ sanityResult br (rise + bitWidthOf (t - s)) (bitWidthOf (t - s)) = r := by
  simp only [locateResult, calibResult, resultOf_eq_iff hr, Prod.exists, locate_ok_iff, calibrate_ok_iff,
    Prod.mk.injEq]
  constructor
  · rintro ⟨s, t, ⟨hone, hgood, hstop, hband⟩, _, _, ⟨rise, hrise, rfl, rfl⟩, hrest⟩
    exact ⟨s, t, rise, hone, hgood, hstop, hband, hrise, hrest⟩
  · rintro ⟨s, t, rise, hone, hgood, hstop, hband, hrise, hrest⟩
    exact ⟨s, t, ⟨hone, hgood, hstop, hband⟩, _, _, ⟨rise, hrise, rfl, rfl⟩, hrest⟩

end Valid

theorem decodeFrame_eq_iff {row : List Sample} {r : FrameResult} (hr : r.valid = true) :
    decodeFrame row = r ↔ 32 ≤ peak row ∧ locateResult (binarise (peak row) false row) = r := by
  rw [decodeFrame_eq, resultOf_eq_iff hr]
  simp only [normalize_ok_iff, and_assoc, exists_and_left, exists_eq_left]

/-! ### The samples by their places in the row -/

section Places
variable {br : List Bin} {rise b : Nat}

theorem sampledValue_eq_one {x : Bin} : sampledValue x = .one ↔ x = true := by cases x <;> simp [sampledValue]
theorem sampledValue_eq_zero {x : Bin} : sampledValue x = .zero ↔ x = false := by cases x <;> simp [sampledValue]

/-- R166: the data are in range exactly where the last midpoint is in the row. -/
theorem data_inRange_iff :
    (∀ k : Nat, k < 16 → sampleRow br (rise + b) b k ≠ .outOfRange) ↔ rise + 16 * b + b / 2 < br.length := by
  constructor
  · intro hin
    have hlast := hin 15 (by decide)
    rw [ne_eq, sampleRow_outOfRange_iff] at hlast
    omega
  · intro hlt k hk hout
    rw [sampleRow_outOfRange_iff] at hout
    have hle : k * b ≤ 15 * b := Nat.mul_le_mul_right b (Nat.le_of_lt_succ hk)
    omega

/-- The data samples, in a row that holds the last midpoint. -/
theorem sampleRow_data {k : Nat} (hlt : rise + 16 * b + b / 2 < br.length) (hk : k < 16) :
    sampleRow br (rise + b) b k = sampledValue (bitAt br (rise + (k + 1) * b + b / 2)) := by
  have hle : (k + 1) * b ≤ 16 * b := Nat.mul_le_mul_right b hk
  refine sampleRow_of_offset (by omega) ?_
  push_cast
  ring

/-- The dead samples and the start sample, in the slots before the data. -/
theorem sampleRow_before {k : Int} {o : Nat} (ho : o < br.length) (heq : (o : Int) = rise + b + k * b + b / 2) :
    sampleRow br (rise + b) b k = sampledValue (bitAt br o) :=
  sampleRow_of_offset ho (by push_cast; exact heq)

/-- Bit 7 of a byte of at most 127 is 0, so it is an assembled byte by its seven data bits. -/
theorem groupByte_eq_iff {samples : List SVal} {base : Nat} {v : RByte} (hv : v.toNat ≤ 127) :
    groupByte samples base = v ↔ ∀ j, j < 7 → (groupByte samples base).getLsbD j = v.getLsbD j := by
  refine ⟨fun h j _ => by rw [h], fun h => BitVec.eq_of_getLsbD_eq fun j hj => ?_⟩
  obtain hlt | rfl := Nat.lt_or_eq_of_le (Nat.le_of_lt_succ hj)
  · exact h j hlt
  · rw [groupByte_getLsbD_seven, eq_comm]
    exact Nat.testBit_eq_false_of_lt (by show v.toNat < 2 ^ 7; omega)

/-- R176: an assembled byte by the midpoints of its group. -/
theorem groupByte_eq_iff_places {base : Nat} {v : RByte} (hlt : rise + 16 * b + b / 2 < br.length)
    (hbase : base + 7 < 16) (hv : v.toNat ≤ 127) :
    groupByte (dataSamples br (rise + b) b) base = v ↔
      ∀ j, j < 7 → bitAt br (rise + (j + (base + 1)) * b + b / 2) = v.getLsbD j := by
  rw [groupByte_eq_iff hv]
  refine forall₂_congr fun j hj => ?_
  have hbit := groupByte_dataSamples (bits := br) (bs := rise + b) (bw := b) (base := base) hj (by omega)
  rw [sampleRow_data hlt (by omega), sampledValue_eq_one, show base + j + 1 = j + (base + 1) by omega] at hbit
  rw [Bool.eq_iff_iff.mpr hbit]

theorem odd_add_toNat_iff (n : Nat) (p : Bool) : (n + p.toNat) % 2 = 1 ↔ p = decide (n % 2 = 0) := by
  cases p with
  | true => simp only [Bool.toNat_true, eq_comm (a := true), decide_eq_true_eq]; omega
  | false => simp

/-- R175, R180: the parity test of a group by the midpoint of its parity bit. -/
theorem parity_iff_places (hlt : rise + 16 * b + b / 2 < br.length) (n0 n1 : Nat) :
    ((n0 + ((parityBits (dataSamples br (rise + b) b)).getLsbD 0).toNat) % 2 = 1 ↔
      bitAt br (rise + 8 * b + b / 2) = decide (n0 % 2 = 0)) ∧
    ((n1 + ((parityBits (dataSamples br (rise + b) b)).getLsbD 1).toNat) % 2 = 1 ↔
      bitAt br (rise + 16 * b + b / 2) = decide (n1 % 2 = 0)) := by
  obtain ⟨h0, h1⟩ := parityBits_getLsbD (samples := dataSamples br (rise + b) b)
    (dataSamples_getElem? (by decide)) (dataSamples_getElem? (by decide))
  rw [sampleRow_data hlt (by decide), sampledValue_eq_one, ← Bool.eq_iff_iff] at h0 h1
  rw [h0, h1]
  exact ⟨odd_add_toNat_iff _ _, odd_add_toNat_iff _ _⟩

/-- R199: the samples at the midpoints after the rising edge spell the bytes with odd parity. -/
def SamplesSpell (br : List Bin) (rise b : Nat) (b0 b1 : RByte) : Prop :=
  rise + 16 * b + b / 2 < br.length ∧ bitAt br (rise + b / 2 - 2 * b) = false ∧
  bitAt br (rise + b / 2 - b) = false ∧ bitAt br (rise + b / 2) = true ∧
  (∀ j, j < 7 → bitAt br (rise + (j + 1) * b + b / 2) = b0.getLsbD j ∧
    bitAt br (rise + (j + 9) * b + b / 2) = b1.getLsbD j) ∧
  bitAt br (rise + 8 * b + b / 2) = decide (popcount b0 % 2 = 0) ∧
  bitAt br (rise + 16 * b + b / 2) = decide (popcount b1 % 2 = 0)

theorem sanityResult_eq_iff_samplesSpell {b0 b1 : RByte} (h0 : b0.toNat ≤ 127) (h1 : b1.toNat ≤ 127)
    (hroom : 2 * b ≤ rise) :
    sanityResult br (rise + b) b = ⟨b0, b1, true, .none⟩ ↔ SamplesSpell br rise b b0 b1 := by
  rw [sanityResult_eq_iff rfl, assembleResult_eq_iff, data_inRange_iff, and_left_comm, SamplesSpell]
  refine and_congr_right fun hlt => ?_
  obtain ⟨hpar0, hpar1⟩ := parity_iff_places hlt (popcount b0) (popcount b1)
  rw [groupByte_eq_iff_places hlt (by decide) h0, groupByte_eq_iff_places hlt (by decide) h1, hpar0, hpar1,
    sampleRow_before (k := -3) (o := rise + b / 2 - 2 * b) (by omega) (by omega),
    sampleRow_before (k := -2) (o := rise + b / 2 - b) (by omega) (by omega),
    sampleRow_before (k := -1) (o := rise + b / 2) (by omega) (by omega),
    sampledValue_eq_zero, sampledValue_eq_zero, sampledValue_eq_one]
  simp only [forall_and, and_assoc]

end Places

/-- R141: two bit widths fit before the rising edge. -/
theorem two_bitWidths_le {br : List Bin} {s t rise : Nat} (hone : FirstOneAt br 0 s) (hstop : ThirteenthAt br s t)
    (hrise : FirstOneAt br t rise) : 2 * bitWidthOf (t - s) ≤ rise := by
  obtain ⟨-, -, hlevel, -⟩ := hone
  obtain ⟨-, hlen⟩ := thirteenthAt_shape hlevel hstop
  obtain ⟨hle, -⟩ := hrise
  have hup := bitWidthOf_upper (t - s)
  omega

end Sys2Proof.Machine

namespace Sys2Proof.Proofs

open Sys2Proof Sys2Proof.Machine

/-- Settles O51: each unit rejects with a cause of its own, and the assembled bytes are below 128. -/
theorem decodeFrameResultShape : Obligations.DecodeFrameResultShape := by
  unfold Obligations.DecodeFrameResultShape
  intro row
  obtain ⟨hinvalid, hvalid⟩ := decodeFrame_wellShaped row
  exact ⟨hinvalid, hvalid, decodeFrame_of_blank⟩

/-- Settles O52: each unit of `decodeFrame` completes on the condition of its own tests, and the samples are read at their
places. -/
theorem decodedRowsCharacterised : Obligations.DecodedRowsCharacterised := by
  unfold Obligations.DecodedRowsCharacterised
  intro row b0 b1 h0 h1
  dsimp only
  rw [decodeFrame_eq_iff rfl, locateResult_eq_iff rfl, binarise_length]
  refine and_congr_right fun _ => exists₃_congr fun s t rise => ?_
  rw [and_assoc]
  refine and_congr_right fun hone => and_congr_right fun _ => and_congr_right fun hstop => and_congr_right fun _ =>
    and_congr_right fun _ => and_congr_right fun hrise => ?_
  rw [sanityResult_eq_iff_samplesSpell h0 h1 (two_bitWidths_le hone hstop hrise), SamplesSpell, binarise_length]
  rfl

end Sys2Proof.Proofs
end

section
/-! The host's reads and commands, the concatenator, reset and waiting (46_batch_array.md R212, R213, R220,
70_reset_and_hazards.md R274), and the frames of the operations (20_memory.md R50, 60_exceptions.md R252). -/

namespace Sys2Proof.Machine

/-! ### CSRR -/

/-- R31: STATUS as a number. -/
theorem status_toNat (s : State) :
    s.status.toNat = s.busy.toNat + 2 * s.batchDone.toNat + 4 * s.rowError.toNat := by
  unfold State.status
  cases s.busy <;> cases s.batchDone <;> cases s.rowError <;> rfl

theorem exec_csrr_errIndex {s : State} (herr : s.rowError = true) :
    exec (.csrr 4#3) s = .next { s with csrRdata := s.errIndex.read } :=
  if_pos herr

/-- U3: while `row_error = 0` the read is a free value of the register's width. -/
theorem exec_csrr_errIndex_free {s : State} (herr : s.rowError = false) :
    exec (.csrr 4#3) s =
      .next { s with csrRdata := Config.freeErrIndex s.free % 2 ^ s.cfg.fw, free := s.free + 1 } :=
  if_neg (by simp [herr])

/-! ### BSTART and the command port -/

theorem exec_bstart_of_idle {s : State} (hb : s.busy = false) : exec .bstart s = .next s.startBatch :=
  if_neg (by simp [hb])

theorem exec_bstart_of_busy {s : State} (hb : s.busy = true) :
    exec .bstart s = .next { s with cmdWaiting := s.cmdWaiting + 1 } :=
  if_pos hb

theorem step_commandPort_of_busy {s : State} (hb : s.busy = true) : step (s.withAgent .commandPort) = .next s :=
  step_of_fetch_idle (by rw [fetch_withAgent]; simp [State.agentSelects, hb])

theorem step_commandPort_of_waiting {s : State} (hb : s.busy = false) (hw : 0 < s.cmdWaiting) :
    step (s.withAgent .commandPort) = .next { s with cmdWaiting := s.cmdWaiting - 1 }.startBatch := by
  have hf : (s.withAgent .commandPort).fetch =
      .selected (.cmd 0b01#2) { s with cmdWaiting := s.cmdWaiting - 1 } := by
    rw [fetch_withAgent]; simp [State.agentSelects, hb, hw]
  exact (step_of_fetch_selected hf (decode_cmd _)).trans (exec_bstart_of_idle hb)

/-! ### DISPATCH, DRAIN and BDONE where their conditions do not hold -/

theorem exec_dispatch_of_not_enabled {s : State} {l : Nat} {ln : Lane} (hl : s.lane? l = some ln)
    (hen : ¬(s.dispatchEnabled ∧ ln.pc = .idle)) : exec (.dispatch l) s = .next s := by
  show execDispatch l s = _
  simp only [execDispatch, hl]
  exact if_neg hen

theorem exec_drain_of_not_enabled {s : State} (hen : ¬(s.busy = true ∧ s.next < s.batchN)) :
    exec .drain s = .next s :=
  if_neg hen

theorem exec_drain_of_not_full {s : State} (hfull : s.slotFull s.next = false) : exec .drain s = .next s := by
  show execDrain s = _
  unfold execDrain State.slotFull at *
  split
  · cases hread : s.rs.read? s.next with
    | none => rfl
    | some slot =>
      rw [hread] at hfull
      exact if_neg (by simpa using hfull)
  · rfl

/-! ### The frame of a lane's operation -/

/-- What a lane operation that completes leaves as it was, on its lane and on the block (R252, R50, R59). -/
def LeavesRest (op : Instr) (written : List RegName) (l : Nat) (s t : State) (ln ln' : Lane) : Prop :=
  SameRegsExcept written ln ln' ∧ (op ≠ .validate l → ln'.valid = ln.valid) ∧
    (∀ j, ln'.sr.read? j = ln.sr.read? j) ∧
    (∀ j, (op = .norm l → ln.w.read ≤ j) → ln'.br.read? j = ln.br.read? j) ∧
    OnlyLane l s { t with rs := s.rs } ∧
    ∀ i, (op = .collectDone l ∨ op = .collectRejected l → ln.fidx.read ≠ i) → t.rs.read? i = s.rs.read? i

section LaneFrames
variable {op : Instr} {written : List RegName} {at_ : LaneState} {u : Lane → Stage Lane} {l : Nat} {s t : State}
  {ln ln' : Lane}

/-- A lane operation that completes without a rejection leaves what its unit leaves. -/
theorem laneOp_leavesRest (hat : at_ ≠ .rejected)
    (hu : ∀ x, u ln = .ok x → SameRegsExcept written ln x ∧ (op ≠ .validate l → x.valid = ln.valid) ∧ x.sr = ln.sr ∧
      ∀ j, (op = .norm l → ln.w.read ≤ j) → x.br.read? j = ln.br.read? j)
    (ht : laneOp at_ u l s = .next t) (hl : s.lane? l = some ln) (hl' : t.lane? l = some ln')
    (hpc : ln.pc = .rejected ∨ ln'.pc ≠ .rejected) : LeavesRest op written l s t ln ln' := by
  obtain ⟨honly, ⟨-, rfl, rfl⟩ | ⟨-, hok, rfl⟩ | ⟨hst, c, -, rfl, -⟩⟩ := laneOp_lane ht hl hl'
  · exact ⟨SameRegsExcept.refl _ _, fun _ => rfl, fun _ => rfl, fun _ _ => rfl, honly, fun _ _ => rfl⟩
  · obtain ⟨hregs, hvalid, hsr, hbr⟩ := hu ln' hok
    exact ⟨hregs, hvalid, fun j => by rw [hsr], hbr, honly, fun _ _ => rfl⟩
  · exact absurd hpc (by simp [hst, hat])

theorem collectAt_leavesRest (hop : op = .collectDone l ∨ op = .collectRejected l) (ht : collectAt at_ l s = .next t)
    (hl : s.lane? l = some ln) (hl' : t.lane? l = some ln') : LeavesRest op [] l s t ln ln' := by
  obtain ⟨honly, hregs, hvalid, hsr, hbr, hslots, -⟩ := collectAt_lane ht hl hl'
  exact ⟨hregs, fun _ => hvalid, fun j => by rw [hsr], fun j _ => by rw [hbr], honly, fun i hi => hslots i (hi hop)⟩

end LaneFrames

/-! ### The frame of the operations that are not a lane's -/

/-- The operations that are no lane's, with SAMPLEBIT, which writes nothing of its lane. -/
def BlockOp (op : Instr) : Prop :=
  ∃ l k n v i h, op ∈ [Instr.sampleBit l k, .csrw n v, .csrr n, .flw i h, .nop, .bstart, .drain, .bdone]

theorem BlockOp.not_decodingOp {op : Instr} (h : BlockOp op) (l : Nat) : ¬DecodingOp l op := by
  obtain ⟨l', k, n, v, i, a, hmem⟩ := h
  intro hdec
  simp only [DecodingOp, List.mem_cons, List.not_mem_nil, or_false] at hdec
  obtain rfl | rfl | rfl | rfl | rfl | rfl := hdec <;> simp at hmem

theorem BlockOp.not_collectedBy {op : Instr} (h : BlockOp op) (l : Nat) (st : LaneState) : ¬CollectedBy l st op := by
  obtain ⟨l', k, n, v, i, a, hmem⟩ := h
  rintro (⟨-, rfl⟩ | ⟨-, rfl⟩) <;> simp at hmem

theorem BlockOp.ne_load {op : Instr} (h : BlockOp op) (l i : Nat) : op ≠ .load l i := by
  obtain ⟨l', k, n, v, i', a, hmem⟩ := h
  rintro rfl
  simp at hmem

theorem BlockOp.ne_dispatch {op : Instr} (h : BlockOp op) (l : Nat) : op ≠ .dispatch l := by
  obtain ⟨l', k, n, v, i, a, hmem⟩ := h
  rintro rfl
  simp at hmem

/-! ### The frame of LOAD and DISPATCH -/

theorem exec_load_of_not_idle {s : State} {l : Nat} {ln : Lane} (i : Nat) (hl : s.lane? l = some ln)
    (hpc : ln.pc ≠ .idle) : exec (.load l i) s = .next s := by
  show execLoad l i s = _
  simp [execLoad, hl, hpc]

/-- What a LOAD of an idle lane leaves of the lane's buffers and of the block. -/
theorem loadFrame_frame {s t : State} {l i : Nat} {ln ln' : Lane} (hload : s.loadFrame l ln i = .next t)
    (hpc : ln.pc = .idle) (hl : s.lane? l = some ln) (hl' : t.lane? l = some ln') :
    OnlyLane l s { t with errIndex := s.errIndex, rowError := s.rowError } ∧
    (ln'.pc ≠ .rejected ∨ ln.pc = .rejected → t.errIndex = s.errIndex ∧ t.rowError = s.rowError) ∧
    t.disp = s.disp ∧ (∀ j, ln'.br.read? j = ln.br.read? j) ∧
    ∀ j, (∀ w, ln'.w.value? = some w → w ≤ j) → ln'.sr.read? j = ln.sr.read? j := by
  obtain ⟨honly, hdisp, ⟨row, rfl, herr⟩ | rfl⟩ := loadFrame_lane hload hl hl'
  · refine ⟨honly, fun _ => herr, hdisp, fun _ => rfl, fun j hj => ?_⟩
    rw [Lane.loaded_sr, Memory.read?_writePrefix, if_neg (Nat.not_lt.mpr (hj _ rfl))]
  · exact ⟨honly, fun hrej => absurd hrej (by simp [hpc]), hdisp, fun _ => rfl, fun _ _ => rfl⟩

theorem OnlyLane.refl (l : Nat) (s : State) : OnlyLane l s s := ⟨rfl, rfl, fun _ _ => rfl⟩

/-- A frame of the block whose `disp` is one further is one of the block, but for `disp`. -/
theorem OnlyLane.of_disp {l d : Nat} {s t : State} (h : OnlyLane l { s with disp := d } t) :
    OnlyLane l s { t with disp := s.disp } := by
  obtain ⟨heq, hlen, hothers⟩ := h
  refine ⟨?_, hlen, hothers⟩
  rw [heq]

end Sys2Proof.Machine

namespace Sys2Proof.Proofs

open Sys2Proof Sys2Proof.Machine

/-- Settles O30: each register number by its own read. -/
theorem csrrReturnsRegister : Obligations.CsrrReturnsRegister := by
  unfold Obligations.CsrrReturnsRegister
  intro s
  refine ⟨rfl, rfl, rfl, ?status, fun e herr he => ?errIndex, rfl, rfl, rfl⟩
  case status => rw [← status_toNat]; rfl
  case errIndex => rw [exec_csrr_errIndex herr, he]

/-- Settles O31: the value read is cut to the register's width. -/
theorem csrrErrIndexUnspecified : Obligations.CsrrErrIndexUnspecified := by
  unfold Obligations.CsrrErrIndexUnspecified
  intro s herr
  exact ⟨_, Nat.mod_lt _ (Nat.two_pow_pos _), exec_csrr_errIndex_free herr⟩

/-- Settles O32: the store after BSTART is the old one with every full bit cleared. -/
theorem bstartStartsBatch : Obligations.BstartStartsBatch := by
  unfold Obligations.BstartStartsBatch
  refine fun s => ⟨rfl, fun hb => ⟨s.startBatch, exec_bstart_of_idle hb, rfl, slotFull_startBatch s, fun i slot => ?_⟩⟩
  rw [State.startBatch_rs, Memory.read?_clearFull, Option.map_eq_some_iff]
  simp only [eq_comm]

/-- Settles O33: while busy the request is counted, and the port presents it once the block is idle. -/
theorem waitingBstartIsTaken : Obligations.WaitingBstartIsTaken := by
  unfold Obligations.WaitingBstartIsTaken
  exact ⟨fun _ => exec_bstart_of_busy, fun _ => step_commandPort_of_busy, fun _ => step_commandPort_of_waiting⟩

/-- Settles O35: each ground on which one of the three waits. -/
theorem blockAgentsWaitUnlessEnabled : Obligations.BlockAgentsWaitUnlessEnabled := by
  unfold Obligations.BlockAgentsWaitUnlessEnabled
  intro s
  refine ⟨fun l ln hl hwait => exec_dispatch_of_not_enabled hl ?dispatch, fun hwait => ?drain, fun hwait => if_neg ?bdone⟩
  case dispatch =>
    rintro ⟨⟨hb, hdisp, hlim⟩, hpc⟩
    obtain hidle | hall | hfull | hused := hwait
    · exact absurd (hidle.symm.trans hb) (by simp)
    · omega
    · omega
    · exact hused hpc
  case drain =>
    obtain hidle | hall | hempty := hwait
    · exact execDrain_of_not_busy hidle
    · exact exec_drain_of_not_enabled fun hen => Nat.not_lt.mpr hall hen.2
    · exact exec_drain_of_not_full hempty
  case bdone =>
    rintro ⟨hb, hn⟩
    obtain hidle | hne := hwait
    · exact absurd (hidle.symm.trans hb) (by simp)
    · exact hne hn

/-- Settles O36: DRAIN of a full slot appends the slot's two beats. -/
theorem drainEmitsSlot : Obligations.DrainEmitsSlot := by
  unfold Obligations.DrainEmitsSlot
  intro s slot hb hn hread hfull
  exact exec_drain_of_full hb hn hread hfull

/-- Settles O39: the turn of `rst` is taken, and the block is reset. -/
theorem rstAbandonsBatch : Obligations.RstAbandonsBatch := by
  unfold Obligations.RstAbandonsBatch
  intro s rest h
  simp only [step, fetch_of_turns h, State.turnSelects]
  rfl

/-- Settles O40: each operation of a lane tests the lane's `pc` first. -/
theorem operationWaitsInOtherStates : Obligations.OperationWaitsInOtherStates := by
  unfold Obligations.OperationWaitsInOtherStates
  intro s l i k ln hl
  have hcollect {at_ : LaneState} (hpc : ln.pc ≠ at_) : collectAt at_ l s = .next s := by simp [collectAt, hl, hpc]
  refine ⟨exec_load_of_not_idle i hl, laneOp_waits hl, laneOp_waits hl, laneOp_waits hl, laneOp_waits hl, laneOp_waits hl,
    laneOp_waits hl, hcollect, hcollect, fun hcal hsan => ?sample⟩
  case sample => show execSampleBit l k s = _; simp [execSampleBit, hl, hcal, hsan]

/-- Settles O42: each operation by the frame of its unit, COLLECT by its own. -/
theorem laneOperationsFrame : Obligations.LaneOperationsFrame := by
  unfold Obligations.LaneOperationsFrame
  intro s t l ln ln' op written hmem ht hl hl' hpc
  show LeavesRest op written l s t ln ln'
  simp only [List.mem_cons, Prod.mk.injEq, List.not_mem_nil, or_false] at hmem
  obtain ⟨rfl, rfl⟩ | ⟨rfl, rfl⟩ | ⟨rfl, rfl⟩ | ⟨rfl, rfl⟩ | ⟨rfl, rfl⟩ | ⟨rfl, rfl⟩ | ⟨rfl, rfl⟩ | ⟨rfl, rfl⟩ := hmem
  case inl =>
    refine laneOp_leavesRest (by simp) (fun x hx => ?_) ht hl hl' hpc
    obtain ⟨hregs, hvalid, hsr, hbr⟩ := normUnit_frame hx
    exact ⟨hregs, fun _ => hvalid, hsr, fun j hj => hbr j (hj rfl)⟩
  case inr.inl =>
    refine laneOp_leavesRest (by simp) (fun x hx => ?_) ht hl hl' hpc
    obtain ⟨hregs, hvalid, hsr, hbr⟩ := locateUnit_frame hx
    exact ⟨hregs, fun _ => hvalid, hsr, fun j _ => by rw [hbr]⟩
  case inr.inr.inl =>
    refine laneOp_leavesRest (by simp) (fun x hx => ?_) ht hl hl' hpc
    obtain ⟨hregs, hvalid, hsr, hbr⟩ := calibUnit_frame hx
    exact ⟨hregs, fun _ => hvalid, hsr, fun j _ => by rw [hbr]⟩
  case inr.inr.inr.inl =>
    refine laneOp_leavesRest (by simp) (fun x hx => ?_) ht hl hl' hpc
    obtain ⟨hregs, hvalid, hsr, hbr⟩ := sanityUnit_frame hx
    exact ⟨hregs, fun _ => hvalid, hsr, fun j _ => by rw [hbr]⟩
  case inr.inr.inr.inr.inl =>
    refine laneOp_leavesRest (by simp) (fun x hx => ?_) ht hl hl' hpc
    obtain ⟨hregs, hvalid, hsr, hbr⟩ := assembleUnit_frame hx
    exact ⟨hregs, fun _ => hvalid, hsr, fun j _ => by rw [hbr]⟩
  case inr.inr.inr.inr.inr.inl =>
    refine laneOp_leavesRest (by simp) (fun x hx => ?_) ht hl hl' hpc
    obtain ⟨hregs, hsr, hbr⟩ := validateUnit_frame hx
    exact ⟨hregs, fun hne => absurd rfl hne, hsr, fun j _ => by rw [hbr]⟩
  case inr.inr.inr.inr.inr.inr.inl => exact collectAt_leavesRest (.inl rfl) ht hl hl'
  case inr.inr.inr.inr.inr.inr.inr => exact collectAt_leavesRest (.inr rfl) ht hl hl'

/-- Settles O43: each effect of these operations writes the cells named for it and no other. -/
theorem blockOperationsFrame : Obligations.BlockOperationsFrame := by
  unfold Obligations.BlockOperationsFrame
  intro s t op hop hexec
  replace hop : BlockOp op := hop
  cases exec_effect hexec with
  | unit hdec hl hpc hadv => exact absurd hdec (hop.not_decodingOp _)
  | collect hl hby hslot => exact absurd hby (hop.not_collectedBy _ _)
  | load hl hpc hload => exact absurd rfl (hop.ne_load _ _)
  | dispatch hl hpc hen hload => exact absurd rfl (hop.ne_dispatch _)
  | waits => simp
  | sampleBit v => simp
  | csrr v free => simp
  | csrwBatchN hb => simp
  | csrwRow hb => simp
  | csrwParLimit hb => simp
  | @flw _ i h hb hi =>
    have hother (a : Nat) (hne : ∀ x, Instr.flw i h ≠ .flw a x) :
        (s.fl.write i (portHandle s.cfg h)).read? a = s.fl.read? a := by
      rw [Memory.read?_write, if_neg]
      rintro rfl
      exact hne h rfl
    exact ⟨rfl, rfl, rfl, rfl, rfl, hother, by simp⟩
  | bstart hb => simp [State.startBatch]
  | bstartHeld hb => simp
  | drain hb hn hread hfull => simp
  | bdone hb hn => simp [State.finishBatch]

/-- Settles O44: both are a LOAD of an idle lane, DISPATCH on the block whose `disp` is one further. -/
theorem loadAndDispatchFrame : Obligations.LoadAndDispatchFrame := by
  unfold Obligations.LoadAndDispatchFrame
  intro s t l i ln ln' op hop hexec hl hl'
  have hwaits (heq : exec op s = .next s) : t = s ∧ ln' = ln := by
    rw [hexec] at heq; cases heq
    rw [hl] at hl'; cases hl'
    exact ⟨rfl, rfl⟩
  obtain rfl | rfl := hop
  case inl =>
    by_cases hpc : ln.pc = .idle
    · rw [exec_load_of_idle hl hpc] at hexec
      obtain ⟨honly, herr, hdisp, hbr, hsr⟩ := loadFrame_frame hexec hpc hl hl'
      exact ⟨by rw [← hdisp]; exact honly, herr, fun _ => hdisp, hbr, hsr⟩
    · obtain ⟨rfl, rfl⟩ := hwaits (exec_load_of_not_idle i hl hpc)
      exact ⟨OnlyLane.refl _ _, fun _ => ⟨rfl, rfl⟩, fun _ => rfl, fun _ => rfl, fun _ _ => rfl⟩
  case inr =>
    by_cases hen : s.dispatchEnabled ∧ ln.pc = .idle
    · obtain ⟨hen, hpc⟩ := hen
      rw [exec_dispatch_of_enabled hl hen hpc] at hexec
      obtain ⟨honly, herr, -, hbr, hsr⟩ := loadFrame_frame (s := { s with disp := s.disp + 1 }) hexec hpc hl hl'
      exact ⟨honly.of_disp, herr, fun hne => (by cases hne), hbr, hsr⟩
    · obtain ⟨rfl, rfl⟩ := hwaits (exec_dispatch_of_not_enabled hl hen)
      exact ⟨OnlyLane.refl _ _, fun _ => ⟨rfl, rfl⟩, fun _ => rfl, fun _ => rfl, fun _ _ => rfl⟩

end Sys2Proof.Proofs
end

section
/-! Reads of NONE: each scan and each sample that comes to a memory element that holds NONE stops there, and so does its
operation (00_scope.md R14, 93_implementation_defined.md U1, U2). -/

namespace Sys2Proof.Machine

/-! ### The scans -/

/-- NORM's first scan reads every element of the row. -/
theorem peakFrom_of_none {rd : Nat → Option Sample} {n i j : Nat} (m : Nat) (hlo : i ≤ j) (hhi : j < i + n)
    (hnone : rd j = none) : peakFrom rd n i m = none := by
  induction n generalizing i m with
  | zero => omega
  | succ n ih =>
    unfold peakFrom
    cases hi : rd i with
    | none => rfl
    | some s =>
      have hne : i ≠ j := by rintro rfl; rw [hnone] at hi; cases hi
      exact ih _ (by omega) (by omega)

/-- The scan for a 1 goes past the zeros below `j`. -/
theorem firstOneFrom_past_zeros {rd : Nat → Option Bin} {i j n : Nat} (hlo : i ≤ j) (hhi : j < i + n)
    (hzero : ∀ m, i ≤ m → m < j → rd m = some false) : ∃ n', firstOneFrom rd n i = firstOneFrom rd (n' + 1) j := by
  induction n generalizing i with
  | zero => omega
  | succ n ih =>
    obtain rfl | hlt := Nat.eq_or_lt_of_le hlo
    · exact ⟨n, rfl⟩
    · simp only [firstOneFrom, hzero i (Nat.le_refl i) hlt]
      exact ih hlt (by omega) fun m h1 h2 => hzero m (by omega) h2

theorem firstOneFrom_of_none {rd : Nat → Option Bin} {i j n : Nat} (hlo : i ≤ j) (hhi : j < i + n)
    (hzero : ∀ m, i ≤ m → m < j → rd m = some false) (hnone : rd j = none) : firstOneFrom rd n i = none := by
  obtain ⟨n', hpast⟩ := firstOneFrom_past_zeros hlo hhi hzero
  rw [hpast, firstOneFrom, hnone]

theorem firstOneFrom_of_one {rd : Nat → Option Bin} {i j n : Nat} (hlo : i ≤ j) (hhi : j < i + n)
    (hzero : ∀ m, i ≤ m → m < j → rd m = some false) (hone : rd j = some true) :
    firstOneFrom rd n i = some (some j) := by
  obtain ⟨n', hpast⟩ := firstOneFrom_past_zeros hlo hhi hzero
  rw [hpast, firstOneFrom, hone]

/-- The scan for the 13th transition counts those among the first `d` indices and goes on, while they are too few. -/
theorem transitionFrom_past {rd : Nat → Option Bin} {f : Nat → Bin} {d n i count : Nat} (hi : 1 ≤ i)
    (hrd : ∀ j, i - 1 ≤ j → j < i + d → rd j = some (f j))
    (hfew : count + ((List.range' i d).filter fun j => f j != f (j - 1)).length < 13) :
    transitionFrom rd (d + n) i count =
      transitionFrom rd n (i + d) (count + ((List.range' i d).filter fun j => f j != f (j - 1)).length) := by
  induction d generalizing i count with
  | zero => simp
  | succ d ih =>
    have hnew := hrd i (by omega) (by omega)
    have hold := hrd (i - 1) (Nat.le_refl _) (by omega)
    have hrest : ∀ j, i + 1 - 1 ≤ j → j < i + 1 + d → rd j = some (f j) :=
      fun j h1 h2 => hrd j (by omega) (by omega)
    rw [show d + 1 + n = (d + n) + 1 by omega]
    rw [List.range'_succ, List.filter_cons] at hfew ⊢
    simp only [transitionFrom, hnew, hold]
    by_cases heq : f i = f (i - 1)
    · simp only [heq, bne_self_eq_false, if_true, Bool.false_eq_true, if_false] at hfew ⊢
      rw [ih (by omega) hrest hfew, Nat.add_assoc i 1 d, Nat.add_comm 1 d]
    · simp only [heq, bne_iff_ne, ne_eq, not_false_eq_true, if_true, if_false, List.length_cons] at hfew ⊢
      have hlast : ¬count + 1 = Config.RUNIN_TRANSITIONS := by show ¬count + 1 = 13; omega
      rw [if_neg hlast, ih (by omega) hrest (by omega)]
      congr 1 <;> omega

/-- The transitions of a row after `start`, counted from there. -/
theorem transitionsBetween_eq (bits : List Bin) (start stop : Nat) :
    transitionsBetween bits start stop =
      ((List.range' (start + 1) (stop - (start + 1))).filter fun i => bitAt bits i != bitAt bits (i - 1)).length :=
  congrArg List.length (filter_range_ge stop (start + 1) fun i => bitAt bits i != bitAt bits (i - 1))

/-- The scan for the 13th transition comes to the element after a row that holds too few. -/
theorem transitionFrom_of_none {rd : Nat → Option Bin} {bits : List Bin} {start w : Nat} (hw : bits.length < w)
    (hstart : start < bits.length) (hrd : ∀ j, j < bits.length → rd j = bits[j]?) (hnone : rd bits.length = none)
    (hfew : transitionsBetween bits start bits.length < 13) :
    transitionFrom rd (w - (start + 1)) (start + 1) 0 = none := by
  rw [transitionsBetween_eq] at hfew
  have hpast := transitionFrom_past (rd := rd) (f := bitAt bits) (d := bits.length - (start + 1))
    (n := w - bits.length - 1 + 1) (i := start + 1) (count := 0) (by omega)
    (fun j _ h => by rw [hrd j (by omega), getElem?_eq_bitAt (by omega)]) (by omega)
  rw [show bits.length - (start + 1) + (w - bits.length - 1 + 1) = w - (start + 1) by omega,
    show start + 1 + (bits.length - (start + 1)) = bits.length by omega] at hpast
  rw [hpast]
  simp [transitionFrom, hnone]

/-! ### The units -/

section Units
variable {ln : Lane}

theorem normUnit_of_none {j : Nat} (hj : j < ln.w.read) (hnone : ln.sr.read? j = none) :
    normUnit ln = .fault .readNoneSR := by
  rw [normUnit, peakFrom_of_none 0 (Nat.zero_le j) (by omega) hnone, need_none]

theorem calibUnit_of_none {j : Nat} (hlo : ln.stopRunIn.read ≤ j) (hhi : j < ln.w.read)
    (hzero : ∀ m, ln.stopRunIn.read ≤ m → m < j → ln.br.read? m = some false) (hnone : ln.br.read? j = none) :
    calibUnit ln = .fault .readNoneBR := by
  have hscan : firstOneFrom ln.br.read? (ln.w.read - ln.stopRunIn.read) ln.stopRunIn.read = none :=
    firstOneFrom_of_none hlo (by omega) hzero hnone
  simp only [calibUnit, hscan, need_none]

theorem read_of_bit {bits : List Bin} {j : Nat} {b : Bin} (hrow : ∀ j, j < bits.length → ln.br.read? j = bits[j]?)
    (hj : j < bits.length) (hb : bitAt bits j = b) : ln.br.read? j = some b := by
  rw [hrow j hj, getElem?_eq_bitAt hj, hb]

section Locate
variable {bits : List Bin} (hw : bits.length < ln.w.read) (hrow : ∀ j, j < bits.length → ln.br.read? j = bits[j]?)
  (hnone : ln.br.read? bits.length = none)
include hw hrow hnone

/-- The scan for the first 1 comes to the NONE. -/
theorem locateUnit_of_none_in_first_scan (hzero : ∀ j, j < bits.length → bitAt bits j = false) :
    locateUnit ln = .fault .readNoneBR := by
  have hscan : firstOneFrom ln.br.read? ln.w.read 0 = none :=
    firstOneFrom_of_none (Nat.zero_le _) (by omega)
      (fun m _ hm => read_of_bit hrow hm (hzero m hm)) hnone
  rw [locateUnit, hscan, need_none]

/-- The scan for the 13th transition does. -/
theorem locateUnit_of_none_in_second_scan {start : Nat} (hone : FirstOneAt bits 0 start)
    (hgood : 20 * start ≤ ln.w.read) (hfew : transitionsBetween bits start bits.length < 13) :
    locateUnit ln = .fault .readNoneBR := by
  obtain ⟨-, hstart, hlevel, hbefore⟩ := hone
  have hscan : firstOneFrom ln.br.read? ln.w.read 0 = some (some start) :=
    firstOneFrom_of_one (Nat.zero_le _) (by omega)
      (fun m _ hm => read_of_bit hrow (by omega) (hbefore m (Nat.zero_le m) hm))
      (read_of_bit hrow hstart hlevel)
  have htime : ¬startTooLate ln.w.read start := Nat.not_lt.mpr hgood
  simp only [locateUnit, hscan, need_some, if_neg htime, transitionFrom_of_none hw hstart hrow hnone hfew, need_none]

end Locate

/-! ### The samples -/

theorem sampleBitUnit_of_none {o : Nat} {k : BitVec 5} (ho : o < ln.w.read) (hnone : ln.br.read? o = none)
    (heq : (o : Int) = ln.bitStart.read + k.toInt * ln.bitWidth.read + ln.bitWidth.read / 2) :
    sampleBitUnit ln k = .fault .readNoneBR := by
  have hoff : sampleOffset ln.bitStart.read ln.bitWidth.read k = o := by
    rw [sampleOffset]; push_cast; omega
  simp only [sampleBitUnit, hoff]
  rw [if_neg (by omega), Int.toNat_natCast, hnone, need_none]

/-- SAMPLEBIT answers, or faults by its one read. -/
theorem sampleBitUnit_ok_or_fault (ln : Lane) (k : BitVec 5) :
    (∃ v, sampleBitUnit ln k = .ok v) ∨ sampleBitUnit ln k = .fault .readNoneBR := by
  unfold sampleBitUnit
  dsimp only
  split
  · exact .inl ⟨_, rfl⟩
  · cases ln.br.read? (sampleOffset ln.bitStart.read ln.bitWidth.read k).toNat with
    | none => exact .inr rfl
    | some b => exact .inl ⟨_, rfl⟩

/-- Sampling a list of Bit Indices stops at the first that reads NONE. -/
theorem sampleAll_of_none {ks : List (BitVec 5)} {k : BitVec 5} (hmem : k ∈ ks)
    (hk : sampleBitUnit ln k = .fault .readNoneBR) : sampleAll ln ks = .fault .readNoneBR := by
  induction ks with
  | nil => cases hmem
  | cons first rest ih =>
    unfold sampleAll
    obtain ⟨v, hv⟩ | hv := sampleBitUnit_ok_or_fault ln first
    · have hrest : k ∈ rest := by
        obtain heq | hrest := List.mem_cons.mp hmem
        · rw [← heq, hk] at hv; cases hv
        · exact hrest
      rw [hv, Stage.bind_ok, ih hrest, Stage.bind_fault]
    · rw [hv, Stage.bind_fault]

theorem mem_sanity_indices : ∀ k : BitVec 5, -3 ≤ k.toInt → k.toInt ≤ -1 → k ∈ Config.DEAD_BITS ++ [Config.START_BIT] := by
  decide

theorem mem_dataIndices : ∀ k : BitVec 5, 0 ≤ k.toInt → k.toInt ≤ 15 → k ∈ dataIndices := by decide

theorem sanityUnit_of_none {k : BitVec 5} (hlo : -3 ≤ k.toInt) (hhi : k.toInt ≤ -1)
    (hk : sampleBitUnit ln k = .fault .readNoneBR) : sanityUnit ln = .fault .readNoneBR := by
  rw [sanityUnit, sampleAll_of_none (mem_sanity_indices k hlo hhi) hk, Stage.bind_fault]

theorem assembleUnit_of_none {k : BitVec 5} (hlo : 0 ≤ k.toInt) (hhi : k.toInt ≤ 15)
    (hk : sampleBitUnit ln k = .fault .readNoneBR) : assembleUnit ln = .fault .readNoneBR := by
  rw [assembleUnit, sampleAll_of_none (mem_dataIndices k hlo hhi) hk, Stage.bind_fault]

/-! ### Registers that hold NONE -/

/-- NORM over bits that read as width 0 reads no element. -/
theorem normUnit_of_no_width (hw : ln.w.read = 0) : normUnit ln = .reject .blankLine :=
  normUnit_blank (row := []) ⟨hw, fun _ hj => absurd hj (Nat.not_lt_zero _)⟩ (by decide)

/-- VALIDATE reads registers only, and completes or rejects. -/
theorem validateUnit_ok_or_reject (ln : Lane) :
    (∃ x, validateUnit ln = .ok x) ∨ validateUnit ln = .reject .parityMismatch := by
  unfold validateUnit
  split
  · exact .inl ⟨_, rfl⟩
  · exact .inr rfl

end Units

/-! ### The operations -/

section Operations
variable {s : State} {l : Nat} {ln : Lane}

theorem laneOp_fault {at_ : LaneState} {u : Lane → Stage Lane} {f : Fault} (hl : s.lane? l = some ln)
    (hpc : ln.pc = at_) (hu : u ln = .fault f) : laneOp at_ u l s = .fault f := by
  simp [laneOp, hl, hpc, hu]

theorem loadFrame_of_unwritten {i : Nat} (hfl : s.fl.read? i = none) : s.loadFrame l ln i = .fault .readNoneFL := by
  simp [State.loadFrame, hfl]

theorem exec_sampleBit_of_fault {k : BitVec 5} {f : Fault} (hl : s.lane? l = some ln)
    (hpc : ln.pc = .calibrated ∨ ln.pc = .sanityChecked) (hk : sampleBitUnit ln k = .fault f) :
    exec (.sampleBit l k) s = .fault f := by
  show execSampleBit l k s = _
  simp [execSampleBit, hl, hpc, hk]

theorem exec_validate_completes (hl : s.lane? l = some ln) (hpc : ln.pc = .bytesAssembled) :
    ∃ t, exec (.validate l) s = .next t := by
  obtain ⟨x, hx⟩ | hx := validateUnit_ok_or_reject ln
  · exact ⟨_, laneOp_ok hl hpc hx⟩
  · exact ⟨_, laneOp_reject hl hpc hx⟩

end Operations

end Sys2Proof.Machine

namespace Sys2Proof.Proofs

open Sys2Proof Sys2Proof.Machine

/-- Settles O38: each operation comes to the element that holds NONE, and stops there; those that read registers alone
complete. -/
theorem readOfNoneFaults : Obligations.ReadOfNoneFaults := by
  unfold Obligations.ReadOfNoneFaults
  intro s l i ln hl
  refine ⟨fun hpc hfl => ?load, fun hpc hen hfl => ?dispatch, fun hpc ⟨j, hj, hnone⟩ => ?norm,
    fun bits hpc hw hrow hnone hscan => ?locate, fun j hpc hlo hhi hnone hzero => ?calib,
    fun o k ho hnone heq => ⟨fun hpc => ?sample, fun hpc hlo hhi => ?sanity, fun hpc hlo hhi => ?assemble⟩,
    fun hw hpc => ?width, exec_validate_completes hl,
    fun hslot => ⟨fun hpc => ⟨_, exec_collect hl (.inl ⟨hpc, rfl⟩) hslot⟩,
      fun hpc => ⟨_, exec_collect hl (.inr ⟨hpc, rfl⟩) hslot⟩⟩⟩
  case load => exact (exec_load_of_idle hl hpc).trans (loadFrame_of_unwritten hfl)
  case dispatch => exact (exec_dispatch_of_enabled hl hen hpc).trans (loadFrame_of_unwritten hfl)
  case norm => exact laneOp_fault hl hpc (normUnit_of_none hj hnone)
  case locate =>
    refine laneOp_fault hl hpc ?_
    obtain hzero | ⟨start, hone, hgood, hfew⟩ := hscan
    · exact locateUnit_of_none_in_first_scan hw hrow hnone hzero
    · exact locateUnit_of_none_in_second_scan hw hrow hnone hone hgood hfew
  case calib => exact laneOp_fault hl hpc (calibUnit_of_none hlo hhi hzero hnone)
  case sample => exact exec_sampleBit_of_fault hl hpc (sampleBitUnit_of_none ho hnone heq)
  case sanity => exact laneOp_fault hl hpc (sanityUnit_of_none hlo hhi (sampleBitUnit_of_none ho hnone heq))
  case assemble => exact laneOp_fault hl hpc (assembleUnit_of_none hlo hhi (sampleBitUnit_of_none ho hnone heq))
  case width => exact laneOp_reject hl hpc (normUnit_of_no_width hw)

end Sys2Proof.Proofs
end

section
/-! Operations of two lanes commute, the row-error merge of two LOADs included (20_memory.md R59, R60, 60_exceptions.md
R246). -/

namespace Sys2Proof.Machine

/-! ### One lane's operation, wherever the rest of the block stands -/

/-- An operation of lane `l` that completes on `s` by replacing the lane with `ln'`, and does the same on every block whose
lane `l` is the same. -/
def ReplacesLane (op : Instr) (s : State) (l : Nat) (ln' : Lane) : Prop :=
  ∀ s' : State, s'.lane? l = s.lane? l → exec op s' = .next (s'.setLane l ln')

theorem exists_replacesLane {s a : State} {l : Nat} {op : Instr} (hop : DecodingOp l op) (h : exec op s = .next a) :
    ∃ ln', a = s.setLane l ln' ∧ ReplacesLane op s l ln' := by
  obtain ⟨at_, u, -, -, hexec⟩ := hop.exec_eq_laneOp
  rw [hexec] at h
  obtain ⟨ln, hl, ⟨hpc, rfl⟩ | ⟨hpc, ln', hu, rfl⟩ | ⟨hpc, c, hu, rfl⟩⟩ := laneOp_next h
  · refine ⟨ln, (State.setLane_same hl).symm, fun s' hs' => ?_⟩
    rw [hexec, laneOp_waits (hs'.trans hl) hpc, State.setLane_same (hs'.trans hl)]
  · exact ⟨ln', rfl, fun s' hs' => by rw [hexec, laneOp_ok (hs'.trans hl) hpc hu]⟩
  · exact ⟨rejectEntry c ln, rfl, fun s' hs' => by rw [hexec, laneOp_reject (hs'.trans hl) hpc hu]⟩

theorem setLane_comm (s : State) {l m : Nat} (h : l ≠ m) (x y : Lane) :
    (s.setLane l x).setLane m y = (s.setLane m y).setLane l x := by
  simp only [State.setLane, List.set_comm _ _ h]

/-! ### LOAD, wherever the other lanes and the row-error cells stand -/

/-- The row-error cells after a LOAD: merged with the frame that has no row, if it is one (R34, R193). -/
def State.mergeError (s : State) : Option Nat → State
  | none => s
  | some i => { s with errIndex := .val (mergedErrIndex s.rowError s.errIndex i), rowError := true }

/-- The block after a LOAD that made lane `l` into `ln'`, of the frame `failed` if it has no row. -/
def State.loadedBlock (s : State) (l : Nat) (ln' : Lane) (failed : Option Nat) : State :=
  (s.setLane l ln').mergeError failed

/-- The blocks on which LOAD reads the same of lane `l` as on `s`. -/
def SameForLoad (l : Nat) (s s' : State) : Prop :=
  s'.lane? l = s.lane? l ∧ s'.fl = s.fl ∧ s'.cfg = s.cfg ∧ s'.row = s.row ∧ s'.sampler = s.sampler

theorem lane?_loadedBlock_ne (s : State) {l m : Nat} (h : m ≠ l) (x : Lane) (failed : Option Nat) :
    (s.loadedBlock l x failed).lane? m = s.lane? m := by
  cases failed with
  | none => exact State.lane?_setLane_ne s h x
  | some i => exact State.lane?_setLane_ne s h x

theorem sameForLoad_loadedBlock (s : State) {l m : Nat} (h : m ≠ l) (x : Lane) (failed : Option Nat) :
    SameForLoad m s (s.loadedBlock l x failed) := by
  refine ⟨lane?_loadedBlock_ne s h x failed, ?_⟩
  cases failed with
  | none => exact ⟨rfl, rfl, rfl, rfl⟩
  | some i => exact ⟨rfl, rfl, rfl, rfl⟩

/-- A LOAD that completes on `s` does the same on every block that it reads the same of. -/
theorem exists_loadedBlock {s a : State} {l i : Nat} (h : exec (.load l i) s = .next a) :
    ∃ ln' failed, a = s.loadedBlock l ln' failed ∧
      ∀ s', SameForLoad l s s' → exec (.load l i) s' = .next (s'.loadedBlock l ln' failed) := by
  cases hl : s.lane? l with
  | none =>
    change execLoad l i s = _ at h
    simp only [execLoad, hl] at h
    cases h
  | some ln =>
    by_cases hpc : ln.pc = .idle
    case neg =>
      rw [exec_load_of_not_idle i hl hpc] at h; cases h
      refine ⟨ln, none, (State.setLane_same hl).symm, fun s' ⟨hs', _⟩ => ?_⟩
      rw [exec_load_of_not_idle i (hs'.trans hl) hpc]
      exact congrArg _ (State.setLane_same (hs'.trans hl)).symm
    rw [exec_load_of_idle hl hpc] at h
    obtain ⟨handle, hfl, ⟨row, hrow, rfl⟩ | ⟨hrow, rfl⟩⟩ := loadFrame_next h
    case inl =>
      refine ⟨ln.loaded s.cfg i row, none, rfl, fun s' ⟨hs', hfl', hcfg, hrow', hsampler⟩ => ?_⟩
      have hread : s'.readScanline handle = s.readScanline handle := by
        simp only [State.readScanline, hrow', hsampler]
      rw [exec_load_of_idle (hs'.trans hl) hpc,
        loadFrame_of_row (h := handle) (row := row) (by rw [hfl', hfl]) (by rw [hcfg, hread, hrow]), hcfg]
      rfl
    case inr =>
      refine ⟨ln.unavailable s.cfg i, some i, rfl, fun s' ⟨hs', hfl', hcfg, hrow', hsampler⟩ => ?_⟩
      have hread : s'.readScanline handle = s.readScanline handle := by
        simp only [State.readScanline, hrow', hsampler]
      rw [exec_load_of_idle (hs'.trans hl) hpc,
        loadFrame_of_no_row (h := handle) (by rw [hfl', hfl]) (by rw [hcfg, hread, hrow]), hcfg]
      rfl

/-- R246: the merge keeps the least index, in whatever order. -/
theorem mergedErrIndex_comm (rowError : Bool) (errIndex : Reg Nat) (i j : Nat) :
    mergedErrIndex true (.val (mergedErrIndex rowError errIndex i)) j =
      mergedErrIndex true (.val (mergedErrIndex rowError errIndex j)) i := by
  cases rowError with
  | false => exact Nat.min_comm i j
  | true => exact Nat.min_right_comm _ i j

theorem loadedBlock_comm (s : State) {l m : Nat} (h : l ≠ m) (x y : Lane) (fx fy : Option Nat) :
    (s.loadedBlock l x fx).loadedBlock m y fy = (s.loadedBlock m y fy).loadedBlock l x fx := by
  have hlanes : (s.lanes.set l x).set m y = (s.lanes.set m y).set l x := List.set_comm _ _ h
  cases fx with
  | none =>
    cases fy with
    | none => exact setLane_comm s h x y
    | some j => simp [State.loadedBlock, State.mergeError, State.setLane, hlanes]
  | some i =>
    cases fy with
    | none => simp [State.loadedBlock, State.mergeError, State.setLane, hlanes]
    | some j =>
      simp [State.loadedBlock, State.mergeError, State.setLane, hlanes, mergedErrIndex_comm s.rowError s.errIndex i j]

end Sys2Proof.Machine

namespace Sys2Proof.Proofs

open Sys2Proof Sys2Proof.Machine

/-- Settles O58: each operation replaces its lane by one that depends on that lane alone, and the two replacements
commute. -/
theorem operationsOfTwoLanesCommute : Obligations.OperationsOfTwoLanesCommute := by
  unfold Obligations.OperationsOfTwoLanesCommute
  intro s a b l m op op' hne hop hop' ha hb
  obtain ⟨x, rfl, hx⟩ := exists_replacesLane hop ha
  obtain ⟨y, rfl, hy⟩ := exists_replacesLane hop' hb
  refine ⟨s.setLane m y, hy s (State.lane?_setLane_ne s hne.symm x).symm, ?_⟩
  rw [hx (s.setLane m y) (State.lane?_setLane_ne s hne y), setLane_comm s hne]

/-- Settles O59: each LOAD makes its lane and its frame's error of what the other leaves alone, and the merges commute. -/
theorem loadsOfTwoLanesCommute : Obligations.LoadsOfTwoLanesCommute := by
  unfold Obligations.LoadsOfTwoLanesCommute
  intro s a b l m i j hne ha hb
  obtain ⟨x, fx, rfl, hx⟩ := exists_loadedBlock ha
  obtain ⟨y, fy, rfl, hy⟩ := exists_loadedBlock hb
  have hback : SameForLoad m (s.loadedBlock l x fx) s := by
    obtain ⟨hlane, hfl, hcfg, hrow, hsampler⟩ := sameForLoad_loadedBlock s hne.symm x fx
    exact ⟨hlane.symm, hfl.symm, hcfg.symm, hrow.symm, hsampler.symm⟩
  refine ⟨s.loadedBlock m y fy, hy s hback, ?_⟩
  rw [hx _ (sameForLoad_loadedBlock s hne y fy), loadedBlock_comm s hne]

end Sys2Proof.Proofs
end
